-- ==== Sys2Proof/Word.lean ====
section
/-! DEFINITION. The word types of the Bus Transaction Engine and the levels of its two wires. -/

namespace Sys2Proof

/-- A transferred byte (R7 `BYTE_W`), also one byte of the buffer memory (R35). -/
abbrev Byte := BitVec 8

/-- A host register or a command word (R7 `REG_W`, R60). -/
abbrev Word := BitVec 32

/-- A 7-bit device address (R7 `DEV_ADDR_W`, R40). -/
abbrev DevAddr := BitVec 7

/-- An address of the buffer memory (R7 `BUF_AW`, R36). -/
abbrev BufAddr := BitVec 16

/-- The levels of the clock wire and the data wire: `true` is high, or released; `false` is low, or
pulled low (R18, R41). Used for a line sample, for the two drivers and for the environment's answer. -/
structure Levels where
  scl : Bool
  sda : Bool
  deriving DecidableEq, Repr, Inhabited

end Sys2Proof
end

