-- ==== Sys2Proof/Config.lean ====
section
/-! DEFINITION. What an implementation fixes (R7) and the free values the spec leaves open (R37, R42).
A constant declared `opaque` has no value any proof can see: what is proved holds for all of them. -/

namespace Sys2Proof

/-- One less than `ATTEMPT_LIMIT`. R7 leaves the limit OPEN, any integer at least 1 (log 3). -/
opaque Config.attemptLimitPred : Nat

/-- `ATTEMPT_LIMIT` of R7 and R46: the number of failed clock polls at which a primitive command
stalls; at least 1 by its form. -/
def Config.attemptLimit : Nat := Config.attemptLimitPred + 1

/-- `ERR_INDICATOR` of R7, the negative return value of WRITEB and READB (D17). -/
def Config.errIndicator : Int := -1

/-- `DEFAULT_DEV_ADDR` of R7: the address the CALLER uses when none is given; the engine neither
stores nor reads it (R40). -/
def Config.defaultDevAddr : DevAddr := 0x3C#7

/-- FREE VALUE (log 4). The bus environment's answer `EnvLevels()` of R42 where the state fixes none:
it may depend on which draw this is, on the wire trace so far and on the drivers, and is otherwise
unconstrained. -/
opaque Config.envLevels (draw : Nat) (trace : List Levels) (drivers : Levels) : Levels

/-- FREE VALUE (log 5). The byte read where the buffer memory holds no value (R37: "draws the byte,
under no law"). -/
opaque Config.freeByte (draw : Nat) : Byte

end Sys2Proof
end

