-- ==== Sys2Proof/Machine/State.lean ====
section
/-! DEFINITION. The state of the BTE (R11), of its host (R8, R77) and of its bus environment (R8, R42,
R54), as plain data; the reasons a step can stop; the state after reset (R28). -/

namespace Sys2Proof.Machine

/-- The FSM state `st` of R14. -/
inductive St where
  | idle | start | address | data | rstart | stop | error
  deriving DecidableEq, Repr

/-- `cause` of R16: why `err` was last set. -/
inductive Cause where
  | none | nack | stall | proto
  deriving DecidableEq, Repr

/-- `dir` of R17: the direction of the open transaction; `write` is 0, `read` is 1. -/
inductive Dir where
  | write | read
  deriving DecidableEq, Repr

/-- What a line sample is taken for; it decides what a well-behaved environment may drive (R53 E1, E3). -/
inductive Slot where
  /-- the first sample of a START, which shows the bus before the transaction (R81) -/
  | idleBus
  /-- a sample of a start or stop condition (R81, R82, R83) -/
  | framing
  /-- a sample of `AbortRelease` (R49): a stop condition as far as the bus lets it form. `before` counts the failed
  polls of the same primitive command from before it, which `AbortRelease` clears from `att` (R53 E4, log 9) -/
  | release (before : Nat)
  /-- a bit cell in which the controller drives SDA: a data bit of a sent byte, or its own acknowledge -/
  | tx
  /-- the acknowledge cell of a byte the controller sent (R90) -/
  | ack
  /-- a data cell of a byte the controller receives (R91) -/
  | rx
  deriving DecidableEq, Repr

/-- One question to the bus environment and its answer (ghost, log 9): one a line sample (R43). -/
structure Ask where
  /-- the drivers `(scl_drv, sda_drv)` when the sample was taken -/
  drv : Levels
  /-- the environment's answer `(e_scl, e_sda)` -/
  ans : Levels
  slot : Slot
  /-- a poll of the clock inside `ReleaseSCL` (R46) -/
  poll : Bool
  /-- `att` when the sample was taken -/
  att : Nat
  deriving DecidableEq, Repr

/-- What the ideal target of R54 is doing. -/
inductive TMode where
  /-- not addressed: waits for a start condition -/
  | off
  /-- receives the address byte -/
  | addressed
  /-- receives data bytes -/
  | receiving
  /-- sends data bytes -/
  | sending
  deriving DecidableEq, Repr

/-- The ideal target `T(a, tx)` of R54 with the three variations a vector may add. The first six fields
say which target it is, the others what it is doing (log 8). -/
structure Target where
  addr : DevAddr
  /-- the bytes still to send, the current one left out -/
  tx : List Byte
  /-- the bytes it does not acknowledge, counted from 1 over the run -/
  nacks : List Nat
  /-- `(r, p)`: it holds SCL low for `p` polls at the `r`-th release -/
  stretch : List (Nat × Nat)
  /-- `some n`: from sample `n` on (counted from 1) it holds SCL low for ever -/
  stuckFrom : Option Nat
  mode : TMode
  /-- rising edges of SCL seen in the current frame, 0 to 9 -/
  bits : Nat
  /-- the bits received in the current frame -/
  sh : Byte
  /-- the byte being sent -/
  cur : Byte
  /-- in the ninth cell of a sent byte: the controller acknowledged -/
  acked : Bool
  /-- whether the current received byte is acknowledged -/
  acks : Bool
  /-- bytes received over the run, address bytes included -/
  nbytes : Nat
  /-- samples taken over the run -/
  nsamples : Nat
  /-- releases of SCL over the run -/
  nreleases : Nat
  /-- polls for which SCL is still held low -/
  hold : Nat
  /-- the last sample -/
  prev : Levels
  /-- `scl_drv` at the last sample -/
  prevDrv : Bool
  /-- the level it lets SDA have -/
  sda : Bool
  deriving DecidableEq, Repr

/-- The bus environment (R8 agent 3, R42), as plain data (log 4). -/
inductive Env where
  /-- these answers first, then a free value for every further question -/
  | script (answers : List Levels)
  /-- the ideal target of R54 -/
  | ideal (t : Target)
  deriving DecidableEq, Repr

/-- The width of a host register access (R32). -/
inductive Width where
  | byte | half | word
  deriving DecidableEq, Repr

/-- A host operation (R77, R140). -/
inductive HostOp where
  /-- `HostWrite(off, v)` of R32; a write to offset 0 is a command -/
  | write (off : Nat) (width : Width) (v : Word)
  /-- `HostRead(off)` of R32 -/
  | read (off : Nat) (width : Width)
  /-- `MEM[a] <- v` of R77 -/
  | memStore (a : Nat) (v : Byte)
  /-- `MEM[a]` of R77 -/
  | memLoad (a : Nat)
  /-- drive the reset input to a level (R140) -/
  | setRst (level : Bool)
  /-- the second half of RECOVER (R78): RESUME if `RSP.data[0]` = 1 -/
  | resumeIfErr
  deriving DecidableEq, Repr

/-- The buffer memory (R35): the bytes that hold a value, as (address, byte) pairs with strictly rising
addresses below 65536. An address that is not listed holds NO value (R37). -/
abbrev Memory := List Host.Cell

/-- The whole state. The fields up to `wire` are R11's tuple; the others are the model's: inputs, the
two other agents and one ghost (INVENTORY.md, State). -/
structure State where
  /-- FSM state (R14) -/
  st : St
  /-- sticky fault flag (R15) -/
  err : Bool
  /-- why `err` was set (R16) -/
  cause : Cause
  /-- direction of the open transaction (R17) -/
  dir : Dir
  /-- a command is executing (R25) -/
  busy : Bool
  /-- clock-wire driver, `true` released (R18) -/
  sclDrv : Bool
  /-- data-wire driver, `true` released (R18) -/
  sdaDrv : Bool
  /-- PTR (R19) -/
  ptr : BufAddr
  /-- LEN (R20) -/
  len : BitVec 15
  /-- RSP (R21) -/
  rsp : Word
  /-- byte being moved (R24) -/
  shreg : Byte
  /-- bit position in the frame (R24) -/
  bitcnt : BitVec 4
  /-- failed clock polls in this primitive command (R24) -/
  att : Nat
  /-- buffer memory (R35) -/
  mem : Memory
  /-- ghost: the wire trace, oldest first (R26) -/
  wire : List Levels
  /-- the level of the reset input (R140) -/
  rst : Bool
  /-- the host operations still to be done, next first (R10) -/
  host : List HostOp
  /-- ghost: the values the host's reads returned, oldest first (R77) -/
  reads : List Word
  /-- the bus environment (R42) -/
  env : Env
  /-- how many free values have been drawn (R42, R37) -/
  draws : Nat
  /-- ghost: the questions to the environment since reset, parallel to `wire` (R43, R53) -/
  asked : List Ask
  deriving DecidableEq, Repr

/-- Why the machine stops. No command stops it: a fault of the BTE (R121) is a next state. -/
inductive Fault where
  /-- Raised by the host's buffer accesses `memStore` and `memLoad` at an address above 0xFFFF, which
  R30 says does not exist. Safe: the model stops where the spec gives no effect. -/
  | noSuchBufferAddress (a : Nat)
  deriving DecidableEq, Repr

/-- Why a step is refused. -/
inductive Refusal where
  /-- Answered only by an arm of `exec` whose instruction has no meaning yet; no arm does. Safe. -/
  | notModelled (mnemonic : String)
  /-- Raised by a host register access that is narrower than 32 bits or not at a multiple of 4, which
  R32 does not define and tells a model to refuse. Safe. -/
  | badHostAccess (off : Nat) (width : Width)
  deriving DecidableEq, Repr

/-- The machine right after reset (R28, R141): the reset input released, nothing placed for the host to
do, no answer of the environment fixed, no buffer byte holding a value. -/
def State.reset : State where
  st := .idle
  err := false
  cause := .none
  dir := .write
  busy := false
  sclDrv := true
  sdaDrv := true
  ptr := 0#16
  len := 0#15
  rsp := 0#32
  shreg := 0#8
  bitcnt := 0#4
  att := 0
  mem := []
  wire := []
  rst := false
  host := []
  reads := []
  env := .script []
  draws := 0
  asked := []

end Sys2Proof.Machine
end

