-- ==== Sys2Proof/Machine/Flags.lean ====
section
/-! DEFINITION. The codes of the status flags, the STATUS word (R22), the response word (R21) and the
fields a caller takes from it (R72). There are no arithmetic condition codes (R29). -/

namespace Sys2Proof.Machine

/-- The 3-bit code of `st` (R14). -/
def St.code : St → BitVec 3
  | .idle => 0#3
  | .start => 1#3
  | .address => 2#3
  | .data => 3#3
  | .rstart => 4#3
  | .stop => 5#3
  | .error => 6#3

/-- The 2-bit code of `cause` (R16). -/
def Cause.code : Cause → BitVec 2
  | .none => 0#2
  | .nack => 1#2
  | .stall => 2#2
  | .proto => 3#2

/-- The bit of `dir` (R17). -/
def Dir.bit : Dir → BitVec 1
  | .write => 0#1
  | .read => 1#1

/-- The states of `st` that hold between commands (R14, last column). -/
def St.stable : St → Bool
  | .idle | .start | .data | .rstart | .error => true
  | .address | .stop => false

/-- STATUS as the host reads it (R22). -/
def statusWord (s : State) : Word :=
  0#22 ++ BitVec.ofBool s.sdaDrv ++ BitVec.ofBool s.sclDrv ++ s.cause.code ++ BitVec.ofBool s.busy
    ++ s.dir.bit ++ BitVec.ofBool s.err ++ s.st.code

/-- The word `Respond(ok, data, ill, count)` writes (R21): `count` as a 16-bit two's complement field. -/
def rspWord (ok : Bool) (data : Byte) (ill : Bool) (count : Int) : Word :=
  BitVec.ofInt 16 count ++ 0#6 ++ BitVec.ofBool ill ++ BitVec.ofBool ok ++ data

/-- `RSP.data` (R21). -/
def rspData (w : Word) : Byte := w.extractLsb' 0 8

/-- `RSP.ok` (R21). -/
def rspOk (w : Word) : Bool := w.getLsbD 8

/-- `RSP.ill` (R21). -/
def rspIll (w : Word) : Bool := w.getLsbD 9

/-- `sext(RSP.count)`, the return value of WRITEB and READB (R21, R72, R113). -/
def rspCount (w : Word) : Int := (w.extractLsb' 16 16).toInt

/-- `zext_8(err)`, what CHKERR reports (R100). -/
def errByte (err : Bool) : Byte := (BitVec.ofBool err).zeroExtend 8

end Sys2Proof.Machine
end

