-- ==== Sys2Proof/Syntax.lean ====
section
/-! DEFINITION. The nine commands (R62), one constructor a row of spec/opcode_table.json. -/

namespace Sys2Proof

/-- A command of the BTE with its operand (R63). The operand types hold exactly the legal values, so
that an illegal operand is an illegal WORD (R66), which the decoder rejects, and no term of this type. -/
inductive Instr where
  /-- START (R81): emit a start condition. -/
  | start
  /-- STOP (R82): emit a stop condition, release the bus. -/
  | stop
  /-- RSTART (R83): emit a repeated start. -/
  | rstart
  /-- PUT b (R92): transmit the byte `b`. -/
  | put (b : Byte)
  /-- GET nak (R93): receive a byte; `nak = true` does not acknowledge it. -/
  | get (nak : Bool)
  /-- CHKERR (R100): report the sticky fault flag. -/
  | chkerr
  /-- RESUME (R101): clear the sticky fault and resynchronise. -/
  | resume
  /-- WRITEB a (R110): write LEN buffer bytes to the device `a`. -/
  | writeb (a : DevAddr)
  /-- READB a (R111): read LEN bytes from the device `a` into the buffer. -/
  | readb (a : DevAddr)
  deriving DecidableEq, Repr

end Sys2Proof
end

