-- ==== Sys2Proof/WellFormed.lean ====
section
/-! DEFINITION. The fields of a command word (R61) and the checks that make one legal (R63, R65, R66),
and the second form of R65: the nine sets of words given by match and mask. Every term of `Instr` is
well formed by its types (see Syntax.lean); what can be ill formed is a command word. -/

namespace Sys2Proof

/-- The four fields of format `C` (R61), as they stand in a word. -/
structure RawCmd where
  z1 : BitVec 16
  op : BitVec 4
  z0 : BitVec 4
  imm8 : Byte
  deriving DecidableEq, Repr

/-- `op` is one of the nine operation codes 0x1 to 0x9 (R62). -/
def RawCmd.opDefined (r : RawCmd) : Bool := 1 ≤ r.op.toNat && r.op.toNat ≤ 9

/-- The third column of R63: the legal values of `imm8` for each operation. -/
def RawCmd.immLegal (r : RawCmd) : Bool :=
  match r.op.toNat with
  | 1 | 2 | 3 | 6 | 7 => r.imm8.toNat == 0
  | 4 => true
  | 5 => r.imm8.toNat ≤ 0x01
  | 8 | 9 => r.imm8.toNat ≤ 0x7F
  | _ => false

/-- The checks of R66 on the fields of a word: it is legal iff all of them pass. -/
def RawCmd.wellFormed (r : RawCmd) : Bool :=
  r.z1 == 0#16 && r.z0 == 0#4 && r.opDefined && r.immLegal

/-- A row of the table in R65: the words `w` with `w AND mask = match`. -/
structure EncRow where
  mnemonic : String
  pattern : Word
  mask : Word
  deriving DecidableEq, Repr

/-- The table of R65 (the same rows as spec/opcode_table.json). -/
def encTable : List EncRow :=
  [ ⟨"START", 0x00001000#32, 0xFFFFFFFF#32⟩,
    ⟨"STOP", 0x00002000#32, 0xFFFFFFFF#32⟩,
    ⟨"RSTART", 0x00003000#32, 0xFFFFFFFF#32⟩,
    ⟨"PUT", 0x00004000#32, 0xFFFFFF00#32⟩,
    ⟨"GET", 0x00005000#32, 0xFFFFFFFE#32⟩,
    ⟨"CHKERR", 0x00006000#32, 0xFFFFFFFF#32⟩,
    ⟨"RESUME", 0x00007000#32, 0xFFFFFFFF#32⟩,
    ⟨"WRITEB", 0x00008000#32, 0xFFFFFF80#32⟩,
    ⟨"READB", 0x00009000#32, 0xFFFFFF80#32⟩ ]

/-- The word lies in the set of the row. -/
def EncRow.covers (r : EncRow) (w : Word) : Bool := w &&& r.mask == r.pattern

/-- The word lies in one of the nine sets of R65. -/
def legalWord (w : Word) : Bool := encTable.any (·.covers w)

/-- The mnemonic of a command (R62). -/
def Instr.mnemonic : Instr → String
  | .start => "START"
  | .stop => "STOP"
  | .rstart => "RSTART"
  | .put _ => "PUT"
  | .get _ => "GET"
  | .chkerr => "CHKERR"
  | .resume => "RESUME"
  | .writeb _ => "WRITEB"
  | .readb _ => "READB"

end Sys2Proof
end

