-- ==== Sys2Proof/Decode.lean ====
section
/-! DEFINITION. The decoder of R65, total on 32-bit words, and the encoder written from R61 to R63. -/

namespace Sys2Proof

/-- Why a word is illegal (R66), in the order R65 tests it. -/
inductive Reject where
  /-- a nonzero bit in [31:16] -/
  | highBits
  /-- a nonzero bit in [11:8] -/
  | midBits
  /-- operation code 0x0 or 0xA to 0xF -/
  | reservedOp
  /-- START, STOP, RSTART, CHKERR or RESUME with a nonzero `imm8` -/
  | operandNotZero
  /-- GET with `imm8` above 1 -/
  | nakOutOfRange
  /-- WRITEB or READB with `imm8[7]` = 1 -/
  | addressOutOfRange
  deriving DecidableEq, Repr

/-- The fields of a word (R61). -/
def RawCmd.ofWord (w : Word) : RawCmd :=
  { z1 := w.extractLsb' 16 16, op := w.extractLsb' 12 4, z0 := w.extractLsb' 8 4, imm8 := w.extractLsb' 0 8 }

/-- The word with the given fields (R61). -/
def RawCmd.toWord (r : RawCmd) : Word := r.z1 ++ r.op ++ r.z0 ++ r.imm8

/-- A command without operand needs `imm8` = 0 (R63). -/
def decodeNoOperand (i : Instr) (imm8 : Byte) : Except Reject Instr :=
  if imm8 = 0#8 then .ok i else .error .operandNotZero

/-- GET: `nak = imm8[0]`, the other bits 0 (R63). -/
def decodeGet (imm8 : Byte) : Except Reject Instr :=
  if imm8.extractLsb' 1 7 = 0#7 then .ok (.get (imm8.getLsbD 0)) else .error .nakOutOfRange

/-- WRITEB and READB: `a = imm8[6:0]`, `imm8[7]` = 0 (R63). -/
def decodeAddressed (mk : DevAddr → Instr) (imm8 : Byte) : Except Reject Instr :=
  if imm8.getLsbD 7 = false then .ok (mk (imm8.extractLsb' 0 7)) else .error .addressOutOfRange

/-- `Decode(w)` of R65. -/
def decode (w : Word) : Except Reject Instr :=
  let r := RawCmd.ofWord w
  if r.z1 ≠ 0#16 then .error .highBits
  else if r.z0 ≠ 0#4 then .error .midBits
  else
    match r.op.toNat with
    | 0x1 => decodeNoOperand .start r.imm8
    | 0x2 => decodeNoOperand .stop r.imm8
    | 0x3 => decodeNoOperand .rstart r.imm8
    | 0x4 => .ok (.put r.imm8)
    | 0x5 => decodeGet r.imm8
    | 0x6 => decodeNoOperand .chkerr r.imm8
    | 0x7 => decodeNoOperand .resume r.imm8
    | 0x8 => decodeAddressed .writeb r.imm8
    | 0x9 => decodeAddressed .readb r.imm8
    | _ => .error .reservedOp

/-- The operation code of a command (R62). -/
def opcodeOf : Instr → BitVec 4
  | .start => 0x1#4
  | .stop => 0x2#4
  | .rstart => 0x3#4
  | .put _ => 0x4#4
  | .get _ => 0x5#4
  | .chkerr => 0x6#4
  | .resume => 0x7#4
  | .writeb _ => 0x8#4
  | .readb _ => 0x9#4

/-- The `imm8` field of a command (R63). -/
def imm8Of : Instr → Byte
  | .put b => b
  | .get nak => (BitVec.ofBool nak).zeroExtend 8
  | .writeb a => a.zeroExtend 8
  | .readb a => a.zeroExtend 8
  | .start | .stop | .rstart | .chkerr | .resume => 0x00#8

/-- The word of a command (R61). -/
def encode (i : Instr) : Word := (RawCmd.mk 0#16 (opcodeOf i) 0#4 (imm8Of i)).toWord

/-- The instruction the decoder reads from the low `nbits` bits of `w`, numbered as
spec/opcode_table.json numbers them: a command is one 32-bit word (R60), its bit 0 the table's bit 0,
and every bit above `nbits` is 0. -/
def decodeTableWord (nbits w : Nat) : Option Instr :=
  match decode (BitVec.ofNat 32 (w % 2 ^ nbits)) with
  | .ok i => some i
  | .error _ => none

end Sys2Proof
end

