-- ==== Sys2Proof/Machine/Operands.lean ====
section
/-! DEFINITION. The operand forms: the address byte and its direction bit (R40, R64), the buffer address
of a transfer's byte (R36), and the written form of a command (R71). -/

namespace Sys2Proof.Machine

/-- `a[6:0] || rw` of R40 and R64. -/
def addrByte (a : DevAddr) (d : Dir) : Byte :=
  match d with
  | .write => a ++ 0#1
  | .read => a ++ 1#1

/-- The direction an address byte carries in bit 0: 0 write, 1 read (R17, R40). -/
def dirOf (b : Byte) : Dir := if b.getLsbD 0 then .read else .write

/-- The device address an address byte carries in bits 7 to 1 (R40). -/
def addrOf (b : Byte) : DevAddr := b.extractLsb' 1 7

/-- The buffer address of byte `n` of a transfer: `(PTR + n) mod 65536` (R36). -/
def bufAddr (s : State) (n : Nat) : BufAddr := s.ptr + BitVec.ofNat 16 n

/-- A command line of R71, operands in decimal. -/
def written : Instr → String
  | .put b => "PUT " ++ toString b.toNat
  | .get nak => if nak then "GET NAK" else "GET ACK"
  | .writeb a => "WRITEB " ++ toString a.toNat
  | .readb a => "READB " ++ toString a.toNat
  | i => i.mnemonic

end Sys2Proof.Machine
end

