-- ==== Sys2Proof/Machine/Target.lean ====
section
/-! DEFINITION. The ideal target of R54, the bus environment of the spec's test vectors: what it answers to
a question and what it makes of the sample that follows (log 8). -/

namespace Sys2Proof.Machine

/-- `T(a, tx)` of R54 before the run: it never stretches the clock and acknowledges every byte. -/
def Target.ideal (a : DevAddr) (tx : List Byte) : Target where
  addr := a
  tx := tx
  nacks := []
  stretch := []
  stuckFrom := none
  mode := .off
  bits := 0
  sh := 0#8
  cur := 0xFF#8
  acked := false
  acks := false
  nbytes := 0
  nsamples := 0
  nreleases := 0
  hold := 0
  prev := ⟨true, true⟩
  prevDrv := true
  sda := true

/-- This question is the first since the BTE set `scl_drv` from 0 to 1: a release (95, Conventions). DESIGN CHOICE
(log 8): a reset in mid-transaction raises `scl_drv` too, without `ReleaseSCL` and without a sample, and counts as a
release at the first sample of the next START. 95 says both "sets `scl_drv` from 0 to 1" and "each call of
`ReleaseSCL`", and does not speak of a reset. -/
def Target.released (t : Target) (drv : Levels) : Bool := drv.scl && !t.prevDrv

/-- How many polls, this one included, the target still holds SCL low. -/
def Target.holdNow (t : Target) (drv : Levels) : Nat :=
  if t.released drv then (t.stretch.lookup (t.nreleases + 1)).getD 0 else t.hold

/-- The target holds SCL low for ever from a given sample on (95 vectors V3.8, V3.9). -/
def Target.stuck (t : Target) : Bool :=
  match t.stuckFrom with
  | none => false
  | some n => n ≤ t.nsamples + 1

/-- The target's answer `(e_scl, e_sda)`. -/
def Target.answer (t : Target) (drv : Levels) : Levels :=
  ⟨!t.stuck && t.holdNow drv == 0, t.sda⟩

/-- The next byte to send: the list in order, then 0xFF (R54). DESIGN CHOICE (log 8): a byte leaves the list when it is
loaded, so one that a stop or repeated start cuts off is not sent again in the next read. R54 does not say. -/
def Target.loadByte (t : Target) : Target :=
  match t.tx with
  | [] => { t with cur := 0xFF#8, bits := 0, mode := .sending, sda := true }
  | b :: rest => { t with cur := b, tx := rest, bits := 0, mode := .sending, sda := b.getLsbD 7 }

/-- A falling edge of SCL: the only moment after which a target changes what it drives on SDA (R53 E2,
R54 "changes `e_sda` only at the first sample after a falling edge of SCL"). -/
def Target.falling (t : Target) : Target :=
  match t.mode with
  | .off => t
  | .addressed =>
    if t.bits = 8 then
      let ok := addrOf t.sh == t.addr && !t.nacks.contains (t.nbytes + 1)
      { t with nbytes := t.nbytes + 1, acks := ok, sda := !ok }
    else if t.bits = 9 then
      if t.acks then
        match dirOf t.sh with
        | .write => { t with mode := .receiving, bits := 0, sda := true }
        | .read => t.loadByte
      else { t with mode := .off, bits := 0, sda := true }
    else t
  | .receiving =>
    if t.bits = 8 then
      let ok := !t.nacks.contains (t.nbytes + 1)
      { t with nbytes := t.nbytes + 1, acks := ok, sda := !ok }
    else if t.bits = 9 then { t with bits := 0, sda := true }
    else t
  | .sending =>
    if t.bits < 8 then { t with sda := t.cur.getLsbD (7 - t.bits) }
    else if t.bits = 8 then { t with sda := true }
    else if t.acked then t.loadByte
    else { t with mode := .off, bits := 0, sda := true }

/-- A rising edge of SCL: a bit, sampled (R51). -/
def Target.rising (t : Target) (sda : Bool) : Target :=
  if t.bits < 8 then { t with bits := t.bits + 1, sh := t.sh <<< 1 ||| (BitVec.ofBool sda).zeroExtend 8 }
  else { t with bits := t.bits + 1, acked := !sda }

/-- What the wires did between the last sample and this one, in the classes of R51. -/
def Target.react (t : Target) (smp : Levels) : Target :=
  if t.prev.scl && smp.scl && t.prev.sda && !smp.sda then { t with mode := .addressed, bits := 0, sda := true }
  else if t.prev.scl && smp.scl && !t.prev.sda && smp.sda then { t with mode := .off, bits := 0, sda := true }
  else if !t.prev.scl && smp.scl then t.rising smp.sda
  else if t.prev.scl && !smp.scl then t.falling
  else t

/-- The target after the question asked with drivers `drv` and the sample `smp` that came of it. -/
def Target.next (t : Target) (drv smp : Levels) : Target :=
  { t.react smp with
    nsamples := t.nsamples + 1
    nreleases := t.nreleases + (if t.released drv then 1 else 0)
    hold := t.holdNow drv - 1
    prev := smp
    prevDrv := drv.scl }

end Sys2Proof.Machine
end

