-- ==== Sys2Proof/Machine/Ops.lean ====
section
/-! DEFINITION. The named operations over memory, registers and wires: buffer memory (R35 to R37), the
response (R21), one line sample and the line primitives (R43 to R49), the fault entry (R124), the return
from it (R101), the frames (R90, R91) and reset (R28, R140). -/

namespace Sys2Proof.Machine

/-! ### Buffer memory -/

/-- The byte held at an address, `none` where nothing has been written (R37). What an unlisted address
reads as is this definition's `none`: no value. -/
def Memory.read (m : Memory) (a : Nat) : Option Byte := m.lookup a

/-- Store a byte, keeping the addresses strictly rising. -/
def Memory.write (m : Memory) (a : Nat) (v : Byte) : Memory :=
  match m with
  | [] => [(a, v)]
  | (b, w) :: rest =>
    if a < b then (a, v) :: (b, w) :: rest
    else if a = b then (a, v) :: rest
    else (b, w) :: Memory.write rest a v

/-- Strictly rising addresses, all at least `lo` and below 65536. -/
def Memory.wfFrom (lo : Nat) (m : Memory) : Bool :=
  match m with
  | [] => true
  | (a, _) :: rest => lo ≤ a && a < 65536 && Memory.wfFrom (a + 1) rest

/-- The canonical form of the buffer memory. An unlisted address reads as no value, so no listed byte
equals what an unlisted one reads as. -/
def Memory.wf (m : Memory) : Bool := Memory.wfFrom 0 m

/-- The byte a reader gets: the byte held, or a free value where none is held (R37, log 5). -/
def loadByte (a : Nat) (s : State) : State × Byte :=
  match Memory.read s.mem a with
  | some b => (s, b)
  | none => ({ s with draws := s.draws + 1 }, Config.freeByte s.draws)

/-- `MemRead(addr, 1)` of R36. -/
def memRead (addr : BufAddr) (s : State) : State × Byte := loadByte addr.toNat s

/-- `MemWrite(addr, 1, v)` of R36. -/
def memWrite (addr : BufAddr) (v : Byte) (s : State) : State :=
  { s with mem := Memory.write s.mem addr.toNat v }

/-! ### Beginning and ending a command -/

/-- A legal write to CMD is accepted: `busy` until RSP has been written (R25). -/
def accept (s : State) : State := { s with busy := true }

/-- `Respond(ok, data, ill, count)` of R21, which ends the command (R25). -/
def respond (ok : Bool) (data : Byte) (ill : Bool) (count : Int) (s : State) : State :=
  { s with rsp := rspWord ok data ill count, busy := false }

/-! ### One line sample -/

/-- The two drivers. -/
def drivers (s : State) : Levels := ⟨s.sclDrv, s.sdaDrv⟩

/-- `EnvLevels()` of R42. -/
def envLevels (s : State) : State × Levels :=
  match s.env with
  | .script (l :: rest) => ({ s with env := .script rest }, l)
  | .script [] => ({ s with draws := s.draws + 1 }, Config.envLevels s.draws s.wire (drivers s))
  | .ideal t => (s, t.answer (drivers s))

/-- The wire levels: wired-AND of the drivers and the environment (R41). -/
def wiredAnd (drv ans : Levels) : Levels := ⟨drv.scl && ans.scl, drv.sda && ans.sda⟩

/-- The environment after it has seen a sample. -/
def Env.saw (e : Env) (drv smp : Levels) : Env :=
  match e with
  | .script l => .script l
  | .ideal t => .ideal (t.next drv smp)

/-- `Emit()` of R43: one line sample, recorded. `slot` and `poll` say what it is taken for. -/
def emit (slot : Slot) (poll : Bool) (s : State) : State × Levels :=
  let (s, e) := envLevels s
  let smp := wiredAnd (drivers s) e
  ({ s with
      wire := s.wire ++ [smp]
      env := s.env.saw (drivers s) smp
      asked := s.asked ++ [⟨drivers s, e, slot, poll, s.att⟩] }, smp)

/-! ### Line primitives -/

/-- `DriveSDA(d)` of R44. -/
def driveSda (slot : Slot) (d : Bool) (s : State) : State × Levels :=
  emit slot false { s with sdaDrv := d }

/-- `PullSCL()` of R45. -/
def pullScl (slot : Slot) (s : State) : State × Levels :=
  emit slot false { s with sclDrv := false }

/-- The result of `ReleaseSCL` and of a bit cell: the SDA level seen with SCL high, or a stall. -/
inductive Wait where
  | ok (sda : Bool)
  | stall
  deriving DecidableEq, Repr

/-- The loop of `ReleaseSCL` (R46). The first argument is the number of failed polls still allowed, so
that the loop ends; with `att < lim` it is never used up before `att` reaches `lim` (log 3). -/
def pollScl (lim : Nat) (slot : Slot) : Nat → State → State × Wait
  | 0, s => (s, .stall)
  | fuel + 1, s =>
    let (s, smp) := emit slot true s
    if smp.scl then (s, .ok smp.sda)
    else
      let s := { s with att := s.att + 1 }
      if s.att = lim then (s, .stall) else pollScl lim slot fuel s

/-- `ReleaseSCL()` of R46, with the attempt limit `lim`. -/
def releaseScl (lim : Nat) (slot : Slot) (s : State) : State × Wait :=
  pollScl lim slot (lim - s.att) { s with sclDrv := true }

/-- `TxBit(b)` of R47. The level read back is not compared with `b`. -/
def txBit (lim : Nat) (slot : Slot) (b : Bool) (s : State) : State × Wait :=
  match releaseScl lim slot (driveSda slot b s).1 with
  | (s, .stall) => (s, .stall)
  | (s, .ok v) => ((pullScl slot s).1, .ok v)

/-- `RxBit()` of R48. -/
def rxBit (lim : Nat) (slot : Slot) (s : State) : State × Wait :=
  match releaseScl lim slot (driveSda slot true s).1 with
  | (s, .stall) => (s, .stall)
  | (s, .ok v) => ((pullScl slot s).1, .ok v)

/-- `AbortRelease()` of R49: give the bus up, forming a stop condition if the BTE held the clock. A stall
here is ignored. `before` goes into the ghost list of questions and nowhere else: how many failed polls of the same
primitive command came before (log 9). -/
def abortRelease (lim before : Nat) (s : State) : State :=
  let s := { s with att := 0 }
  if s.sclDrv = false then
    let s := (driveSda (.release before) false s).1
    let s := (releaseScl lim (.release before) s).1
    (driveSda (.release before) true s).1
  else if s.sdaDrv = false then (driveSda (.release before) true s).1
  else s

/-! ### The fault entry and the return from it -/

/-- `EnterError(c)` of R124. It saves the cause and nothing else; `dir`, `shreg`, `bitcnt`, PTR, LEN and
the buffer memory stay as they were. A NACK or a stall ends a primitive command that has counted failed polls in
`att`; a protocol violation is met before the command has polled (R80). -/
def enterError (lim : Nat) (c : Cause) (s : State) : State :=
  abortRelease lim (if c = .proto then 0 else s.att) { s with err := true, cause := c, st := .error }

/-- The return from ERROR (R129), RESUME's pseudocode (R101) without its `Respond`. -/
def leaveError (lim : Nat) (s : State) : State :=
  let s := abortRelease lim 0 s
  { s with
    err := false
    cause := .none
    dir := .write
    shreg := 0#8
    bitcnt := 0#4
    att := 0
    st := .idle }

/-! ### Frames -/

/-- The result of `TxByte` (R90). -/
inductive TxResult where
  | ack | nack | stall
  deriving DecidableEq, Repr

/-- The data cells of `TxByte` (R90) that are left: `k` of them, cell `8 - k` next, which sends
`shreg[k - 1]`. -/
def txBits (lim : Nat) : Nat → State → State × Bool
  | 0, s => (s, true)
  | k + 1, s =>
    match txBit lim .tx (s.shreg.getLsbD k) { s with bitcnt := BitVec.ofNat 4 (7 - k) } with
    | (s, .stall) => (s, false)
    | (s, .ok _) => txBits lim k s

/-- `TxByte(b)` of R90. -/
def txByte (lim : Nat) (b : Byte) (s : State) : State × TxResult :=
  match txBits lim 8 { s with shreg := b } with
  | (s, false) => (s, .stall)
  | (s, true) =>
    match rxBit lim .ack { s with bitcnt := 8#4 } with
    | (s, .stall) => (s, .stall)
    | (s, .ok a) => ({ s with bitcnt := 0#4 }, if a then .nack else .ack)

/-- Shift a received bit in from the right (R91). -/
def shiftIn (sh : Byte) (v : Bool) : Byte := sh <<< 1 ||| (BitVec.ofBool v).zeroExtend 8

/-- The data cells of `RxByte` (R91) that are left: `k` of them, cell `8 - k` next. -/
def rxBits (lim : Nat) : Nat → State → State × Bool
  | 0, s => (s, true)
  | k + 1, s =>
    match rxBit lim .rx { s with bitcnt := BitVec.ofNat 4 (7 - k) } with
    | (s, .stall) => (s, false)
    | (s, .ok v) => rxBits lim k { s with shreg := shiftIn s.shreg v }

/-- `RxByte(nak)` of R91: the byte received, or nothing on a stall. -/
def rxByte (lim : Nat) (nak : Bool) (s : State) : State × Option Byte :=
  match rxBits lim 8 { s with shreg := 0#8 } with
  | (s, false) => (s, none)
  | (s, true) =>
    match txBit lim .tx nak { s with bitcnt := 8#4 } with
    | (s, .stall) => (s, none)
    | (s, .ok _) => ({ s with bitcnt := 0#4 }, some s.shreg)

/-! ### Reset -/

/-- The reset values of R28 forced on everything R28 resets. The buffer memory, the host, the environment
and the count of free values are no part of it (R28, R142, log 6). -/
def resetRegs (s : State) : State :=
  { s with
    st := .idle
    err := false
    cause := .none
    dir := .write
    busy := false
    sclDrv := true
    sdaDrv := true
    ptr := 0#16
    len := 0#15
    rsp := 0#32
    shreg := 0#8
    bitcnt := 0#4
    att := 0
    wire := []
    asked := [] }

/-- Drive the reset input to `level` (R140). While it is 1, and at the moment it is released, the state
is at the reset values. -/
def setRst (level : Bool) (s : State) : State :=
  { (if s.rst || level then resetRegs s else s) with rst := level }

end Sys2Proof.Machine
end

