-- ==== Sys2Proof/Machine/Framing.lean ====
section
/-! DEFINITION. The framing commands START, STOP and RSTART (R81, R82, R83). `doX lim` is `do X` of R112:
the command's pseudocode without its `Respond`, its result the command's `ok`. -/

namespace Sys2Proof.Machine

/-- START without its `Respond` (R81, R112). -/
def doStart (lim : Nat) (s : State) : State × Bool :=
  if s.st = .error then (s, false)
  else if s.st ≠ .idle then (enterError lim .proto s, false)
  else
    let s := { s with att := 0 }
    let s := (emit .idleBus false s).1
    let s := (driveSda .framing false s).1
    let s := (pullScl .framing s).1
    ({ s with st := .start }, true)

/-- STOP without its `Respond` (R82, R112). -/
def doStop (lim : Nat) (s : State) : State × Bool :=
  if s.st = .error then (s, false)
  else if s.st ≠ .data then (enterError lim .proto s, false)
  else
    let s := { s with att := 0, st := .stop }
    let s := (driveSda .framing false s).1
    match releaseScl lim .framing s with
    | (s, .stall) => (enterError lim .stall s, false)
    | (s, .ok _) =>
      let s := (driveSda .framing true s).1
      ({ s with st := .idle, dir := .write }, true)

/-- RSTART without its `Respond` (R83, R112). -/
def doRstart (lim : Nat) (s : State) : State × Bool :=
  if s.st = .error then (s, false)
  else if s.st ≠ .data then (enterError lim .proto s, false)
  else
    let s := { s with att := 0 }
    let s := (driveSda .framing true s).1
    match releaseScl lim .framing s with
    | (s, .stall) => (enterError lim .stall s, false)
    | (s, .ok _) =>
      let s := (driveSda .framing false s).1
      let s := (pullScl .framing s).1
      ({ s with st := .rstart }, true)

/-- The response of a command that reports only success or failure (R80, R81, R82, R83, R92). -/
def respondOk (r : State × Bool) : State := respond r.2 0#8 false 0 r.1

/-- START (R81). -/
def execStart (s : State) : Host.Outcome State Fault Refusal :=
  .next (respondOk (doStart Config.attemptLimit (accept s)))

/-- STOP (R82). -/
def execStop (s : State) : Host.Outcome State Fault Refusal :=
  .next (respondOk (doStop Config.attemptLimit (accept s)))

/-- RSTART (R83). -/
def execRstart (s : State) : Host.Outcome State Fault Refusal :=
  .next (respondOk (doRstart Config.attemptLimit (accept s)))

end Sys2Proof.Machine
end

