-- ==== Sys2Proof/Machine/Transfer.lean ====
section
/-! DEFINITION. The byte transfer commands PUT and GET (R92, R93). -/

namespace Sys2Proof.Machine

/-- `transfer(b)` of R92. -/
def transfer (lim : Nat) (b : Byte) (s : State) : State × Bool :=
  match txByte lim b { s with att := 0 } with
  | (s, .stall) => (enterError lim .stall s, false)
  | (s, .nack) => (enterError lim .nack s, false)
  | (s, .ack) => ({ s with st := .data }, true)

/-- PUT without its `Respond` (R92, R112). -/
def doPut (lim : Nat) (b : Byte) (s : State) : State × Bool :=
  if s.st = .error then (s, false)
  else if s.st = .start ∨ s.st = .rstart then transfer lim b { s with st := .address, dir := dirOf b }
  else if s.st = .data ∧ s.dir = .write then transfer lim b s
  else (enterError lim .proto s, false)

/-- GET without its `Respond` (R93, R112): the byte received, or nothing where it failed. -/
def doGet (lim : Nat) (nak : Bool) (s : State) : State × Option Byte :=
  if s.st = .error then (s, none)
  else if s.st = .data ∧ s.dir = .read then
    match rxByte lim nak { s with att := 0 } with
    | (s, none) => (enterError lim .stall s, none)
    | (s, some b) => (s, some b)
  else (enterError lim .proto s, none)

/-- The response of GET (R93): the byte received, or failure with `data` = 0. -/
def respondByte (r : State × Option Byte) : State :=
  match r with
  | (s, some b) => respond true b false 0 s
  | (s, none) => respond false 0#8 false 0 s

/-- PUT (R92). -/
def execPut (b : Byte) (s : State) : Host.Outcome State Fault Refusal :=
  .next (respondOk (doPut Config.attemptLimit b (accept s)))

/-- GET (R93). -/
def execGet (nak : Bool) (s : State) : Host.Outcome State Fault Refusal :=
  .next (respondByte (doGet Config.attemptLimit nak (accept s)))

end Sys2Proof.Machine
end

