-- ==== Sys2Proof/Machine/Block.lean ====
section
/-! DEFINITION. The block transfer commands WRITEB and READB (R110, R111), compositions of the primitive
commands (R112). -/

namespace Sys2Proof.Machine

/-- How the loop of a block transfer ended: the state, the count `n`, the last byte received (0 if none,
and always 0 in a write), and whether every byte was transferred. -/
structure LoopResult where
  s : State
  n : Nat
  last : Byte
  done : Bool
  deriving DecidableEq, Repr

/-- The while loop of WRITEB (R110) with `k` bytes left and `n` bytes sent: byte `n` is read just before
it is transmitted (R56). -/
def writeLoop (lim : Nat) : Nat → Nat → State → LoopResult
  | 0, n, s => ⟨s, n, 0#8, true⟩
  | k + 1, n, s =>
    let (s, b) := memRead (bufAddr s n) s
    match doPut lim b s with
    | (s, true) => writeLoop lim k (n + 1) s
    | (s, false) => ⟨s, n, 0#8, false⟩

/-- The while loop of READB (R111) with `k` bytes left, `n` bytes received and `last` the last of them:
every byte but the last is acknowledged, byte `n` is stored just after it is received (R56). -/
def readLoop (lim : Nat) : Nat → Nat → Byte → State → LoopResult
  | 0, n, last, s => ⟨s, n, last, true⟩
  | k + 1, n, last, s =>
    match doGet lim (k == 0) s with
    | (s, some b) => readLoop lim k (n + 1) b (memWrite (bufAddr s n) b s)
    | (s, none) => ⟨s, n, last, false⟩

/-- The end of a block transfer (R110, R111): a short count after a failure, else STOP and the whole
count. DESIGN CHOICE (log 15): where that STOP stalls, READB's `data` is the last byte received, as the pseudocode of R111
and the table of R21 have it; R111's corner case (d) says 0 on failure. -/
def finish (lim : Nat) (r : LoopResult) : State :=
  if r.done then
    let (s, ok) := doStop lim r.s
    respond ok r.last false r.n s
  else respond false 0#8 false r.n r.s

/-- The common frame of WRITEB and READB (R110, R111): refused in ERROR, a violation outside IDLE, else
START, the address byte `b` and, if it was acknowledged, the data phase `loop`. -/
def blockTransfer (lim : Nat) (b : Byte) (loop : State → LoopResult) (s : State) : State :=
  if s.st = .error then respond false 0#8 false Config.errIndicator s
  else if s.st ≠ .idle then respond false 0#8 false Config.errIndicator (enterError lim .proto s)
  else
    let s := (doStart lim s).1
    match doPut lim b s with
    | (s, false) => respond false 0#8 false Config.errIndicator s
    | (s, true) => finish lim (loop s)

/-- WRITEB with the attempt limit `lim` (R110). -/
def writeBlock (lim : Nat) (a : DevAddr) (s : State) : State :=
  blockTransfer lim (addrByte a .write) (fun s => writeLoop lim s.len.toNat 0 s) s

/-- READB with the attempt limit `lim` (R111). -/
def readBlock (lim : Nat) (a : DevAddr) (s : State) : State :=
  blockTransfer lim (addrByte a .read) (fun s => readLoop lim s.len.toNat 0 0#8 s) s

/-- WRITEB (R110). -/
def execWriteb (a : DevAddr) (s : State) : Host.Outcome State Fault Refusal :=
  .next (writeBlock Config.attemptLimit a (accept s))

/-- READB (R111). -/
def execReadb (a : DevAddr) (s : State) : Host.Outcome State Fault Refusal :=
  .next (readBlock Config.attemptLimit a (accept s))

end Sys2Proof.Machine
end

