-- ==== Sys2Proof/Machine/ErrorControl.lean ====
section
/-! DEFINITION. The error control commands CHKERR and RESUME (R100, R101). -/

namespace Sys2Proof.Machine

/-- CHKERR (R100): RSP and nothing else; no line sample, legal in every state. -/
def execChkerr (s : State) : Host.Outcome State Fault Refusal :=
  .next (respond true (errByte s.err) false 0 (accept s))

/-- RESUME (R101): in every state, with or without a fault pending (R101 case b, log 12). -/
def execResume (s : State) : Host.Outcome State Fault Refusal :=
  .next (respond true 0#8 false 0 (leaveError Config.attemptLimit (accept s)))

end Sys2Proof.Machine
end

