-- ==== Sys2Proof/Machine/Dispatch.lean ====
section
/-! DEFINITION. One arm a command: each is a direct call of its meaning. -/

namespace Sys2Proof.Machine

def exec (i : Instr) (s : State) : Host.Outcome State Fault Refusal :=
  match i with
  | .start => Sys2Proof.Machine.execStart s
  | .stop => Sys2Proof.Machine.execStop s
  | .rstart => Sys2Proof.Machine.execRstart s
  | .put b => Sys2Proof.Machine.execPut b s
  | .get nak => Sys2Proof.Machine.execGet nak s
  | .chkerr => Sys2Proof.Machine.execChkerr s
  | .resume => Sys2Proof.Machine.execResume s
  | .writeb a => Sys2Proof.Machine.execWriteb a s
  | .readb a => Sys2Proof.Machine.execReadb a s

end Sys2Proof.Machine
end

