-- ==== Sys2Proof/Machine/Observer.lean ====
section
/-! DEFINITION. The observer of R51 and R52: start, stop and bit detection and byte framing on a wire
trace. The engine does not contain it. -/

namespace Sys2Proof.Machine

/-- A symbol of `Observe` (R51). -/
inductive Symbol where
  /-- start condition -/
  | s
  /-- stop condition -/
  | p
  /-- a bit: `B0` or `B1` -/
  | bit (v : Bool)
  deriving DecidableEq, Repr

/-- An element of a framed trace (R52). -/
inductive Item where
  | s
  | p
  | byte (b : Byte) (ack : Bool)
  deriving DecidableEq, Repr

/-- The symbol, if any, that two consecutive samples show (R51). -/
def symbolOf (prev s : Levels) : List Symbol :=
  if prev.scl && s.scl && prev.sda && !s.sda then [.s]
  else if prev.scl && s.scl && !prev.sda && s.sda then [.p]
  else if !prev.scl && s.scl then [.bit s.sda]
  else []

/-- `Observe` from a given previous sample. -/
def observeFrom (prev : Levels) : List Levels → List Symbol
  | [] => []
  | s :: rest => symbolOf prev s ++ observeFrom s rest

/-- `Observe(trace)` of R51: the bus was idle before the first sample. -/
def observe (trace : List Levels) : List Symbol := observeFrom ⟨true, true⟩ trace

/-- The byte of the first eight bits collected, most significant first (R39, R52). -/
def byteOfBits (bits : List Bool) : Byte := (bits.take 8).foldl shiftIn 0#8

/-- `Frame` with the bits `acc` of the frame begun so far. -/
def frameFrom (acc : List Bool) : List Symbol → List Item
  | [] => []
  | .s :: rest => .s :: frameFrom [] rest
  | .p :: rest => .p :: frameFrom [] rest
  | .bit v :: rest =>
    let acc := acc ++ [v]
    if acc.length = 9 then .byte (byteOfBits acc) (!v) :: frameFrom [] rest
    else frameFrom acc rest

/-- `Frame(symbols)` of R52. -/
def frame (symbols : List Symbol) : List Item := frameFrom [] symbols

/-- The framed trace of a state: what appeared on the bus since reset. -/
def framed (s : State) : List Item := frame (observe s.wire)

end Sys2Proof.Machine
end

