-- ==== Sys2Proof/Machine/HostPort.lean ====
section
/-! DEFINITION. The host's side (R31 to R35, R77, R78, R140): the five registers, a write to CMD, the
buffer port, the reset input, and the written host programs. -/

namespace Sys2Proof.Machine

/-- The register map of R31. -/
def offCmd : Nat := 0x00
def offStatus : Nat := 0x04
def offPtr : Nat := 0x08
def offLen : Nat := 0x0C
def offRsp : Nat := 0x10

/-- The value of the register at an offset (R32). -/
def readReg (off : Nat) (s : State) : Word :=
  if off = offStatus then statusWord s
  else if off = offPtr then s.ptr.zeroExtend 32
  else if off = offLen then s.len.zeroExtend 32
  else if off = offRsp then s.rsp
  else 0#32

/-- `HostRead(off)` of R32. While the reset input is 1 a read returns the reset value (R140). -/
def hostRead (off : Nat) (s : State) : Word := readReg off (if s.rst then resetRegs s else s)

/-- An illegal word is refused (R65, R66): RSP = 0x00000200 and no other change. -/
def refuseIllegal (s : State) : State := { s with rsp := rspWord false 0#8 true 0 }

/-- A write of `w` to CMD (R33, R65). -/
def writeCmd (w : Word) (s : State) : Host.Outcome State Fault Refusal :=
  match decode w with
  | .ok i => exec i s
  | .error _ => .next (refuseIllegal s)

/-- `HostWrite(off, v)` of R32. While the reset input is 1 it is ignored (R140); while a command runs it
is dropped (R34). -/
def hostWrite (off : Nat) (v : Word) (s : State) : Host.Outcome State Fault Refusal :=
  if s.rst || s.busy then .next s
  else if off = offCmd then writeCmd v s
  else if off = offPtr then .next { s with ptr := v.extractLsb' 0 16 }
  else if off = offLen then .next { s with len := v.extractLsb' 0 15 }
  else .next s

/-- A host register access is a whole 32-bit word at a multiple of 4 (R32). -/
def accessOk (off : Nat) (w : Width) : Bool := w == .word && off % 4 == 0

/-- The host takes a value it has read. -/
def note (v : Word) (s : State) : State := { s with reads := s.reads ++ [v] }

/-- `MEM[a] <- v` of R77, through the host's own memory port (R35). R30 gives the host the buffer while the engine is
not busy and does not say what an access does otherwise (R146: the host's duty). DESIGN CHOICE (log 14): the port does
not look at `busy`, nor at the reset input (log 6), and the store is done. -/
def hostStore (a : Nat) (v : Byte) (s : State) : Host.Outcome State Fault Refusal :=
  if a < 65536 then .next { s with mem := Memory.write s.mem a v }
  else .fault (.noSuchBufferAddress a)

/-- `MEM[a]` of R77. A byte that holds no value is a free value (R37, log 5). DESIGN CHOICE (log 14): as for
`hostStore`, the load is done whatever `busy` is. -/
def hostLoad (a : Nat) (s : State) : Host.Outcome State Fault Refusal :=
  if a < 65536 then
    let (s, b) := loadByte a s
    .next (note (b.zeroExtend 32) s)
  else .fault (.noSuchBufferAddress a)

/-- One host operation. -/
def hostStep (op : HostOp) (s : State) : Host.Outcome State Fault Refusal :=
  match op with
  | .write off width v => if accessOk off width then hostWrite off v s else .refused (.badHostAccess off width)
  | .read off width => if accessOk off width then .next (note (hostRead off s) s) else .refused (.badHostAccess off width)
  | .memStore a v => hostStore a v s
  | .memLoad a => hostLoad a s
  | .setRst level => .next (setRst level s)
  | .resumeIfErr => if (rspData (hostRead offRsp s)).getLsbD 0 then hostWrite offCmd (encode .resume) s else .next s

/-! ### Written host programs (R77, R78) -/

/-- A command line of R71. -/
def cmd (i : Instr) : HostOp := .write offCmd .word (encode i)

/-- `CMDW w`. -/
def cmdw (w : Word) : HostOp := .write offCmd .word w

/-- `SETPTR v`. -/
def setPtr (v : Word) : HostOp := .write offPtr .word v

/-- `SETLEN v`. -/
def setLen (v : Word) : HostOp := .write offLen .word v

/-- `RD STATUS`. -/
def rdStatus : HostOp := .read offStatus .word

/-- `RD RSP`. -/
def rdRsp : HostOp := .read offRsp .word

/-- `RD PTR`. -/
def rdPtr : HostOp := .read offPtr .word

/-- `RD LEN`. -/
def rdLen : HostOp := .read offLen .word

/-- `PUTADDR a, W` and `PUTADDR a, R` of R78. -/
def putAddr (a : DevAddr) (d : Dir) : HostOp := cmd (.put (addrByte a d))

/-- `WRITE a, p, n` of R78. -/
def writeProgram (a : DevAddr) (p n : Word) : List HostOp := [setPtr p, setLen n, cmd (.writeb a)]

/-- `READ a, p, n` of R78. -/
def readProgram (a : DevAddr) (p n : Word) : List HostOp := [setPtr p, setLen n, cmd (.readb a)]

/-- `RECOVER` of R78: CHKERR, then RESUME if `RSP.data[0]` = 1. -/
def recover : List HostOp := [cmd .chkerr, .resumeIfErr]

/-- The state in which the host's next operation is to write `w` to CMD and the engine takes it: reset
released, no command running. -/
def placeCommand (w : Word) (s : State) : State :=
  { s with host := cmdw w :: s.host, rst := false, busy := false }

end Sys2Proof.Machine
end

