-- ==== Sys2Proof/Machine/Step.lean ====
section
/-! DEFINITION. One step: the host's next operation. -/

namespace Sys2Proof.Machine

/-- One step of the machine: the first operation of the host's list is taken from it and done (R10, R55).
When the list is exhausted the run has ended and nothing changes (log 2). -/
def step (s : State) : Host.Outcome State Fault Refusal :=
  match s.host with
  | [] => .next s
  | op :: rest => hostStep op { s with host := rest }

/-- The instruction whose bits are `w` placed where `step` takes its next instruction from: the host's
next operation writes that word to CMD (R13, R23, log 2). -/
def State.withFetchWord (s : State) (nbits w : Nat) : State :=
  placeCommand (BitVec.ofNat 32 (w % 2 ^ nbits)) s

end Sys2Proof.Machine
end

