-- ==== Sys2Proof/Safety.lean ====
section
/-! DEFINITION. The terms claims are stated in: the invariants between commands (R27, R24, R43, R50), the
environment's duties (R53), what must be set up before a block write (R143), and what a step leaves alone. -/

namespace Sys2Proof.Safety

open Sys2Proof Sys2Proof.Machine

/-! ### Invariants between commands -/

/-- R27: the five clauses, in their order. -/
structure Quiet (s : State) : Prop where
  errIffError : s.err = true ↔ s.st = .error
  errorIffCause : s.st = .error ↔ s.cause ≠ .none
  stable : s.st.stable = true
  released : s.st = .idle ∨ s.st = .error → s.sclDrv = true ∧ s.sdaDrv = true
  owned : s.st = .start ∨ s.st = .data ∨ s.st = .rstart → s.sclDrv = false
  idleDir : s.st = .idle → s.dir = .write
  notBusy : s.busy = false

/-- R24: outside ERROR `bitcnt` is 0 between commands; `att` never exceeds the limit (R46, R133). -/
structure Counters (s : State) : Prop where
  bitcnt : s.st ≠ .error → s.bitcnt = 0#4
  att : s.att ≤ Config.attemptLimit

/-- The sample a question led to: wired-AND of drivers and answer (R41, R43). -/
def sampleOf (a : Ask) : Levels := wiredAnd a.drv a.ans

/-- R43: the wire trace is exactly the samples of the questions asked, in order. -/
def TraceRecorded (s : State) : Prop := s.wire = s.asked.map sampleOf

/-- The sample is taken where a start or stop condition is meant (R50: START, RSTART, STOP, `AbortRelease`). -/
def conditionMeant : Slot → Bool
  | .framing | .release _ => true
  | .idleBus | .tx | .ack | .rx => false

/-- R50 for two consecutive driver values: at most one driver differs, and SDA's only while SCL is
released where a start or stop condition is meant (`slot` is what the second is taken for). -/
def driversMay (d e : Levels) (slot : Slot) : Prop :=
  (d.scl = e.scl ∨ d.sda = e.sda) ∧ (d.sda ≠ e.sda → d.scl = true → conditionMeant slot = true)

/-- R50 along a list of questions, the drivers having been `d` before the first. -/
def DriversOrderly (d : Levels) : List Ask → Prop
  | [] => True
  | a :: rest => driversMay d a.drv a.slot ∧ DriversOrderly a.drv rest

/-- The drivers at the last question, `d` if there was none. -/
def lastDrivers (d : Levels) : List Ask → Levels
  | [] => d
  | a :: rest => lastDrivers a.drv rest

/-- R50 since reset: the drivers changed one at a time from the released bus, and the drivers now are
those of the last sample. -/
structure Orderly (s : State) : Prop where
  changes : DriversOrderly ⟨true, true⟩ s.asked
  last : lastDrivers ⟨true, true⟩ s.asked = drivers s

/-- R28: every row of the table of reset values but the buffer memory's, with STATUS as read. -/
structure ResetValues (s : State) : Prop where
  st : s.st = .idle
  err : s.err = false
  cause : s.cause = .none
  dir : s.dir = .write
  busy : s.busy = false
  sclDrv : s.sclDrv = true
  sdaDrv : s.sdaDrv = true
  ptr : s.ptr = 0x0000#16
  len : s.len = 0#15
  rsp : s.rsp = 0x00000000#32
  shreg : s.shreg = 0#8
  bitcnt : s.bitcnt = 0#4
  att : s.att = 0
  wire : s.wire = []
  status : statusWord s = 0x00000300#32

/-- While the reset input is 1 the state is held at the reset values (R140). -/
def HeldInReset (s : State) : Prop := s.rst = true → s = resetRegs s

/-! ### The environment's duties (R53), over a list of questions -/

/-- E1: the bus is free before a transaction. -/
def DutyE1 (l : List Ask) : Prop := ∀ a ∈ l, a.slot = .idleBus → a.ans = ⟨true, true⟩

/-- E2: `e_sda` changes only between two samples that both have SCL = 0. -/
def DutyE2 (l : List Ask) : Prop :=
  ∀ p ∈ l.zip l.tail, p.1.ans.sda ≠ p.2.ans.sda → (sampleOf p.1).scl = false ∧ (sampleOf p.2).scl = false

/-- E3: SDA is pulled only in cells where a target is entitled to drive. -/
def DutyE3 (l : List Ask) : Prop := ∀ a ∈ l, a.ans.sda = false → a.slot = .ack ∨ a.slot = .rx

/-- The failed polls of the same primitive command before this question, its fault entry included: `att`, and in
`AbortRelease` also those counted before it cleared `att` (log 9). -/
def failedPolls (a : Ask) : Nat :=
  match a.slot with
  | .release before => before + a.att
  | _ => a.att

/-- E4: fewer than `lim` failed polls in one primitive command, or `do X` step of a composite, its fault entry
included (R53, R112, log 9). -/
def DutyE4 (lim : Nat) (l : List Ask) : Prop :=
  ∀ a ∈ l, a.poll = true → a.ans.scl = false → failedPolls a + 1 < lim

/-- A well-behaved environment (R53). -/
structure WellBehaved (lim : Nat) (l : List Ask) : Prop where
  e1 : DutyE1 l
  e2 : DutyE2 l
  e3 : DutyE3 l
  e4 : DutyE4 lim l

/-- The questions of a run of clock polls (R46): the drivers stay, `att` counts up from poll to poll. -/
def pollAsks (d : Levels) (slot : Slot) (att : Nat) : List Levels → List Ask
  | [] => []
  | e :: rest => ⟨d, e, slot, true, att⟩ :: pollAsks d slot (att + 1) rest

/-- The questions asked between two states. -/
def newAsks (s t : State) : List Ask := t.asked.drop s.asked.length

/-- The samples taken between two states. -/
def newSamples (s t : State) : List Levels := t.wire.drop s.wire.length

/-! ### What must be set up, and what is left alone -/

/-- R143 item 4: every byte a WRITEB will read holds a value. -/
def BufferReady (s : State) : Prop :=
  ∀ n < s.len.toNat, Memory.read s.mem (bufAddr s n).toNat ≠ none

/-- Every byte of the buffer memory reads as before. -/
def SameMemory (s t : State) : Prop := ∀ a, Memory.read t.mem a = Memory.read s.mem a

/-- The host's registers PTR and LEN, and what belongs to the host, unchanged: no command writes them
(R19, R20, R12). -/
structure HostSideKept (s t : State) : Prop where
  ptr : t.ptr = s.ptr
  len : t.len = s.len
  rst : t.rst = s.rst
  host : t.host = s.host
  reads : t.reads = s.reads

/-- The wire trace only grows (R26, R43). -/
def TraceExtends (s t : State) : Prop := ∃ new, t.wire = s.wire ++ new

/-! ### The rules over all commands -/

/-- The bus commands (R80): all but CHKERR and RESUME. -/
def busCommand : Instr → Bool
  | .chkerr | .resume => false
  | .start | .stop | .rstart | .put _ | .get _ | .writeb _ | .readb _ => true

/-- The table of R122: the states in which a command is allowed. -/
def allowed (i : Instr) (st : St) (dir : Dir) : Bool :=
  match i with
  | .start | .writeb _ | .readb _ => st == .idle
  | .put _ => st == .start || st == .rstart || (st == .data && dir == .write)
  | .get _ => st == .data && dir == .read
  | .stop | .rstart => st == .data
  | .chkerr | .resume => true

/-- What a command that was refused or violated the protocol responds (R80, R110, R111, R125). -/
def failCount : Instr → Int
  | .writeb _ | .readb _ => Config.errIndicator
  | _ => 0

/-- Where a command may lead when it is allowed and the state is not ERROR (R84). -/
def destinations : Instr → List St
  | .start => [.start]
  | .stop | .writeb _ | .readb _ => [.idle, .error]
  | .rstart => [.rstart, .error]
  | .put _ | .get _ => [.data, .error]
  | .chkerr | .resume => []

/-- The state graph of R84: the states `st` may have after a command. -/
def successors (i : Instr) (st : St) (dir : Dir) : List St :=
  match i with
  | .chkerr => [st]
  | .resume => [.idle]
  | i => if st = .error || !allowed i st dir then [.error] else destinations i

/-! ### The answers of an environment, cell by cell -/

/-- The environment's answers in one bit cell (R47, R48): to the set-up sample, to the failed polls, to the
poll that sees SCL high, and to the sample after it. A stop condition (R82, R49) has the same shape. -/
structure Cell where
  setup : Levels
  lows : List Levels
  high : Levels
  low : Levels

/-- The answers in order. -/
def Cell.answers (c : Cell) : List Levels := c.setup :: (c.lows ++ [c.high, c.low])

/-- The failed polls found SCL low, and then one found it high (R46). -/
def Cell.Good (c : Cell) : Prop := (∀ e ∈ c.lows, e.scl = false) ∧ c.high.scl = true

/-- The failed polls of several cells together. -/
def polls (cells : List Cell) : Nat := (cells.map (·.lows.length)).sum

/-- Cells of one primitive command in which the clock always rises in time (R46, R53 E4). -/
def GoodCells (lim : Nat) (cells : List Cell) : Prop := (∀ c ∈ cells, c.Good) ∧ polls cells < lim

/-- All the answers of several cells. -/
def answersOf (cells : List Cell) : List Levels := cells.flatMap Cell.answers

/-- The samples of a bit cell in which the BTE lets SDA have the level `b` (R41, R47, R48). -/
def cellSamples (b : Bool) (c : Cell) : List Levels :=
  ⟨false, b && c.setup.sda⟩ :: (c.lows.map (fun e => ⟨false, b && e.sda⟩) ++
    [⟨true, b && c.high.sda⟩, ⟨false, b && c.low.sda⟩])

/-- The samples of bit cells in which the BTE lets SDA have the levels `bits`. -/
def frameSamples (bits : List Bool) (cells : List Cell) : List Levels :=
  (bits.zip cells).flatMap (fun p => cellSamples p.1 p.2)

/-- The samples of a stop condition formed while the BTE holds the clock (R82, R49). -/
def stopSamples (c : Cell) : List Levels :=
  ⟨false, false⟩ :: (c.lows.map (fun _ => ⟨false, false⟩) ++ [⟨true, false⟩, ⟨c.low.scl, c.low.sda⟩])

/-- The bits of a byte, most significant first (R39). -/
def bitsOf (b : Byte) : List Bool :=
  [b.getLsbD 7, b.getLsbD 6, b.getLsbD 5, b.getLsbD 4, b.getLsbD 3, b.getLsbD 2, b.getLsbD 1, b.getLsbD 0]

/-- The byte whose bits, most significant first, the environment shows at the high polls of eight cells in
which the BTE has released SDA (R48, R91). -/
def byteShown (cells : List Cell) : Byte := (cells.map (·.high.sda)).foldl shiftIn 0#8

/-- The cells of one frame (R68): eight data cells and the ninth. -/
structure FrameCells where
  data : List Cell
  ninth : Cell

/-- All nine cells. -/
def FrameCells.cells (f : FrameCells) : List Cell := f.data ++ [f.ninth]

/-- Eight data cells, and the clock rises in time in all nine. -/
def FrameCells.Good (lim : Nat) (f : FrameCells) : Prop := f.data.length = 8 ∧ GoodCells lim f.cells

/-- The answers of the frame's nine cells. -/
def FrameCells.answers (f : FrameCells) : List Levels := answersOf f.cells

/-- The ninth cell of a sent byte shows acknowledge (R48, R90). -/
def FrameCells.acked (f : FrameCells) : Bool := !f.ninth.high.sda

/-- The samples of a frame in which the BTE sends `b` (R90): in the ninth cell it releases SDA. -/
def FrameCells.sent (f : FrameCells) (b : Byte) : List Levels := frameSamples (bitsOf b ++ [true]) f.cells

/-- The samples of a frame in which the BTE receives and answers with `nak` (R91). -/
def FrameCells.received (f : FrameCells) (nak : Bool) : List Levels :=
  frameSamples (List.replicate 8 true ++ [nak]) f.cells

/-- The samples of the frames of a READB: every byte but the last is acknowledged (R111). -/
def receivedAll : List FrameCells → List Levels
  | [] => []
  | [f] => f.received true
  | f :: g :: rest => f.received false ++ receivedAll (g :: rest)

/-- The framed trace of the data bytes of a READB: the last of them not acknowledged (R69, R111). -/
def readItems : List Byte → List Item
  | [] => []
  | [b] => [.byte b false]
  | b :: c :: rest => .byte b true :: readItems (c :: rest)

/-- The samples of a START given the environment's first two answers, the bus released before (R81). -/
def startSamples (e0 e1 : Levels) : List Levels := [e0, ⟨e1.scl, false⟩, ⟨false, false⟩]

/-- In the cells of a frame the controller sends, the environment leaves SDA released at the polls that see
SCL high (R53 E3). -/
def FrameCells.Undisturbed (f : FrameCells) : Prop := ∀ c ∈ f.data, c.high.sda = true

/-- The ideal target of R54 at rest on a free bus, without any of the three variations. -/
structure TargetAtRest (t : Target) : Prop where
  nacks : t.nacks = []
  stretch : t.stretch = []
  stuck : t.stuckFrom = none
  mode : t.mode = .off
  hold : t.hold = 0
  prev : t.prev = ⟨true, true⟩
  prevDrv : t.prevDrv = true
  sda : t.sda = true

/-- The most line samples a command can take (R155): its base count, `lim` for each primitive in it, and
`lim` more for a fault entry; `len` is LEN. -/
def sampleBound (lim len : Nat) : Instr → Nat
  | .start => 3 + lim
  | .stop => 3 + 2 * lim
  | .rstart => 4 + 2 * lim
  | .put _ => 30 + 2 * lim
  | .get _ => 27 + 2 * lim
  | .chkerr => 0
  | .resume => 3 + lim
  | .writeb _ => 3 + (27 + lim) * (1 + len) + (3 + lim) + (3 + lim)
  | .readb _ => 3 + (27 + lim) * (1 + len) + (3 + lim) + (3 + lim)

end Sys2Proof.Safety
end

