-- ==== Sys2Proof/Certificates/Slice0/Obligations.lean ====
section
/-! DEFINITION. The statements about the model, each from rules of spec/ (OBLIGATIONS.json names them). -/

open Sys2Proof Sys2Proof.Machine Sys2Proof.Safety

/-! ### Encoding (R60 to R66) -/

/-- Decoding the word of any command gives the command back, with every operand (R61 to R63, R65). -/
def Obligations.DecodeOfEncode : Prop := ∀ i : Instr, decode (encode i) = .ok i

/-- Every legal word is the word of the command it decodes to: no bit is dropped (R61 to R65). -/
def Obligations.EncodeOfDecode : Prop := ∀ (w : Word) (i : Instr), decode w = .ok i → encode i = w

/-- R65: the legal words are exactly those of the nine sets, and a word lies in the set of its own command
and in no other (the sets are disjoint). -/
def Obligations.LegalWordsAreTheNineSets : Prop :=
  ∀ w : Word, (legalWord w = true ↔ ∃ i, decode w = .ok i) ∧
    ∀ i, decode w = .ok i → ∀ r ∈ encTable, (r.covers w = true ↔ r.mnemonic = i.mnemonic)

/-- R63, R66: a word is legal exactly if its fields pass the four checks. -/
def Obligations.LegalIffFieldsWellFormed : Prop :=
  ∀ w : Word, (∃ i, decode w = .ok i) ↔ (RawCmd.ofWord w).wellFormed = true

/-- A word of each command, and one illegal word of each kind, written out from R61 to R63 (95 V0.1). -/
def Obligations.WordsDecodeAsListed : Prop :=
  decode 0x00001000#32 = .ok .start ∧ decode 0x00002000#32 = .ok .stop ∧ decode 0x00003000#32 = .ok .rstart ∧
  decode 0x00004078#32 = .ok (.put 0x78#8) ∧ decode 0x00005001#32 = .ok (.get true) ∧
  decode 0x00006000#32 = .ok .chkerr ∧ decode 0x00007000#32 = .ok .resume ∧
  decode 0x0000807F#32 = .ok (.writeb 0x7F#7) ∧ decode 0x0000903C#32 = .ok (.readb 0x3C#7) ∧
  decode 0x00000000#32 = .error .reservedOp ∧ decode 0x0000F03C#32 = .error .reservedOp ∧
  decode 0x00001001#32 = .error .operandNotZero ∧ decode 0x00005002#32 = .error .nakOutOfRange ∧
  decode 0x00008080#32 = .error .addressOutOfRange ∧ decode 0x00004878#32 = .error .midBits ∧
  decode 0x80004078#32 = .error .highBits

/-- R66: an illegal word makes RSP 0x00000200 and changes nothing else, in every state. -/
def Obligations.IllegalWordRefused : Prop :=
  ∀ (s : State) (w : Word) (rest : List HostOp), s.host = cmdw w :: rest → s.rst = false → s.busy = false →
    (RawCmd.ofWord w).wellFormed = false →
    step s = .next { s with host := rest, rsp := 0x00000200#32 }

/-! ### The step and the host's side (R31 to R35, R140) -/

/-- A step in which the host writes a legal word to CMD is the execution of its command (R33, R65). -/
def Obligations.StepRunsDecodedCommand : Prop :=
  ∀ (s : State) (w : Word) (i : Instr) (rest : List HostOp), s.host = cmdw w :: rest → s.rst = false →
    s.busy = false → decode w = .ok i → step s = exec i { s with host := rest }

/-- The word placed by `withFetchWord` is what the next step runs (the model's own, log 2). -/
def Obligations.FetchWordRunsFirst : Prop :=
  ∀ (s : State) (nbits w : Nat) (i : Instr), decodeTableWord nbits w = some i →
    step (s.withFetchWord nbits w) = exec i { s with rst := false, busy := false }

/-- `HostRead(off)` of R32: the value each offset returns, with no other effect. -/
def Obligations.HostReadsRegisters : Prop :=
  ∀ (s : State) (off : Nat) (rest : List HostOp), s.host = .read off .word :: rest → off % 4 = 0 → s.rst = false →
    step s = .next { s with
      host := rest
      reads := s.reads ++ [
        if off = 0x04 then statusWord s
        else if off = 0x08 then s.ptr.zeroExtend 32
        else if off = 0x0C then s.len.zeroExtend 32
        else if off = 0x10 then s.rsp
        else 0#32] }

/-- R22: the fields of STATUS, which a read of offset 0x04 returns with no side effect; a write there is
ignored. -/
def Obligations.StatusLayout : Prop :=
  ∀ s : State,
    ((statusWord s).extractLsb' 0 3 = s.st.code ∧ (statusWord s).getLsbD 3 = s.err ∧
      (statusWord s).extractLsb' 4 1 = s.dir.bit ∧ (statusWord s).getLsbD 5 = s.busy ∧
      (statusWord s).extractLsb' 6 2 = s.cause.code ∧ (statusWord s).getLsbD 8 = s.sclDrv ∧
      (statusWord s).getLsbD 9 = s.sdaDrv ∧ (statusWord s).extractLsb' 10 22 = 0#22) ∧
    (∀ rest : List HostOp, s.host = .read 0x04 .word :: rest → s.rst = false →
      step s = .next { s with host := rest, reads := s.reads ++ [statusWord s] }) ∧
    (∀ (v : Word) (rest : List HostOp), s.host = .write 0x04 .word v :: rest → step s = .next { s with host := rest })

/-- R21: the fields of RSP; a count that fits in 16 signed bits is read back as it is. -/
def Obligations.ResponseLayout : Prop :=
  ∀ (ok : Bool) (data : Byte) (ill : Bool) (count : Int), -32768 ≤ count → count < 32768 →
    rspData (rspWord ok data ill count) = data ∧ rspOk (rspWord ok data ill count) = ok ∧
    rspIll (rspWord ok data ill count) = ill ∧ (rspWord ok data ill count).extractLsb' 10 6 = 0#6 ∧
    rspCount (rspWord ok data ill count) = count

/-- `HostWrite(off, v)` of R32 at every offset but CMD's: PTR takes `v[15:0]`, LEN takes `v[14:0]`, a write
anywhere else does nothing (R19, R20, R22). -/
def Obligations.HostWritesOperands : Prop :=
  ∀ (s : State) (off : Nat) (v : Word) (rest : List HostOp), s.host = .write off .word v :: rest → off % 4 = 0 →
    off ≠ 0x00 → s.rst = false → s.busy = false →
    step s = .next (
      if off = 0x08 then { s with host := rest, ptr := v.extractLsb' 0 16 }
      else if off = 0x0C then { s with host := rest, len := v.extractLsb' 0 15 }
      else { s with host := rest })

/-- R32: a register access that is no aligned 32-bit word is refused. -/
def Obligations.HostAccessRefused : Prop :=
  ∀ (s : State) (off : Nat) (width : Width) (v : Word) (rest : List HostOp), width ≠ .word ∨ off % 4 ≠ 0 →
    (s.host = .write off width v :: rest → step s = .refused (.badHostAccess off width)) ∧
    (s.host = .read off width :: rest → step s = .refused (.badHostAccess off width))

/-- The host's buffer port (R35, R77): a store writes its one byte, a load of a byte that holds a value returns it (a load
of a byte that holds none is not spoken of). This holds whatever `busy` and the reset input are, which is the model's
choice: R30 gives the host the buffer while the engine is not busy (log 14), and the port stays open in reset (log 6).
Above 0xFFFF there is no buffer byte (R30); the stop there is the model's (log 7). -/
def Obligations.HostBufferPort : Prop :=
  ∀ (s : State) (a : Nat) (v : Byte) (rest : List HostOp),
    (a < 65536 → s.host = .memStore a v :: rest → ∃ t, step s = .next t ∧
      t = { s with host := rest, mem := t.mem } ∧ Memory.read t.mem a = some v ∧
      ∀ b, b ≠ a → Memory.read t.mem b = Memory.read s.mem b) ∧
    (a < 65536 → s.host = .memLoad a :: rest → Memory.read s.mem a = some v →
      step s = .next { s with host := rest, reads := s.reads ++ [v.zeroExtend 32] }) ∧
    (65536 ≤ a → s.host = .memStore a v :: rest ∨ s.host = .memLoad a :: rest →
      step s = .fault (.noSuchBufferAddress a))

/-- R28: the reset values while the reset input is asserted, when it is released, and right after reset; the buffer
memory is not changed by reset, and before the first write no byte of it holds a value. -/
def Obligations.ResetState : Prop :=
  ResetValues State.reset ∧ (∀ a, Memory.read State.reset.mem a = none) ∧
  (∀ s : State, ResetValues (setRst true s) ∧ (setRst true s).mem = s.mem) ∧
  (∀ s : State, s.rst = true → ResetValues (setRst false s) ∧ (setRst false s).mem = s.mem)

/-- R140: raising `rst` forces the reset values; while it is 1 register writes are ignored and reads return the
reset values; releasing it leaves the reset state; power-up is a reset. -/
def Obligations.ResetInputHolds : Prop :=
  (∀ (s : State) (rest : List HostOp), s.host = .setRst true :: rest →
    ∃ t, step s = .next t ∧ t.rst = true ∧ ResetValues t ∧ t.mem = s.mem) ∧
  (∀ (s : State) (off : Nat) (v : Word) (rest : List HostOp), s.rst = true → off % 4 = 0 →
    s.host = .write off .word v :: rest → step s = .next { s with host := rest }) ∧
  (∀ (s : State) (off : Nat) (rest : List HostOp), s.rst = true → off % 4 = 0 → s.host = .read off .word :: rest →
    step s = .next { s with host := rest, reads := s.reads ++ [if off = 0x04 then 0x00000300#32 else 0#32] }) ∧
  (∀ (s : State) (rest : List HostOp), s.rst = true → s.host = .setRst false :: rest →
    ∃ t, step s = .next t ∧ t.rst = false ∧ ResetValues t ∧ t.mem = s.mem) ∧
  ResetValues State.reset

/-- R34: a write to CMD, PTR or LEN while `busy` = 1 is dropped. -/
def Obligations.BusyDropsWrites : Prop :=
  ∀ (s : State) (off : Nat) (v : Word) (rest : List HostOp), s.busy = true →
    off = 0x00 ∨ off = 0x08 ∨ off = 0x0C → s.host = .write off .word v :: rest →
    step s = .next { s with host := rest }

/-- The second half of RECOVER (R78): RESUME exactly if `RSP.data[0]` = 1. -/
def Obligations.RecoverResumesOnError : Prop :=
  ∀ (s : State) (rest : List HostOp), s.host = .resumeIfErr :: rest → s.rst = false → s.busy = false →
    step s = if s.rsp.getLsbD 0 then exec .resume { s with host := rest } else .next { s with host := rest }

/-! ### The framing commands (R81 to R83) -/

/-- R81: START in IDLE, whatever the environment answers. -/
def Obligations.StartOpensTransaction : Prop :=
  ∀ s : State, s.st = .idle → ∃ t e0 e1, exec .start s = .next t ∧ t.st = .start ∧ t.sclDrv = false ∧
    t.sdaDrv = false ∧ t.rsp = 0x00000100#32 ∧ t.busy = false ∧ t.att = 0 ∧ t.err = s.err ∧ t.cause = s.cause ∧
    t.dir = s.dir ∧ t.shreg = s.shreg ∧ t.bitcnt = s.bitcnt ∧
    t.wire = s.wire ++ [wiredAnd (drivers s) e0, wiredAnd ⟨s.sclDrv, false⟩ e1, ⟨false, false⟩]

/-- R82: STOP in DATA, the clock rising in time. -/
def Obligations.StopClosesTransaction : Prop :=
  ∀ (s : State) (c : Cell) (rest : List Levels), s.st = .data → s.sclDrv = false → c.Good →
    c.lows.length < Config.attemptLimit → s.env = .script (c.answers ++ rest) →
    ∃ t, exec .stop s = .next t ∧ t.st = .idle ∧ t.dir = .write ∧ t.sclDrv = true ∧ t.sdaDrv = true ∧
      t.rsp = 0x00000100#32 ∧ t.busy = false ∧ t.err = s.err ∧ t.cause = s.cause ∧ t.shreg = s.shreg ∧
      t.bitcnt = s.bitcnt ∧ t.att = c.lows.length ∧ t.wire = s.wire ++ stopSamples c ∧ t.env = .script rest

/-- R82, R46: STOP in DATA whose failed polls reach the limit. -/
def Obligations.StopStalls : Prop :=
  ∀ (s : State) (e e' : Levels) (lows rest : List Levels), s.st = .data → s.sclDrv = false →
    (∀ x ∈ lows, x.scl = false) → lows.length = Config.attemptLimit →
    s.env = .script (e :: (lows ++ e' :: rest)) →
    ∃ t, exec .stop s = .next t ∧ t.st = .error ∧ t.err = true ∧ t.cause = .stall ∧ t.rsp = 0#32 ∧
      t.busy = false ∧ t.dir = s.dir ∧ t.sclDrv = true ∧ t.sdaDrv = true ∧ t.env = .script rest ∧
      t.wire = s.wire ++ (⟨false, false⟩ :: (lows.map (fun _ => ⟨false, false⟩) ++ [e']))

/-- R83: RSTART in DATA, the clock rising in time. -/
def Obligations.RstartRepeatsStart : Prop :=
  ∀ (s : State) (c : Cell) (e : Levels) (rest : List Levels), s.st = .data → s.sclDrv = false → c.Good →
    c.lows.length < Config.attemptLimit → s.env = .script (c.answers ++ e :: rest) →
    ∃ t, exec .rstart s = .next t ∧ t.st = .rstart ∧ t.sclDrv = false ∧ t.sdaDrv = false ∧
      t.rsp = 0x00000100#32 ∧ t.busy = false ∧ t.err = s.err ∧ t.cause = s.cause ∧ t.dir = s.dir ∧
      t.shreg = s.shreg ∧ t.bitcnt = s.bitcnt ∧ t.att = c.lows.length ∧ t.env = .script rest ∧
      t.wire = s.wire ++ (⟨false, c.setup.sda⟩ :: (c.lows.map (fun x => ⟨false, x.sda⟩) ++
        [⟨true, c.high.sda⟩, ⟨c.low.scl, false⟩, ⟨false, false⟩]))

/-- R83, R46: RSTART in DATA whose failed polls reach the limit; both drivers are released already, so the
fault entry takes no sample. -/
def Obligations.RstartStalls : Prop :=
  ∀ (s : State) (e : Levels) (lows rest : List Levels), s.st = .data → s.sclDrv = false →
    (∀ x ∈ lows, x.scl = false) → lows.length = Config.attemptLimit → s.env = .script (e :: (lows ++ rest)) →
    ∃ t, exec .rstart s = .next t ∧ t.st = .error ∧ t.err = true ∧ t.cause = .stall ∧ t.rsp = 0#32 ∧
      t.busy = false ∧ t.dir = s.dir ∧ t.sclDrv = true ∧ t.sdaDrv = true ∧ t.env = .script rest ∧
      t.wire = s.wire ++ (⟨false, e.sda⟩ :: lows.map (fun x => ⟨false, x.sda⟩))

/-! ### The byte transfers (R90 to R93) -/

/-- R92: PUT of an address byte or a data byte, the clock rising in time and the byte acknowledged. -/
def Obligations.PutAcknowledged : Prop :=
  ∀ (s : State) (b : Byte) (f : FrameCells) (rest : List Levels), allowed (.put b) s.st s.dir = true →
    s.sclDrv = false → f.Good Config.attemptLimit → f.acked = true → s.env = .script (f.answers ++ rest) →
    ∃ t, exec (.put b) s = .next t ∧ t.st = .data ∧ t.dir = (if s.st = .data then s.dir else dirOf b) ∧
      t.rsp = 0x00000100#32 ∧ t.busy = false ∧ t.err = s.err ∧ t.cause = s.cause ∧ t.sclDrv = false ∧
      t.sdaDrv = true ∧ t.shreg = b ∧ t.bitcnt = 0#4 ∧ t.att = polls f.cells ∧ t.env = .script rest ∧
      t.wire = s.wire ++ f.sent b

/-- R92, R124: PUT whose byte is not acknowledged: the fault NACK, the frame followed by a stop condition. -/
def Obligations.PutNotAcknowledged : Prop :=
  ∀ (s : State) (b : Byte) (f : FrameCells) (c : Cell) (rest : List Levels), allowed (.put b) s.st s.dir = true →
    s.sclDrv = false → f.Good Config.attemptLimit → f.acked = false → c.Good →
    c.lows.length < Config.attemptLimit → s.env = .script (f.answers ++ (c.answers ++ rest)) →
    ∃ t, exec (.put b) s = .next t ∧ t.st = .error ∧ t.err = true ∧ t.cause = .nack ∧
      t.dir = (if s.st = .data then s.dir else dirOf b) ∧ t.rsp = 0#32 ∧ t.busy = false ∧ t.sclDrv = true ∧
      t.sdaDrv = true ∧ t.shreg = b ∧ t.bitcnt = 0#4 ∧ t.env = .script rest ∧
      t.wire = s.wire ++ f.sent b ++ stopSamples c

/-- R92, R46: PUT whose failed polls reach the limit in the cell after `cells`: the remaining cells are not sent.
The fault entry takes one sample where the BTE was pulling SDA low. -/
def Obligations.PutStalls : Prop :=
  ∀ (s : State) (b : Byte) (cells : List Cell) (v : Bool) (e e' : Levels) (lows rest : List Levels),
    allowed (.put b) s.st s.dir = true → s.sclDrv = false → (∀ c ∈ cells, c.Good) →
    (bitsOf b ++ [true])[cells.length]? = some v → (∀ x ∈ lows, x.scl = false) → lows ≠ [] →
    polls cells + lows.length = Config.attemptLimit →
    s.env = .script (answersOf cells ++ e :: (lows ++ e' :: rest)) →
    ∃ t, exec (.put b) s = .next t ∧ t.st = .error ∧ t.err = true ∧ t.cause = .stall ∧
      t.dir = (if s.st = .data then s.dir else dirOf b) ∧ t.rsp = 0#32 ∧ t.busy = false ∧ t.sclDrv = true ∧
      t.sdaDrv = true ∧ t.shreg = b ∧
      t.wire = s.wire ++ frameSamples (bitsOf b ++ [true]) cells ++ [⟨false, v && e.sda⟩] ++
        lows.map (fun x => ⟨false, v && x.sda⟩) ++ (if v then [] else [e'])

/-- R93: GET in an open read phase, the clock rising in time: the byte SDA showed at the eight high polls. -/
def Obligations.GetReceives : Prop :=
  ∀ (s : State) (nak : Bool) (f : FrameCells) (rest : List Levels), s.st = .data → s.dir = .read →
    s.sclDrv = false → f.Good Config.attemptLimit → s.env = .script (f.answers ++ rest) →
    ∃ t, exec (.get nak) s = .next t ∧ t.st = .data ∧ t.dir = .read ∧
      t.rsp = rspWord true (byteShown f.data) false 0 ∧ t.busy = false ∧ t.err = s.err ∧ t.cause = s.cause ∧
      t.sclDrv = false ∧ t.sdaDrv = nak ∧ t.shreg = byteShown f.data ∧ t.bitcnt = 0#4 ∧ t.att = polls f.cells ∧
      t.env = .script rest ∧ t.wire = s.wire ++ f.received nak

/-- R93, R46: GET whose failed polls reach the limit in the cell after `cells`; the bits received are lost. -/
def Obligations.GetStalls : Prop :=
  ∀ (s : State) (nak : Bool) (cells : List Cell) (v : Bool) (e e' : Levels) (lows rest : List Levels),
    s.st = .data → s.dir = .read → s.sclDrv = false → (∀ c ∈ cells, c.Good) →
    (List.replicate 8 true ++ [nak])[cells.length]? = some v → (∀ x ∈ lows, x.scl = false) → lows ≠ [] →
    polls cells + lows.length = Config.attemptLimit →
    s.env = .script (answersOf cells ++ e :: (lows ++ e' :: rest)) →
    ∃ t, exec (.get nak) s = .next t ∧ t.st = .error ∧ t.err = true ∧ t.cause = .stall ∧ t.dir = .read ∧
      t.rsp = 0#32 ∧ t.busy = false ∧ t.sclDrv = true ∧ t.sdaDrv = true ∧
      t.wire = s.wire ++ frameSamples (List.replicate 8 true ++ [nak]) cells ++ [⟨false, v && e.sda⟩] ++
        lows.map (fun x => ⟨false, v && x.sda⟩) ++ (if v then [] else [e'])

/-! ### Error control (R100, R101) -/

/-- R100: the word of CHKERR; in every state it writes `err` to RSP and changes nothing else (`busy` is 0 at
its end, R25). -/
def Obligations.ChkerrReports : Prop :=
  encode .chkerr = 0x00006000#32 ∧ ∀ s : State, exec .chkerr s =
    .next { s with rsp := if s.err then 0x00000101#32 else 0x00000100#32, busy := false }

/-- R101: RESUME in every state, whatever the environment answers: the fault cleared, the engine as reset leaves
it but for PTR, LEN, RSP, the buffer and the trace; samples only if a driver was low. -/
def Obligations.ResumeClears : Prop :=
  ∀ s : State, ∃ t new, exec .resume s = .next t ∧ t.st = .idle ∧ t.err = false ∧ t.cause = .none ∧
    t.dir = .write ∧ t.shreg = 0#8 ∧ t.bitcnt = 0#4 ∧ t.att = 0 ∧ t.sclDrv = true ∧ t.sdaDrv = true ∧
    t.busy = false ∧ t.rsp = 0x00000100#32 ∧ t.ptr = s.ptr ∧ t.len = s.len ∧ t.mem = s.mem ∧
    t.wire = s.wire ++ new ∧
    (s.sclDrv = true → s.sdaDrv = true → new = []) ∧ (s.sclDrv = true → s.sdaDrv = false → new.length = 1) ∧
    (s.sclDrv = false → 3 ≤ new.length ∧ new.length ≤ 2 + Config.attemptLimit) ∧
    (∀ (c : Cell) (rest : List Levels), s.sclDrv = false → c.Good → c.lows.length < Config.attemptLimit →
      s.env = .script (c.answers ++ rest) → new = stopSamples c)

/-! ### The block transfers (R110, R111) -/

/-- R110: WRITEB in IDLE with every byte acknowledged and the clock rising in time: the count LEN and the whole
trace, the buffer bytes in ascending order. -/
def Obligations.WritebSendsAll : Prop :=
  ∀ (s : State) (a : DevAddr) (e0 e1 e2 : Levels) (addr : FrameCells) (frames : List FrameCells) (stop : Cell)
    (bs : List Byte) (rest : List Levels), s.st = .idle → s.sclDrv = true → s.sdaDrv = true →
    addr.Good Config.attemptLimit → addr.acked = true → frames.length = s.len.toNat →
    (∀ f ∈ frames, f.Good Config.attemptLimit ∧ f.acked = true) → stop.Good →
    stop.lows.length < Config.attemptLimit → bs.length = s.len.toNat →
    (∀ n (h : n < bs.length), Memory.read s.mem (bufAddr s n).toNat = some bs[n]) →
    s.env = .script (e0 :: e1 :: e2 :: (addr.answers ++ (frames.flatMap FrameCells.answers ++ (stop.answers ++ rest)))) →
    ∃ t, exec (.writeb a) s = .next t ∧ t.st = .idle ∧ t.rsp = rspWord true 0#8 false s.len.toNat ∧
      t.busy = false ∧ t.dir = .write ∧ t.err = s.err ∧ t.cause = s.cause ∧ t.sclDrv = true ∧ t.sdaDrv = true ∧
      t.mem = s.mem ∧ t.env = .script rest ∧
      t.wire = s.wire ++ startSamples e0 e1 ++ addr.sent (addrByte a .write) ++
        (frames.zip bs).flatMap (fun p => p.1.sent p.2) ++ stopSamples stop

/-- R110: WRITEB whose data byte number `frames.length` is not acknowledged: the short count, the fault NACK and
the stop condition of the fault entry. -/
def Obligations.WritebShortCount : Prop :=
  ∀ (s : State) (a : DevAddr) (e0 e1 e2 : Levels) (addr : FrameCells) (frames : List FrameCells) (bad : FrameCells)
    (stop : Cell) (bs : List Byte) (rest : List Levels), s.st = .idle → s.sclDrv = true → s.sdaDrv = true →
    addr.Good Config.attemptLimit → addr.acked = true → frames.length < s.len.toNat →
    (∀ f ∈ frames, f.Good Config.attemptLimit ∧ f.acked = true) → bad.Good Config.attemptLimit → bad.acked = false →
    stop.Good → stop.lows.length < Config.attemptLimit → bs.length = frames.length + 1 →
    (∀ n (h : n < bs.length), Memory.read s.mem (bufAddr s n).toNat = some bs[n]) →
    s.env = .script (e0 :: e1 :: e2 ::
      (addr.answers ++ (frames.flatMap FrameCells.answers ++ (bad.answers ++ (stop.answers ++ rest))))) →
    ∃ t, exec (.writeb a) s = .next t ∧ t.st = .error ∧ t.err = true ∧ t.cause = .nack ∧
      t.rsp = rspWord false 0#8 false frames.length ∧ t.busy = false ∧ t.dir = .write ∧ t.sclDrv = true ∧
      t.sdaDrv = true ∧ t.mem = s.mem ∧ t.env = .script rest ∧
      t.wire = s.wire ++ startSamples e0 e1 ++ addr.sent (addrByte a .write) ++
        ((frames ++ [bad]).zip bs).flatMap (fun p => p.1.sent p.2) ++ stopSamples stop

/-- R110, R111: WRITEB and READB in IDLE whose address byte is not acknowledged: the negative indicator, no
buffer access. -/
def Obligations.BlockAddressNotAcknowledged : Prop :=
  ∀ (s : State) (a : DevAddr) (d : Dir) (e0 e1 e2 : Levels) (addr : FrameCells) (stop : Cell) (rest : List Levels),
    s.st = .idle → s.sclDrv = true → s.sdaDrv = true → addr.Good Config.attemptLimit → addr.acked = false →
    stop.Good → stop.lows.length < Config.attemptLimit →
    s.env = .script (e0 :: e1 :: e2 :: (addr.answers ++ (stop.answers ++ rest))) →
    ∃ t, exec (match d with | .write => .writeb a | .read => .readb a) s = .next t ∧ t.st = .error ∧
      t.err = true ∧ t.cause = .nack ∧ t.rsp = 0xFFFF0000#32 ∧ t.busy = false ∧ t.dir = d ∧ t.sclDrv = true ∧
      t.sdaDrv = true ∧ t.mem = s.mem ∧ t.draws = s.draws ∧ t.env = .script rest ∧
      t.wire = s.wire ++ startSamples e0 e1 ++ addr.sent (addrByte a d) ++ stopSamples stop

/-- R111: READB in IDLE with the address acknowledged and the clock rising in time: LEN bytes stored from PTR
upward, all but the last acknowledged, the count LEN and the last byte in RSP. -/
def Obligations.ReadbReceivesAll : Prop :=
  ∀ (s : State) (a : DevAddr) (e0 e1 e2 : Levels) (addr : FrameCells) (frames : List FrameCells) (stop : Cell)
    (rest : List Levels), s.st = .idle → s.sclDrv = true → s.sdaDrv = true → addr.Good Config.attemptLimit →
    addr.acked = true → frames.length = s.len.toNat → (∀ f ∈ frames, f.Good Config.attemptLimit) → stop.Good →
    stop.lows.length < Config.attemptLimit →
    s.env = .script (e0 :: e1 :: e2 :: (addr.answers ++ (frames.flatMap FrameCells.answers ++ (stop.answers ++ rest)))) →
    ∃ t, exec (.readb a) s = .next t ∧ t.st = .idle ∧
      t.rsp = rspWord true ((frames.getLast?.map (fun f => byteShown f.data)).getD 0#8) false s.len.toNat ∧
      t.busy = false ∧ t.dir = .write ∧ t.err = s.err ∧ t.cause = s.cause ∧ t.sclDrv = true ∧ t.sdaDrv = true ∧
      t.env = .script rest ∧
      (∀ n (h : n < frames.length), Memory.read t.mem (bufAddr s n).toNat = some (byteShown frames[n].data)) ∧
      (∀ x, (∀ n < s.len.toNat, x ≠ (bufAddr s n).toNat) → Memory.read t.mem x = Memory.read s.mem x) ∧
      t.wire = s.wire ++ startSamples e0 e1 ++ addr.sent (addrByte a .read) ++ receivedAll frames ++
        stopSamples stop

/-- R111, R126: READB that stalls in the first cell of byte number `frames.length`: the short count, and the bytes
before it stored. -/
def Obligations.ReadbShortCount : Prop :=
  ∀ (s : State) (a : DevAddr) (e0 e1 e2 e : Levels) (addr : FrameCells) (frames : List FrameCells)
    (lows rest : List Levels), s.st = .idle → s.sclDrv = true → s.sdaDrv = true → addr.Good Config.attemptLimit →
    addr.acked = true → frames.length < s.len.toNat → (∀ f ∈ frames, f.Good Config.attemptLimit) →
    (∀ x ∈ lows, x.scl = false) → lows.length = Config.attemptLimit →
    s.env = .script (e0 :: e1 :: e2 :: (addr.answers ++ (frames.flatMap FrameCells.answers ++ e :: (lows ++ rest)))) →
    ∃ t, exec (.readb a) s = .next t ∧ t.st = .error ∧ t.err = true ∧ t.cause = .stall ∧
      t.rsp = rspWord false 0#8 false frames.length ∧ t.busy = false ∧ t.dir = .read ∧ t.sclDrv = true ∧
      t.sdaDrv = true ∧ t.env = .script rest ∧
      (∀ n (h : n < frames.length), Memory.read t.mem (bufAddr s n).toNat = some (byteShown frames[n].data)) ∧
      (∀ x, (∀ n < frames.length, x ≠ (bufAddr s n).toNat) → Memory.read t.mem x = Memory.read s.mem x)

/-! ### Faults (R121 to R130) -/

/-- R125: in ERROR every bus command is refused: RSP, and nothing else; CHKERR and RESUME execute. -/
def Obligations.ErrorRefusesBusCommands : Prop :=
  ∀ s : State, s.st = .error →
    (∀ i : Instr, busCommand i = true →
      exec i s = .next { s with rsp := rspWord false 0#8 false (failCount i), busy := false }) ∧
    (∃ t, exec .chkerr s = .next t ∧ t.rsp = (if s.err then 0x00000101#32 else 0x00000100#32) ∧ t.st = .error) ∧
    (∃ t, exec .resume s = .next t ∧ t.rsp = 0x00000100#32 ∧ t.st = .idle ∧ t.err = false)

/-- R122: outside ERROR a bus command that the table does not allow is a protocol violation. -/
def Obligations.ViolationFaults : Prop :=
  ∀ (i : Instr) (s : State), busCommand i = true → s.st ≠ .error → allowed i s.st s.dir = false →
    ∃ t, exec i s = .next t ∧ t.st = .error ∧ t.err = true ∧ t.cause = .proto ∧
      t.rsp = rspWord false 0#8 false (failCount i) ∧ t.busy = false ∧ t.sclDrv = true ∧ t.sdaDrv = true ∧
      t.dir = s.dir ∧ t.shreg = s.shreg ∧ t.bitcnt = s.bitcnt ∧ t.mem = s.mem ∧
      (s.sclDrv = true → s.sdaDrv = true → t.wire = s.wire)

/-- R124: the fault entry: what it changes, what it leaves, and its effect on the wire by the drivers at entry. -/
def Obligations.FaultEntry : Prop :=
  ∀ (c : Cause) (s : State), ∃ t new, enterError Config.attemptLimit c s = t ∧ t.err = true ∧ t.cause = c ∧
    t.st = .error ∧ t.sclDrv = true ∧ t.sdaDrv = true ∧ t.dir = s.dir ∧ t.shreg = s.shreg ∧ t.bitcnt = s.bitcnt ∧
    t.ptr = s.ptr ∧ t.len = s.len ∧ t.mem = s.mem ∧ t.rsp = s.rsp ∧ t.wire = s.wire ++ new ∧
    (s.sclDrv = true → s.sdaDrv = true → new = []) ∧ (s.sclDrv = true → s.sdaDrv = false → new.length = 1) ∧
    (s.sclDrv = false → 3 ≤ new.length ∧ new.length ≤ 2 + Config.attemptLimit) ∧
    (∀ (p : Cell) (rest : List Levels), s.sclDrv = false → p.Good → p.lows.length < Config.attemptLimit →
      s.env = .script (p.answers ++ rest) → new = stopSamples p)

/-- R33, R25, R21: every command ends, in every state and whatever the environment answers; `busy` is then 0, `ill`
is 0 and the reserved bits of RSP are 0. That a WRITEB over bytes nobody wrote runs on too is the model's choice (log 5:
R37 lets a model fault or draw the byte). -/
def Obligations.EveryCommandEnds : Prop :=
  ∀ (i : Instr) (s : State), ∃ t, exec i s = .next t ∧ t.busy = false ∧ rspIll t.rsp = false ∧
    t.rsp.extractLsb' 10 6 = 0#6

/-! ### Invariants of the step (R27, R24, R43, R50) -/

/-- The invariants hold at reset. -/
def Obligations.InvariantsAtReset : Prop :=
  Quiet State.reset ∧ Counters State.reset ∧ TraceRecorded State.reset ∧ Orderly State.reset ∧
    HeldInReset State.reset ∧ Memory.wf State.reset.mem = true

/-- R27: the five clauses hold after reset, and every step of the host, a command among them, keeps them. -/
def Obligations.StepKeepsQuiet : Prop :=
  Quiet State.reset ∧ ∀ s t : State, Quiet s → step s = .next t → Quiet t

/-- Every step keeps the canonical form of the buffer memory (R35 to R37). -/
def Obligations.StepKeepsMemoryCanonical : Prop :=
  ∀ s t : State, Quiet s → Memory.wf s.mem = true → step s = .next t → Memory.wf t.mem = true

/-- R43: every step keeps the wire trace the record of the samples asked for. -/
def Obligations.StepKeepsTraceRecorded : Prop :=
  ∀ s t : State, Quiet s → TraceRecorded s → step s = .next t → TraceRecorded t

/-- R50: since reset the drivers change one at a time, and SDA changes under a released clock only in a start or stop
condition; every step keeps that. -/
def Obligations.StepKeepsDriversOrderly : Prop :=
  Orderly State.reset ∧ ∀ s t : State, Quiet s → Orderly s → step s = .next t → Orderly t

/-- R24, R46: every step keeps `bitcnt` at 0 outside ERROR and `att` within the limit. -/
def Obligations.StepKeepsCounters : Prop :=
  ∀ s t : State, Quiet s → Counters s → step s = .next t → Counters t

/-- R140: every step keeps the state at the reset values while the reset input is 1. -/
def Obligations.StepKeepsHeldInReset : Prop :=
  ∀ s t : State, Quiet s → HeldInReset s → step s = .next t → HeldInReset t

/-! ### Rules over all commands -/

/-- R15, R16: a command changes `err` or `cause` only by a fault, which ends in ERROR, or by RESUME. -/
def Obligations.ErrSetByFaultsClearedByResume : Prop :=
  ∀ (i : Instr) (s t : State), Quiet s → exec i s = .next t →
    (t.err = s.err ∧ t.cause = s.cause) ∨
    (t.err = true ∧ t.st = .error ∧ (t.cause = .nack ∨ t.cause = .stall ∨ t.cause = .proto)) ∨
    (i = .resume ∧ t.err = false ∧ t.cause = .none)

/-- R84: the state graph. -/
def Obligations.StateGraph : Prop :=
  ∀ (i : Instr) (s t : State), Quiet s → exec i s = .next t → t.st ∈ successors i s.st s.dir

/-- R12, R19, R20: no command writes PTR or LEN, nor anything of the host's. -/
def Obligations.CommandsKeepHostSide : Prop :=
  ∀ (i : Instr) (s t : State), Quiet s → exec i s = .next t → HostSideKept s t

/-- R30, R111: every command but READB leaves every byte of the buffer as it was, and READB every byte outside the
LEN bytes from PTR. -/
def Obligations.OnlyReadbWritesBuffer : Prop :=
  ∀ (i : Instr) (s t : State), Quiet s → exec i s = .next t →
    ∀ x, (∀ a, i = .readb a → ∀ n < s.len.toNat, x ≠ (bufAddr s n).toNat) →
      Memory.read t.mem x = Memory.read s.mem x

/-- What the engine's registers keep (R17, R12, R100): `dir` is written by no command but STOP, RESUME, the block
transfers and the PUT of an address byte; `shreg` and `bitcnt` by none but PUT, GET, RESUME and the block
transfers; `att` and the drivers not by CHKERR; the trace only grows. -/
def Obligations.RegisterFrames : Prop :=
  ∀ (i : Instr) (s t : State), Quiet s → exec i s = .next t →
    (i = .start ∨ i = .rstart ∨ (∃ n, i = .get n) ∨ i = .chkerr ∨
      ((∃ b, i = .put b) ∧ s.st ≠ .start ∧ s.st ≠ .rstart) → t.dir = s.dir) ∧
    (i = .start ∨ i = .stop ∨ i = .rstart ∨ i = .chkerr → t.shreg = s.shreg ∧ t.bitcnt = s.bitcnt) ∧
    (i = .chkerr → t.att = s.att ∧ t.sclDrv = s.sclDrv ∧ t.sdaDrv = s.sdaDrv ∧ t.wire = s.wire ∧ t.asked = s.asked) ∧
    TraceExtends s t

/-- R46, R53 E4: a command issued outside ERROR ends in a stall only if the environment breaks E4: fewer failed polls than
the limit in each primitive command, its fault entry included (log 9). -/
def Obligations.NoStallUnderDutyE4 : Prop :=
  ∀ (i : Instr) (s t : State), Quiet s → s.st ≠ .error → exec i s = .next t →
    DutyE4 Config.attemptLimit (newAsks s t) → t.cause ≠ .stall

/-- R30: no command but WRITEB and READB reaches the buffer memory: with another buffer it does the same. Both runs get
the same answers where the environment's are free (log 4). -/
def Obligations.BufferReachedOnlyByBlocks : Prop :=
  ∀ (i : Instr) (s : State) (m : Memory), (∀ a, i ≠ .writeb a) → (∀ a, i ≠ .readb a) →
    ∃ t, exec i s = .next t ∧ exec i { s with mem := m } = .next { t with mem := m }

/-- R16: no rule reads `cause`: with another cause a command does the same, but for `cause` itself. Both runs get the same
answers where the environment's are free (log 4), and a WRITEB over bytes nobody wrote runs on and draws the same byte in
both, which is the model's choice (log 5). -/
def Obligations.CauseNeverRead : Prop :=
  ∀ (i : Instr) (s : State) (c : Cause), ∃ t u, exec i s = .next t ∧
    exec i { s with cause := c } = .next u ∧ u = { t with cause := u.cause }

/-- R24: every command that reads `shreg`, `bitcnt` or `att` writes it first: with other values in them a command does
the same, but for those three. Both runs get the same answers where the environment's are free (log 4), and a WRITEB over
bytes nobody wrote runs on and draws the same byte in both, which is the model's choice (log 5). -/
def Obligations.InternalRegistersNeverRead : Prop :=
  ∀ (i : Instr) (s : State) (a : Byte) (b : BitVec 4) (c : Nat), ∃ t u, exec i s = .next t ∧
    exec i { s with shreg := a, bitcnt := b, att := c } = .next u ∧
    u = { t with shreg := u.shreg, bitcnt := u.bitcnt, att := u.att }

/-- R113, laws 1 to 3, and of law 4 only that the buffer is not written (that no data byte is put on the wire and no buffer
byte read is not stated), for WRITEB and READB from every quiet state and whatever the environment answers. That a WRITEB
over bytes nobody wrote runs on is the model's choice (log 5). -/
def Obligations.BlockReturnLaws : Prop :=
  ∀ (i : Instr) (s : State), Quiet s → (∃ a, i = .writeb a ∨ i = .readb a) → ∃ t, exec i s = .next t ∧
    (rspCount t.rsp = -1 ∨ (0 ≤ rspCount t.rsp ∧ rspCount t.rsp ≤ s.len.toNat)) ∧
    (rspOk t.rsp = true → s.st = .idle ∧ t.err = false ∧ t.st = .idle ∧ rspCount t.rsp = s.len.toNat) ∧
    (rspOk t.rsp = false ↔ t.st = .error) ∧
    (rspCount t.rsp = -1 → t.mem = s.mem)

/-- R33, R147, R155: the number of line samples of a command is bounded, whatever the environment answers. -/
def Obligations.SamplesBounded : Prop :=
  ∀ (i : Instr) (s t : State), Quiet s → exec i s = .next t →
    (newSamples s t).length ≤ sampleBound Config.attemptLimit s.len.toNat i

/-! ### What appears on the bus (R51, R52, R69) and the ideal target (R54) -/

/-- R69: the framed trace of a WRITEB in which the environment answers as R53 asks and every byte is acknowledged is
`S (a||0)A [dataA]* P`. -/
def Obligations.WritebFramedTrace : Prop :=
  ∀ (s : State) (a : DevAddr) (e1 e2 : Levels) (addr : FrameCells) (frames : List FrameCells) (stop : Cell)
    (bs : List Byte) (rest : List Levels), s.st = .idle → s.sclDrv = true → s.sdaDrv = true → e1.scl = true →
    addr.Good Config.attemptLimit → addr.acked = true → addr.Undisturbed → frames.length = s.len.toNat →
    (∀ f ∈ frames, f.Good Config.attemptLimit ∧ f.acked = true ∧ f.Undisturbed) → stop.Good →
    stop.lows.length < Config.attemptLimit → stop.low = ⟨true, true⟩ → bs.length = s.len.toNat →
    (∀ n (h : n < bs.length), Memory.read s.mem (bufAddr s n).toNat = some bs[n]) →
    s.env = .script (⟨true, true⟩ :: e1 :: e2 ::
      (addr.answers ++ (frames.flatMap FrameCells.answers ++ (stop.answers ++ rest)))) →
    ∃ t, exec (.writeb a) s = .next t ∧
      frame (observe (newSamples s t)) =
        .s :: .byte (addrByte a .write) true :: (bs.map (fun b => .byte b true) ++ [.p])

/-- R69: the framed trace of a READB is `S (a||1)A [dataA]* dataN P`, and the bytes framed are those stored. -/
def Obligations.ReadbFramedTrace : Prop :=
  ∀ (s : State) (a : DevAddr) (e1 e2 : Levels) (addr : FrameCells) (frames : List FrameCells) (stop : Cell)
    (rest : List Levels), s.st = .idle → s.sclDrv = true → s.sdaDrv = true → e1.scl = true →
    addr.Good Config.attemptLimit → addr.acked = true → addr.Undisturbed → frames.length = s.len.toNat →
    (∀ f ∈ frames, f.Good Config.attemptLimit ∧ f.ninth.high.sda = true) → stop.Good →
    stop.lows.length < Config.attemptLimit → stop.low = ⟨true, true⟩ →
    s.env = .script (⟨true, true⟩ :: e1 :: e2 ::
      (addr.answers ++ (frames.flatMap FrameCells.answers ++ (stop.answers ++ rest)))) →
    ∃ t, exec (.readb a) s = .next t ∧
      frame (observe (newSamples s t)) =
        .s :: .byte (addrByte a .read) true :: (readItems (frames.map (fun f => byteShown f.data)) ++ [.p])

/-- R54 with R110 and R111: against the ideal target at the address used, WRITEB and READB transfer all LEN bytes, and
READB stores the target's bytes in order, then 0xFF. There is no premise that the bytes WRITEB reads hold values (R143):
that it runs on over bytes nobody wrote is the model's choice (log 5). -/
def Obligations.IdealTargetTransfers : Prop :=
  ∀ (s : State) (g : Target), Quiet s → s.st = .idle → s.env = .ideal g → TargetAtRest g →
    (∃ t, exec (.writeb g.addr) s = .next t ∧ t.st = .idle ∧ t.err = false ∧
      t.rsp = rspWord true 0#8 false s.len.toNat) ∧
    (∃ t, exec (.readb g.addr) s = .next t ∧ t.st = .idle ∧ t.err = false ∧ rspOk t.rsp = true ∧
      rspCount t.rsp = s.len.toNat ∧
      ∀ n < s.len.toNat, Memory.read t.mem (bufAddr s n).toNat = some (g.tx.getD n 0xFF#8))
end

