-- ==== Sys2Proof/Laws/State.lean ====
section
/-! SUPPORT. One lemma a field for each operation that is a plain record update. -/

namespace Sys2Proof.Machine

/-! ### `accept` (R25) -/

@[simp] theorem accept_st (s : State) : (accept s).st = s.st := rfl
@[simp] theorem accept_err (s : State) : (accept s).err = s.err := rfl
@[simp] theorem accept_cause (s : State) : (accept s).cause = s.cause := rfl
@[simp] theorem accept_dir (s : State) : (accept s).dir = s.dir := rfl
@[simp] theorem accept_busy (s : State) : (accept s).busy = true := rfl
@[simp] theorem accept_sclDrv (s : State) : (accept s).sclDrv = s.sclDrv := rfl
@[simp] theorem accept_sdaDrv (s : State) : (accept s).sdaDrv = s.sdaDrv := rfl
@[simp] theorem accept_ptr (s : State) : (accept s).ptr = s.ptr := rfl
@[simp] theorem accept_len (s : State) : (accept s).len = s.len := rfl
@[simp] theorem accept_rsp (s : State) : (accept s).rsp = s.rsp := rfl
@[simp] theorem accept_shreg (s : State) : (accept s).shreg = s.shreg := rfl
@[simp] theorem accept_bitcnt (s : State) : (accept s).bitcnt = s.bitcnt := rfl
@[simp] theorem accept_att (s : State) : (accept s).att = s.att := rfl
@[simp] theorem accept_mem (s : State) : (accept s).mem = s.mem := rfl
@[simp] theorem accept_wire (s : State) : (accept s).wire = s.wire := rfl
@[simp] theorem accept_rst (s : State) : (accept s).rst = s.rst := rfl
@[simp] theorem accept_host (s : State) : (accept s).host = s.host := rfl
@[simp] theorem accept_reads (s : State) : (accept s).reads = s.reads := rfl
@[simp] theorem accept_env (s : State) : (accept s).env = s.env := rfl
@[simp] theorem accept_draws (s : State) : (accept s).draws = s.draws := rfl
@[simp] theorem accept_asked (s : State) : (accept s).asked = s.asked := rfl

/-! ### `respond` (R21) -/

@[simp] theorem respond_st (ok : Bool) (data : Byte) (ill : Bool) (count : Int) (s : State) : (respond ok data ill count s).st = s.st := rfl
@[simp] theorem respond_err (ok : Bool) (data : Byte) (ill : Bool) (count : Int) (s : State) : (respond ok data ill count s).err = s.err := rfl
@[simp] theorem respond_cause (ok : Bool) (data : Byte) (ill : Bool) (count : Int) (s : State) : (respond ok data ill count s).cause = s.cause := rfl
@[simp] theorem respond_dir (ok : Bool) (data : Byte) (ill : Bool) (count : Int) (s : State) : (respond ok data ill count s).dir = s.dir := rfl
@[simp] theorem respond_busy (ok : Bool) (data : Byte) (ill : Bool) (count : Int) (s : State) : (respond ok data ill count s).busy = false := rfl
@[simp] theorem respond_sclDrv (ok : Bool) (data : Byte) (ill : Bool) (count : Int) (s : State) : (respond ok data ill count s).sclDrv = s.sclDrv := rfl
@[simp] theorem respond_sdaDrv (ok : Bool) (data : Byte) (ill : Bool) (count : Int) (s : State) : (respond ok data ill count s).sdaDrv = s.sdaDrv := rfl
@[simp] theorem respond_ptr (ok : Bool) (data : Byte) (ill : Bool) (count : Int) (s : State) : (respond ok data ill count s).ptr = s.ptr := rfl
@[simp] theorem respond_len (ok : Bool) (data : Byte) (ill : Bool) (count : Int) (s : State) : (respond ok data ill count s).len = s.len := rfl
@[simp] theorem respond_rsp (ok : Bool) (data : Byte) (ill : Bool) (count : Int) (s : State) : (respond ok data ill count s).rsp = rspWord ok data ill count := rfl
@[simp] theorem respond_shreg (ok : Bool) (data : Byte) (ill : Bool) (count : Int) (s : State) : (respond ok data ill count s).shreg = s.shreg := rfl
@[simp] theorem respond_bitcnt (ok : Bool) (data : Byte) (ill : Bool) (count : Int) (s : State) : (respond ok data ill count s).bitcnt = s.bitcnt := rfl
@[simp] theorem respond_att (ok : Bool) (data : Byte) (ill : Bool) (count : Int) (s : State) : (respond ok data ill count s).att = s.att := rfl
@[simp] theorem respond_mem (ok : Bool) (data : Byte) (ill : Bool) (count : Int) (s : State) : (respond ok data ill count s).mem = s.mem := rfl
@[simp] theorem respond_wire (ok : Bool) (data : Byte) (ill : Bool) (count : Int) (s : State) : (respond ok data ill count s).wire = s.wire := rfl
@[simp] theorem respond_rst (ok : Bool) (data : Byte) (ill : Bool) (count : Int) (s : State) : (respond ok data ill count s).rst = s.rst := rfl
@[simp] theorem respond_host (ok : Bool) (data : Byte) (ill : Bool) (count : Int) (s : State) : (respond ok data ill count s).host = s.host := rfl
@[simp] theorem respond_reads (ok : Bool) (data : Byte) (ill : Bool) (count : Int) (s : State) : (respond ok data ill count s).reads = s.reads := rfl
@[simp] theorem respond_env (ok : Bool) (data : Byte) (ill : Bool) (count : Int) (s : State) : (respond ok data ill count s).env = s.env := rfl
@[simp] theorem respond_draws (ok : Bool) (data : Byte) (ill : Bool) (count : Int) (s : State) : (respond ok data ill count s).draws = s.draws := rfl
@[simp] theorem respond_asked (ok : Bool) (data : Byte) (ill : Bool) (count : Int) (s : State) : (respond ok data ill count s).asked = s.asked := rfl

/-! ### `memWrite` (R36) -/

@[simp] theorem memWrite_st (a : BufAddr) (v : Byte) (s : State) : (memWrite a v s).st = s.st := rfl
@[simp] theorem memWrite_err (a : BufAddr) (v : Byte) (s : State) : (memWrite a v s).err = s.err := rfl
@[simp] theorem memWrite_cause (a : BufAddr) (v : Byte) (s : State) : (memWrite a v s).cause = s.cause := rfl
@[simp] theorem memWrite_dir (a : BufAddr) (v : Byte) (s : State) : (memWrite a v s).dir = s.dir := rfl
@[simp] theorem memWrite_busy (a : BufAddr) (v : Byte) (s : State) : (memWrite a v s).busy = s.busy := rfl
@[simp] theorem memWrite_sclDrv (a : BufAddr) (v : Byte) (s : State) : (memWrite a v s).sclDrv = s.sclDrv := rfl
@[simp] theorem memWrite_sdaDrv (a : BufAddr) (v : Byte) (s : State) : (memWrite a v s).sdaDrv = s.sdaDrv := rfl
@[simp] theorem memWrite_ptr (a : BufAddr) (v : Byte) (s : State) : (memWrite a v s).ptr = s.ptr := rfl
@[simp] theorem memWrite_len (a : BufAddr) (v : Byte) (s : State) : (memWrite a v s).len = s.len := rfl
@[simp] theorem memWrite_rsp (a : BufAddr) (v : Byte) (s : State) : (memWrite a v s).rsp = s.rsp := rfl
@[simp] theorem memWrite_shreg (a : BufAddr) (v : Byte) (s : State) : (memWrite a v s).shreg = s.shreg := rfl
@[simp] theorem memWrite_bitcnt (a : BufAddr) (v : Byte) (s : State) : (memWrite a v s).bitcnt = s.bitcnt := rfl
@[simp] theorem memWrite_att (a : BufAddr) (v : Byte) (s : State) : (memWrite a v s).att = s.att := rfl
@[simp] theorem memWrite_mem (a : BufAddr) (v : Byte) (s : State) : (memWrite a v s).mem = Memory.write s.mem a.toNat v := rfl
@[simp] theorem memWrite_wire (a : BufAddr) (v : Byte) (s : State) : (memWrite a v s).wire = s.wire := rfl
@[simp] theorem memWrite_rst (a : BufAddr) (v : Byte) (s : State) : (memWrite a v s).rst = s.rst := rfl
@[simp] theorem memWrite_host (a : BufAddr) (v : Byte) (s : State) : (memWrite a v s).host = s.host := rfl
@[simp] theorem memWrite_reads (a : BufAddr) (v : Byte) (s : State) : (memWrite a v s).reads = s.reads := rfl
@[simp] theorem memWrite_env (a : BufAddr) (v : Byte) (s : State) : (memWrite a v s).env = s.env := rfl
@[simp] theorem memWrite_draws (a : BufAddr) (v : Byte) (s : State) : (memWrite a v s).draws = s.draws := rfl
@[simp] theorem memWrite_asked (a : BufAddr) (v : Byte) (s : State) : (memWrite a v s).asked = s.asked := rfl

/-! ### `resetRegs` (R28) -/

@[simp] theorem resetRegs_st (s : State) : (resetRegs s).st = .idle := rfl
@[simp] theorem resetRegs_err (s : State) : (resetRegs s).err = false := rfl
@[simp] theorem resetRegs_cause (s : State) : (resetRegs s).cause = .none := rfl
@[simp] theorem resetRegs_dir (s : State) : (resetRegs s).dir = .write := rfl
@[simp] theorem resetRegs_busy (s : State) : (resetRegs s).busy = false := rfl
@[simp] theorem resetRegs_sclDrv (s : State) : (resetRegs s).sclDrv = true := rfl
@[simp] theorem resetRegs_sdaDrv (s : State) : (resetRegs s).sdaDrv = true := rfl
@[simp] theorem resetRegs_ptr (s : State) : (resetRegs s).ptr = 0#16 := rfl
@[simp] theorem resetRegs_len (s : State) : (resetRegs s).len = 0#15 := rfl
@[simp] theorem resetRegs_rsp (s : State) : (resetRegs s).rsp = 0#32 := rfl
@[simp] theorem resetRegs_shreg (s : State) : (resetRegs s).shreg = 0#8 := rfl
@[simp] theorem resetRegs_bitcnt (s : State) : (resetRegs s).bitcnt = 0#4 := rfl
@[simp] theorem resetRegs_att (s : State) : (resetRegs s).att = 0 := rfl
@[simp] theorem resetRegs_mem (s : State) : (resetRegs s).mem = s.mem := rfl
@[simp] theorem resetRegs_wire (s : State) : (resetRegs s).wire = [] := rfl
@[simp] theorem resetRegs_rst (s : State) : (resetRegs s).rst = s.rst := rfl
@[simp] theorem resetRegs_host (s : State) : (resetRegs s).host = s.host := rfl
@[simp] theorem resetRegs_reads (s : State) : (resetRegs s).reads = s.reads := rfl
@[simp] theorem resetRegs_env (s : State) : (resetRegs s).env = s.env := rfl
@[simp] theorem resetRegs_draws (s : State) : (resetRegs s).draws = s.draws := rfl
@[simp] theorem resetRegs_asked (s : State) : (resetRegs s).asked = [] := rfl

/-! ### `note` (R77) -/

@[simp] theorem note_st (v : Word) (s : State) : (note v s).st = s.st := rfl
@[simp] theorem note_err (v : Word) (s : State) : (note v s).err = s.err := rfl
@[simp] theorem note_cause (v : Word) (s : State) : (note v s).cause = s.cause := rfl
@[simp] theorem note_dir (v : Word) (s : State) : (note v s).dir = s.dir := rfl
@[simp] theorem note_busy (v : Word) (s : State) : (note v s).busy = s.busy := rfl
@[simp] theorem note_sclDrv (v : Word) (s : State) : (note v s).sclDrv = s.sclDrv := rfl
@[simp] theorem note_sdaDrv (v : Word) (s : State) : (note v s).sdaDrv = s.sdaDrv := rfl
@[simp] theorem note_ptr (v : Word) (s : State) : (note v s).ptr = s.ptr := rfl
@[simp] theorem note_len (v : Word) (s : State) : (note v s).len = s.len := rfl
@[simp] theorem note_rsp (v : Word) (s : State) : (note v s).rsp = s.rsp := rfl
@[simp] theorem note_shreg (v : Word) (s : State) : (note v s).shreg = s.shreg := rfl
@[simp] theorem note_bitcnt (v : Word) (s : State) : (note v s).bitcnt = s.bitcnt := rfl
@[simp] theorem note_att (v : Word) (s : State) : (note v s).att = s.att := rfl
@[simp] theorem note_mem (v : Word) (s : State) : (note v s).mem = s.mem := rfl
@[simp] theorem note_wire (v : Word) (s : State) : (note v s).wire = s.wire := rfl
@[simp] theorem note_rst (v : Word) (s : State) : (note v s).rst = s.rst := rfl
@[simp] theorem note_host (v : Word) (s : State) : (note v s).host = s.host := rfl
@[simp] theorem note_reads (v : Word) (s : State) : (note v s).reads = s.reads ++ [v] := rfl
@[simp] theorem note_env (v : Word) (s : State) : (note v s).env = s.env := rfl
@[simp] theorem note_draws (v : Word) (s : State) : (note v s).draws = s.draws := rfl
@[simp] theorem note_asked (v : Word) (s : State) : (note v s).asked = s.asked := rfl

/-! ### `refuseIllegal` (R66) -/

@[simp] theorem refuseIllegal_st (s : State) : (refuseIllegal s).st = s.st := rfl
@[simp] theorem refuseIllegal_err (s : State) : (refuseIllegal s).err = s.err := rfl
@[simp] theorem refuseIllegal_cause (s : State) : (refuseIllegal s).cause = s.cause := rfl
@[simp] theorem refuseIllegal_dir (s : State) : (refuseIllegal s).dir = s.dir := rfl
@[simp] theorem refuseIllegal_busy (s : State) : (refuseIllegal s).busy = s.busy := rfl
@[simp] theorem refuseIllegal_sclDrv (s : State) : (refuseIllegal s).sclDrv = s.sclDrv := rfl
@[simp] theorem refuseIllegal_sdaDrv (s : State) : (refuseIllegal s).sdaDrv = s.sdaDrv := rfl
@[simp] theorem refuseIllegal_ptr (s : State) : (refuseIllegal s).ptr = s.ptr := rfl
@[simp] theorem refuseIllegal_len (s : State) : (refuseIllegal s).len = s.len := rfl
@[simp] theorem refuseIllegal_rsp (s : State) : (refuseIllegal s).rsp = rspWord false 0#8 true 0 := rfl
@[simp] theorem refuseIllegal_shreg (s : State) : (refuseIllegal s).shreg = s.shreg := rfl
@[simp] theorem refuseIllegal_bitcnt (s : State) : (refuseIllegal s).bitcnt = s.bitcnt := rfl
@[simp] theorem refuseIllegal_att (s : State) : (refuseIllegal s).att = s.att := rfl
@[simp] theorem refuseIllegal_mem (s : State) : (refuseIllegal s).mem = s.mem := rfl
@[simp] theorem refuseIllegal_wire (s : State) : (refuseIllegal s).wire = s.wire := rfl
@[simp] theorem refuseIllegal_rst (s : State) : (refuseIllegal s).rst = s.rst := rfl
@[simp] theorem refuseIllegal_host (s : State) : (refuseIllegal s).host = s.host := rfl
@[simp] theorem refuseIllegal_reads (s : State) : (refuseIllegal s).reads = s.reads := rfl
@[simp] theorem refuseIllegal_env (s : State) : (refuseIllegal s).env = s.env := rfl
@[simp] theorem refuseIllegal_draws (s : State) : (refuseIllegal s).draws = s.draws := rfl
@[simp] theorem refuseIllegal_asked (s : State) : (refuseIllegal s).asked = s.asked := rfl

end Sys2Proof.Machine
end

