-- ==== Sys2Proof/Laws/Memory.lean ====
section
/-! SUPPORT. The laws of the buffer memory: read after write, and the canonical form that every memory
operation keeps. -/

namespace Sys2Proof.Machine

@[simp] theorem Memory.read_nil (a : Nat) : Memory.read [] a = none := rfl

theorem Memory.read_cons (b : Nat) (w : Byte) (m : Memory) (a : Nat) :
    Memory.read ((b, w) :: m) a = if a = b then some w else Memory.read m a := by
  unfold Memory.read
  rw [List.lookup_cons]
  by_cases h : a = b
  · subst h; simp
  · simp [h, beq_eq_false_iff_ne.mpr h]

/-- A write is read back. -/
@[simp] theorem Memory.read_write_same (m : Memory) (a : Nat) (v : Byte) :
    Memory.read (Memory.write m a v) a = some v := by
  induction m with
  | nil => simp [Memory.write, Memory.read_cons]
  | cons c m ih =>
    obtain ⟨b, w⟩ := c
    rw [Memory.write]
    split
    · simp [Memory.read_cons]
    · split
      · simp [Memory.read_cons]
      · rename_i h1 h2
        simp [Memory.read_cons, h2, ih]

/-- A write leaves every other address alone. -/
theorem Memory.read_write_other (m : Memory) (a b : Nat) (v : Byte) (h : b ≠ a) :
    Memory.read (Memory.write m a v) b = Memory.read m b := by
  induction m with
  | nil => simp [Memory.write, Memory.read_cons, h]
  | cons c m ih =>
    obtain ⟨d, w⟩ := c
    rw [Memory.write]
    split
    · simp [Memory.read_cons, h]
    · split
      · rename_i h1 h2
        subst h2
        simp [Memory.read_cons, h]
      · simp [Memory.read_cons, ih]

/-- Writing keeps the addresses strictly rising from `lo` and below 65536. -/
theorem Memory.wfFrom_write (m : Memory) (lo a : Nat) (v : Byte) (hlo : lo ≤ a) (ha : a < 65536)
    (h : Memory.wfFrom lo m = true) : Memory.wfFrom lo (Memory.write m a v) = true := by
  induction m generalizing lo with
  | nil => simp [Memory.write, Memory.wfFrom, hlo, ha]
  | cons c m ih =>
    obtain ⟨b, w⟩ := c
    simp only [Memory.wfFrom, Bool.and_eq_true, decide_eq_true_eq] at h
    obtain ⟨⟨h1, h2⟩, h3⟩ := h
    rw [Memory.write]
    split
    · rename_i hab
      simp only [Memory.wfFrom, Bool.and_eq_true, decide_eq_true_eq]
      exact ⟨⟨hlo, ha⟩, ⟨by omega, h2⟩, h3⟩
    · split
      · rename_i hab hab'
        subst hab'
        simp only [Memory.wfFrom, Bool.and_eq_true, decide_eq_true_eq]
        exact ⟨⟨hlo, ha⟩, h3⟩
      · rename_i hab hab'
        simp only [Memory.wfFrom, Bool.and_eq_true, decide_eq_true_eq]
        exact ⟨⟨h1, h2⟩, ih (b + 1) (by omega) h3⟩

/-- Every write to an address that exists keeps the canonical form. -/
theorem Memory.wf_write (m : Memory) (a : Nat) (v : Byte) (ha : a < 65536) (h : Memory.wf m = true) :
    Memory.wf (Memory.write m a v) = true :=
  Memory.wfFrom_write m 0 a v (Nat.zero_le a) ha h

/-- The engine's store keeps the canonical form. -/
theorem memWrite_wf (a : BufAddr) (v : Byte) (s : State) (h : Memory.wf s.mem = true) :
    Memory.wf (memWrite a v s).mem = true :=
  Memory.wf_write s.mem a.toNat v a.isLt h

theorem reset_mem_wf : Memory.wf State.reset.mem = true := rfl

/-- Everything a byte load can do: the byte held and the same state, or, where no byte is held, a free
byte and one free value more drawn. -/
theorem loadByte_cases (a : Nat) (s : State) :
    (∃ b, Memory.read s.mem a = some b ∧ loadByte a s = (s, b)) ∨
    (Memory.read s.mem a = none ∧
      loadByte a s = ({ s with draws := s.draws + 1 }, Config.freeByte s.draws)) := by
  unfold loadByte
  cases h : Memory.read s.mem a with
  | none => exact .inr ⟨rfl, rfl⟩
  | some b => exact .inl ⟨b, rfl, rfl⟩

/-- A byte load changes at most the count of free values. -/
theorem loadByte_state (a : Nat) (s : State) : ∃ d, (loadByte a s).1 = { s with draws := d } := by
  rcases loadByte_cases a s with ⟨b, -, h⟩ | ⟨-, h⟩
  · exact ⟨s.draws, by rw [h]⟩
  · exact ⟨s.draws + 1, by rw [h]⟩

end Sys2Proof.Machine
end

