-- ==== Sys2Proof/Laws/Lines.lean ====
section
/-! SUPPORT. For each line operation (R43 to R49, R90, R91) one lemma that says everything it can do,
whatever the environment answers. -/

namespace Sys2Proof.Machine

open Sys2Proof.Safety

/-- `t` agrees with `s` on everything no line operation touches. -/
structure OnlyLines (s t : State) : Prop where
  st : t.st = s.st
  err : t.err = s.err
  cause : t.cause = s.cause
  dir : t.dir = s.dir
  busy : t.busy = s.busy
  ptr : t.ptr = s.ptr
  len : t.len = s.len
  rsp : t.rsp = s.rsp
  mem : t.mem = s.mem
  rst : t.rst = s.rst
  host : t.host = s.host
  reads : t.reads = s.reads

theorem OnlyLines.refl (s : State) : OnlyLines s s := by constructor <;> rfl

theorem OnlyLines.trans {s t u : State} (h : OnlyLines s t) (k : OnlyLines t u) : OnlyLines s u := by
  obtain ⟨h1, h2, h3, h4, h5, h6, h7, h8, h9, h10, h11, h12⟩ := h
  obtain ⟨k1, k2, k3, k4, k5, k6, k7, k8, k9, k10, k11, k12⟩ := k
  constructor <;> simp_all

/-- From `s` to `t` the questions `l` were asked, and the wire trace grew by exactly their samples. -/
structure Emits (s t : State) (l : List Ask) : Prop where
  asked : t.asked = s.asked ++ l
  wire : t.wire = s.wire ++ l.map sampleOf

theorem Emits.refl (s : State) : Emits s s [] := by constructor <;> simp

theorem Emits.trans {s t u : State} {l m : List Ask} (h : Emits s t l) (k : Emits t u m) :
    Emits s u (l ++ m) := by
  constructor
  · rw [k.asked, h.asked, List.append_assoc]
  · rw [k.wire, h.wire, List.map_append, List.append_assoc]

/-- The registers of R24 and the two drivers, as one value. -/
structure LineRegs where
  scl : Bool
  sda : Bool
  shreg : Byte
  bitcnt : BitVec 4
  att : Nat

/-- The line registers of a state. -/
def lineRegs (s : State) : LineRegs := ⟨s.sclDrv, s.sdaDrv, s.shreg, s.bitcnt, s.att⟩

/-- Everything a question to the environment can do. -/
theorem envLevels_spec (s : State) :
    ∃ env' d, (envLevels s).1 = { s with env := env', draws := d } := by
  unfold envLevels
  split <;> exact ⟨_, _, rfl⟩

/-- Everything one line sample can do (R43). -/
theorem emit_spec (slot : Slot) (poll : Bool) (s : State) :
    ∃ e, (emit slot poll s).2 = wiredAnd (drivers s) e ∧
      Emits s (emit slot poll s).1 [⟨drivers s, e, slot, poll, s.att⟩] ∧
      OnlyLines s (emit slot poll s).1 ∧ lineRegs (emit slot poll s).1 = lineRegs s := by
  obtain ⟨env', d, h⟩ := envLevels_spec s
  refine ⟨(envLevels s).2, ?_, ?_, ?_, ?_⟩
  · simp only [emit, h, drivers]
  · constructor <;> simp only [emit, h, drivers, sampleOf, List.map_cons, List.map_nil]
  · constructor <;> simp only [emit, h]
  · simp only [emit, h, lineRegs]

/-- Everything `DriveSDA` can do (R44). -/
theorem driveSda_spec (slot : Slot) (d : Bool) (s : State) :
    ∃ e, (driveSda slot d s).2 = wiredAnd ⟨s.sclDrv, d⟩ e ∧
      Emits s (driveSda slot d s).1 [⟨⟨s.sclDrv, d⟩, e, slot, false, s.att⟩] ∧
      OnlyLines s (driveSda slot d s).1 ∧
      lineRegs (driveSda slot d s).1 = { lineRegs s with sda := d } := by
  obtain ⟨e, h1, h2, h3, h4⟩ := emit_spec slot false { s with sdaDrv := d }
  exact ⟨e, h1, ⟨h2.asked, h2.wire⟩, ⟨h3.st, h3.err, h3.cause, h3.dir, h3.busy, h3.ptr, h3.len, h3.rsp,
    h3.mem, h3.rst, h3.host, h3.reads⟩, h4⟩

/-- Everything `PullSCL` can do (R45). -/
theorem pullScl_spec (slot : Slot) (s : State) :
    ∃ e, (pullScl slot s).2 = wiredAnd ⟨false, s.sdaDrv⟩ e ∧
      Emits s (pullScl slot s).1 [⟨⟨false, s.sdaDrv⟩, e, slot, false, s.att⟩] ∧
      OnlyLines s (pullScl slot s).1 ∧
      lineRegs (pullScl slot s).1 = { lineRegs s with scl := false } := by
  obtain ⟨e, h1, h2, h3, h4⟩ := emit_spec slot false { s with sclDrv := false }
  exact ⟨e, h1, ⟨h2.asked, h2.wire⟩, ⟨h3.st, h3.err, h3.cause, h3.dir, h3.busy, h3.ptr, h3.len, h3.rsp,
    h3.mem, h3.rst, h3.host, h3.reads⟩, h4⟩

/-- Everything the polling loop of `ReleaseSCL` can do (R46): it polls until the clock is seen high, or
until the failed polls reach the limit. -/
theorem pollScl_spec (lim : Nat) (slot : Slot) (sda : Bool) (fuel : Nat) (s : State)
    (hf : fuel = lim - s.att) (ha : s.att < lim) (hd : drivers s = ⟨true, sda⟩) :
    ∃ lows : List Levels, (∀ e ∈ lows, e.scl = false) ∧
      OnlyLines s (pollScl lim slot fuel s).1 ∧
      lineRegs (pollScl lim slot fuel s).1 = { lineRegs s with att := s.att + lows.length } ∧
      ((s.att + lows.length < lim ∧ ∃ hi : Levels, hi.scl = true ∧
          (pollScl lim slot fuel s).2 = .ok (sda && hi.sda) ∧
          Emits s (pollScl lim slot fuel s).1 (pollAsks ⟨true, sda⟩ slot s.att (lows ++ [hi]))) ∨
       (s.att + lows.length = lim ∧ (pollScl lim slot fuel s).2 = .stall ∧
          Emits s (pollScl lim slot fuel s).1 (pollAsks ⟨true, sda⟩ slot s.att lows))) := by
  induction fuel generalizing s with
  | zero => omega
  | succ n ih =>
    obtain ⟨e, h1, h2, h3, h4⟩ := emit_spec slot true s
    have hatt : (emit slot true s).1.att = s.att := congrArg LineRegs.att h4
    rw [hd] at h1 h2
    rw [pollScl]
    by_cases hs : e.scl = true
    · refine ⟨[], by simp, ?_⟩
      have hscl : (emit slot true s).2.scl = true := by rw [h1]; simp [wiredAnd, hs]
      simp only [hscl, if_true]
      refine ⟨h3, by rw [h4]; rfl, .inl ⟨by simpa using ha, e, hs, ?_, ?_⟩⟩
      · rw [h1]; rfl
      · simpa [pollAsks] using h2
    · have hscl : (emit slot true s).2.scl = false := by rw [h1]; simp [wiredAnd, hs]
      simp only [hscl, Bool.false_eq_true, if_false, hatt]
      by_cases hl : s.att + 1 = lim
      · refine ⟨[e], by simpa using hs, ?_⟩
        simp only [hl, if_true]
        refine ⟨⟨h3.st, h3.err, h3.cause, h3.dir, h3.busy, h3.ptr, h3.len, h3.rsp, h3.mem, h3.rst, h3.host,
          h3.reads⟩, ?_, .inr ⟨by simpa using hl, trivial, ⟨by simpa [pollAsks] using h2.asked, by simpa [pollAsks] using h2.wire⟩⟩⟩
        have := h4
        simp only [lineRegs, LineRegs.mk.injEq, List.length_singleton, hl] at this ⊢
        simp [this]
      · simp only [hl, if_false]
        have hd' : drivers { (emit slot true s).1 with att := s.att + 1 } = ⟨true, sda⟩ := by
          have h5 : drivers (emit slot true s).1 = drivers s :=
            congrArg (fun r : LineRegs => Levels.mk r.scl r.sda) h4
          rw [hd] at h5
          exact h5
        obtain ⟨lows, k1, k2, k3, k4⟩ := ih { (emit slot true s).1 with att := s.att + 1 }
          (by simp only; omega) (by simp only; omega) hd'
        refine ⟨e :: lows, ?_, ?_, ?_, ?_⟩
        · intro x hx
          rcases List.mem_cons.mp hx with rfl | hx
          · simpa using hs
          · exact k1 x hx
        · exact h3.trans ⟨k2.st, k2.err, k2.cause, k2.dir, k2.busy, k2.ptr, k2.len, k2.rsp, k2.mem, k2.rst,
            k2.host, k2.reads⟩
        · rw [k3]
          have := h4
          simp only [lineRegs, LineRegs.mk.injEq, List.length_cons] at this ⊢
          refine ⟨this.1, this.2.1, this.2.2.1, this.2.2.2.1, by omega⟩
        · have hE : ∀ {t l}, Emits { (emit slot true s).1 with att := s.att + 1 } t l → Emits s t (⟨⟨true, sda⟩, e, slot, true, s.att⟩ :: l) :=
            fun h => by
              have h' : Emits (emit slot true s).1 _ _ := ⟨h.asked, h.wire⟩
              simpa using h2.trans h'
          rcases k4 with ⟨a1, hi, a2, a3, a4⟩ | ⟨a1, a2, a3⟩
          · refine .inl ⟨by simp only [List.length_cons] at *; omega, hi, a2, a3, ?_⟩
            exact hE a4
          · refine .inr ⟨by simp only [List.length_cons] at *; omega, a2, ?_⟩
            exact hE a3

end Sys2Proof.Machine
end

