-- ==== Sys2Proof/Laws/Runs.lean ====
section
/-! SUPPORT. What the line operations do to the drivers, to the registers of R24 and to the questions asked,
composed: the bit cells, `AbortRelease`, the fault entry and the frames, whatever the environment answers. -/

namespace Sys2Proof.Machine

open Sys2Proof.Safety

/-! ### Chains of driver values (R50) -/

theorem driversOrderly_append (d : Levels) (l m : List Ask) :
    DriversOrderly d (l ++ m) ↔ DriversOrderly d l ∧ DriversOrderly (lastDrivers d l) m := by
  induction l generalizing d with
  | nil => simp [DriversOrderly, lastDrivers]
  | cons a l ih => simp [DriversOrderly, lastDrivers, ih, and_assoc]

theorem lastDrivers_append (d : Levels) (l m : List Ask) :
    lastDrivers d (l ++ m) = lastDrivers (lastDrivers d l) m := by
  induction l generalizing d with
  | nil => rfl
  | cons a l ih => simpa [lastDrivers] using ih a.drv

theorem driversOrderly_pollAsks (d : Levels) (slot : Slot) (k : Nat) (l : List Levels) :
    DriversOrderly d (pollAsks d slot k l) ∧ lastDrivers d (pollAsks d slot k l) = d := by
  induction l generalizing k with
  | nil => exact ⟨trivial, rfl⟩
  | cons e l ih => exact ⟨⟨⟨.inl rfl, fun h => absurd rfl h⟩, (ih (k + 1)).1⟩, (ih (k + 1)).2⟩

theorem dutyE4_append (lim : Nat) (l m : List Ask) : DutyE4 lim (l ++ m) ↔ DutyE4 lim l ∧ DutyE4 lim m := by
  simp only [DutyE4, List.mem_append]
  exact ⟨fun h => ⟨fun a ha => h a (.inl ha), fun a ha => h a (.inr ha)⟩,
    fun h a ha => ha.elim (h.1 a) (h.2 a)⟩

theorem att_le_failedPolls (a : Ask) : a.att ≤ failedPolls a := by
  unfold failedPolls
  split
  · exact Nat.le_add_left _ _
  · exact Nat.le_refl _

/-- A run of failed polls that reaches the limit breaks duty E4 (R53). -/
theorem pollAsks_breaks_e4 (lim : Nat) (d : Levels) (slot : Slot) (k : Nat) (l : List Levels)
    (hl : ∀ e ∈ l, e.scl = false) (hk : k < lim) (h : k + l.length = lim) :
    ¬ DutyE4 lim (pollAsks d slot k l) := by
  induction l generalizing k with
  | nil => simp only [List.length_nil] at h; omega
  | cons e l ih =>
    intro hd
    have h1 : k + 1 < lim := Nat.lt_of_le_of_lt (Nat.succ_le_succ (att_le_failedPolls ⟨d, e, slot, true, k⟩))
      (hd ⟨d, e, slot, true, k⟩ (by simp [pollAsks]) rfl (hl e (by simp)))
    simp only [List.length_cons] at h
    exact ih (k + 1) (fun x hx => hl x (by simp [hx])) h1 (by omega)
      (fun a ha => hd a (by simp [pollAsks, ha]))

/-- From `s` to `t` only line operations ran: they asked `l`, and moved the drivers as R50 says. -/
structure Runs (s t : State) (l : List Ask) : Prop where
  emits : Emits s t l
  kept : OnlyLines s t
  orderly : DriversOrderly (drivers s) l
  last : lastDrivers (drivers s) l = drivers t

theorem Runs.refl (s : State) : Runs s s [] := ⟨.refl s, .refl s, trivial, rfl⟩

theorem Runs.trans {s t u : State} {l m : List Ask} (h : Runs s t l) (k : Runs t u m) : Runs s u (l ++ m) :=
  ⟨h.emits.trans k.emits, h.kept.trans k.kept,
    (driversOrderly_append _ _ _).2 ⟨h.orderly, by rw [h.last]; exact k.orderly⟩,
    by rw [lastDrivers_append, h.last, k.last]⟩

/-- Writing the registers of R24 is no line operation: no question is asked. -/
theorem Runs.setRegs (s : State) (a : Byte) (b : BitVec 4) (c : Nat) :
    Runs s { s with shreg := a, bitcnt := b, att := c } [] :=
  ⟨⟨by simp, by simp⟩, by constructor <;> rfl, trivial, rfl⟩

theorem drivers_of_lineRegs {s : State} {r : LineRegs} (h : lineRegs s = r) : drivers s = ⟨r.scl, r.sda⟩ := by
  subst h; rfl

/-- `Emit` (R43) as a run. -/
theorem emit_runs (slot : Slot) (poll : Bool) (s : State) :
    ∃ l, Runs s (emit slot poll s).1 l ∧ l.length = 1 ∧ lineRegs (emit slot poll s).1 = lineRegs s := by
  obtain ⟨e, -, h2, h3, h4⟩ := emit_spec slot poll s
  refine ⟨_, ⟨h2, h3, ⟨⟨.inl rfl, fun h => absurd rfl h⟩, trivial⟩, ?_⟩, rfl, h4⟩
  exact (drivers_of_lineRegs h4).symm

/-- `DriveSDA` (R44) as a run, where SCL is held low or a condition is meant. -/
theorem driveSda_runs (slot : Slot) (d : Bool) (s : State) (h : s.sclDrv = false ∨ conditionMeant slot = true) :
    ∃ l, Runs s (driveSda slot d s).1 l ∧ l.length = 1 ∧
      lineRegs (driveSda slot d s).1 = { lineRegs s with sda := d } := by
  obtain ⟨e, -, h2, h3, h4⟩ := driveSda_spec slot d s
  refine ⟨_, ⟨h2, h3, ⟨⟨.inl rfl, fun _ h' => ?_⟩, trivial⟩, ?_⟩, rfl, h4⟩
  · rcases h with h | h
    · simp [drivers, h] at h'
    · exact h
  · exact (drivers_of_lineRegs h4).symm

/-- `PullSCL` (R45) as a run. -/
theorem pullScl_runs (slot : Slot) (s : State) :
    ∃ l, Runs s (pullScl slot s).1 l ∧ l.length = 1 ∧
      lineRegs (pullScl slot s).1 = { lineRegs s with scl := false } := by
  obtain ⟨e, -, h2, h3, h4⟩ := pullScl_spec slot s
  refine ⟨_, ⟨h2, h3, ⟨⟨.inr rfl, fun h => absurd rfl h⟩, trivial⟩, ?_⟩, rfl, h4⟩
  exact (drivers_of_lineRegs h4).symm

/-- Everything `ReleaseSCL` can do (R46): `att` grows by the failed polls and stays below the limit, or the
wait is given up at the limit, which breaks duty E4. -/
theorem releaseScl_runs (lim : Nat) (slot : Slot) (s : State) (ha : s.att < lim) :
    ∃ l k, Runs s (releaseScl lim slot s).1 l ∧
      lineRegs (releaseScl lim slot s).1 = { lineRegs s with scl := true, att := s.att + k } ∧
      ((s.att + k < lim ∧ l.length = k + 1 ∧ ∃ v, (releaseScl lim slot s).2 = .ok v) ∨
       (s.att + k = lim ∧ l.length = k ∧ (releaseScl lim slot s).2 = .stall ∧ ¬ DutyE4 lim l)) := by
  have pollAsks_length : ∀ (d : Levels) (j : Nat) (l : List Levels), (pollAsks d slot j l).length = l.length := by
    intro d j l
    induction l generalizing j with
    | nil => rfl
    | cons e l ih => simp [pollAsks, ih]
  obtain ⟨lows, h1, h2, h3, h4⟩ := pollScl_spec lim slot s.sdaDrv (lim - s.att) { s with sclDrv := true }
    rfl ha rfl
  have mk : ∀ l, lows.length < l.length ∨ 0 < lows.length →
      Emits { s with sclDrv := true } (releaseScl lim slot s).1 (pollAsks ⟨true, s.sdaDrv⟩ slot s.att l) →
      l ≠ [] → Runs s (releaseScl lim slot s).1 (pollAsks ⟨true, s.sdaDrv⟩ slot s.att l) := by
    intro l _ he hne
    obtain ⟨e, rest, rfl⟩ := List.exists_cons_of_ne_nil hne
    refine ⟨⟨he.asked, he.wire⟩, ⟨h2.st, h2.err, h2.cause, h2.dir, h2.busy, h2.ptr, h2.len, h2.rsp, h2.mem,
      h2.rst, h2.host, h2.reads⟩, ⟨⟨.inr rfl, fun h => absurd rfl h⟩, ?_⟩, ?_⟩
    · exact (driversOrderly_pollAsks _ _ _ _).1
    · exact (driversOrderly_pollAsks _ _ _ _).2.trans (drivers_of_lineRegs h3).symm
  rcases h4 with ⟨a1, hi, a2, a3, a4⟩ | ⟨a1, a2, a3⟩
  · exact ⟨_, lows.length, mk _ (.inl (by simp)) a4 (by simp), h3,
      .inl ⟨a1, by simp [pollAsks_length], _, a3⟩⟩
  · have hpos : 0 < lows.length := by simp only at a1; omega
    exact ⟨_, lows.length, mk _ (.inr hpos) a3 (List.ne_nil_of_length_pos hpos), h3,
      .inr ⟨a1, pollAsks_length _ _ _, a2, pollAsks_breaks_e4 lim _ _ _ _ h1 ha a1⟩⟩

theorem rxBit_eq (lim : Nat) (slot : Slot) (s : State) : rxBit lim slot s = txBit lim slot true s := rfl

/-- Everything a bit cell can do (R47, R48). -/
theorem txBit_runs (lim : Nat) (slot : Slot) (b : Bool) (s : State) (ha : s.att < lim) (hs : s.sclDrv = false) :
    ∃ l k, Runs s (txBit lim slot b s).1 l ∧
      ((s.att + k < lim ∧ l.length = k + 3 ∧ (∃ v, (txBit lim slot b s).2 = .ok v) ∧
          lineRegs (txBit lim slot b s).1 = { lineRegs s with scl := false, sda := b, att := s.att + k }) ∨
       (s.att + k = lim ∧ l.length = k + 1 ∧ (txBit lim slot b s).2 = .stall ∧ ¬ DutyE4 lim l ∧
          lineRegs (txBit lim slot b s).1 = { lineRegs s with scl := true, sda := b, att := lim })) := by
  obtain ⟨l1, r1, n1, g1⟩ := driveSda_runs slot b s (.inl hs)
  have hatt : (driveSda slot b s).1.att = s.att := congrArg LineRegs.att g1
  obtain ⟨l2, k, r2, g2, h⟩ := releaseScl_runs lim slot (driveSda slot b s).1 (by rw [hatt]; exact ha)
  rw [hatt, g1] at g2
  rw [hatt] at h
  obtain ⟨u, r, hq⟩ : ∃ u r, releaseScl lim slot (driveSda slot b s).1 = (u, r) := ⟨_, _, rfl⟩
  rw [hq] at r2 g2 h
  unfold txBit
  rw [hq]
  rcases h with ⟨h1, h2, v, h3⟩ | ⟨h1, h2, h3, h4⟩ <;> obtain rfl : r = _ := h3
  · obtain ⟨l3, r3, n3, g3⟩ := pullScl_runs slot u
    rw [g2] at g3
    exact ⟨l1 ++ l2 ++ l3, k, (r1.trans r2).trans r3,
      .inl ⟨h1, by simp only [List.length_append]; omega, ⟨v, rfl⟩, g3⟩⟩
  · exact ⟨l1 ++ l2, k, r1.trans r2, .inr ⟨h1, by simp only [List.length_append]; omega, rfl,
      fun h => h4 ((dutyE4_append lim l1 l2).1 h).2, by rw [← h1]; exact g2⟩⟩

/-- Everything `AbortRelease` can do (R49): both drivers released, `att` at most the limit, and the number of
samples by the drivers before. -/
theorem abortRelease_runs (lim before : Nat) (s : State) (hl : 0 < lim) :
    ∃ l k, Runs s (abortRelease lim before s) l ∧ k ≤ lim ∧
      lineRegs (abortRelease lim before s) = { lineRegs s with scl := true, sda := true, att := k } ∧
      (s.sclDrv = false → 3 ≤ l.length ∧ l.length ≤ lim + 2) ∧
      (s.sclDrv = true → k = 0) ∧
      (s.sclDrv = true → s.sdaDrv = false → l.length = 1) ∧
      (s.sclDrv = true → s.sdaDrv = true → l = []) := by
  unfold abortRelease
  simp only
  by_cases h1 : s.sclDrv = false
  · rw [if_pos h1]
    obtain ⟨l1, r1, n1, g1⟩ := driveSda_runs (.release before) false { s with att := 0 } (.inr rfl)
    have hatt : (driveSda (.release before) false { s with att := 0 }).1.att = 0 := congrArg LineRegs.att g1
    obtain ⟨l2, k, r2, g2, h⟩ := releaseScl_runs lim (.release before) (driveSda (.release before) false { s with att := 0 }).1
      (by rw [hatt]; exact hl)
    rw [hatt, g1] at g2
    rw [hatt] at h
    obtain ⟨l3, r3, n3, g3⟩ := driveSda_runs (.release before) true
      (releaseScl lim (.release before) (driveSda (.release before) false { s with att := 0 }).1).1 (.inr rfl)
    rw [g2] at g3
    have r := (r1.trans r2).trans r3
    refine ⟨_, 0 + k, ⟨⟨r.emits.asked, r.emits.wire⟩, ⟨r.kept.st, r.kept.err, r.kept.cause, r.kept.dir, r.kept.busy,
      r.kept.ptr, r.kept.len, r.kept.rsp, r.kept.mem, r.kept.rst, r.kept.host, r.kept.reads⟩, r.orderly, r.last⟩,
      ?_, g3, ?_, ?_, ?_, ?_⟩
    · omega
    · intro _
      simp only [List.length_append]
      omega
    all_goals intro h; simp [h1] at h
  · have h2 : s.sclDrv = true := by simpa using h1
    rw [if_neg h1]
    by_cases h3 : s.sdaDrv = false
    · rw [if_pos h3]
      obtain ⟨l1, r, n1, g1⟩ := driveSda_runs (.release before) true { s with att := 0 } (.inr rfl)
      refine ⟨l1, 0, ⟨⟨r.emits.asked, r.emits.wire⟩, ⟨r.kept.st, r.kept.err, r.kept.cause, r.kept.dir, r.kept.busy,
        r.kept.ptr, r.kept.len, r.kept.rsp, r.kept.mem, r.kept.rst, r.kept.host, r.kept.reads⟩, r.orderly, r.last⟩,
        Nat.zero_le _, ?_, ?_, fun _ => rfl, fun _ _ => n1, ?_⟩
      · rw [g1]; simp [lineRegs, h2]
      · intro h; simp [h2] at h
      · intro _ h; simp [h3] at h
    · have h4 : s.sdaDrv = true := by simpa using h3
      rw [if_neg h3]
      refine ⟨[], 0, ⟨⟨by simp, by simp⟩, by constructor <;> rfl, trivial, rfl⟩, Nat.zero_le _, ?_, ?_,
        fun _ => rfl, ?_, fun _ _ => rfl⟩
      · simp [lineRegs, h2, h4]
      · intro h; simp [h2] at h
      · intro _ h; simp [h4] at h

/-- Everything the fault entry can do (R124): what it writes, what it keeps, and the released bus. -/
theorem enterError_spec (lim : Nat) (c : Cause) (s : State) (hl : 0 < lim) :
    ∃ l k, Runs { s with err := true, cause := c, st := .error } (enterError lim c s) l ∧ k ≤ lim ∧
      lineRegs (enterError lim c s) = { lineRegs s with scl := true, sda := true, att := k } ∧
      (s.sclDrv = false → 3 ≤ l.length ∧ l.length ≤ lim + 2) ∧
      (s.sclDrv = true → k = 0) ∧
      (s.sclDrv = true → s.sdaDrv = false → l.length = 1) ∧
      (s.sclDrv = true → s.sdaDrv = true → l = []) :=
  abortRelease_runs lim _ { s with err := true, cause := c, st := .error } hl

/-! ### Frames -/

/-- Everything the data cells of a sent byte can do (R90). -/
theorem txBits_runs (lim : Nat) (k : Nat) (s : State) (ha : s.att < lim) (hs : s.sclDrv = false) :
    ∃ l j, Runs s (txBits lim k s).1 l ∧ (txBits lim k s).1.shreg = s.shreg ∧
      (((txBits lim k s).2 = true ∧ s.att + j < lim ∧ l.length = j + 3 * k ∧
          (txBits lim k s).1.att = s.att + j ∧ (txBits lim k s).1.sclDrv = false) ∨
       ((txBits lim k s).2 = false ∧ (txBits lim k s).1.att = lim ∧ (txBits lim k s).1.sclDrv = true ∧
          ¬ DutyE4 lim l ∧ l.length + s.att + 2 ≤ lim + 3 * k)) := by
  induction k generalizing s with
  | zero => exact ⟨[], 0, .refl s, rfl, .inl ⟨rfl, by simpa using ha, rfl, rfl, hs⟩⟩
  | succ k ih =>
    obtain ⟨l1, j, r1, h⟩ := txBit_runs lim .tx (s.shreg.getLsbD k) { s with bitcnt := BitVec.ofNat 4 (7 - k) } ha hs
    replace r1 := (Runs.setRegs s s.shreg (BitVec.ofNat 4 (7 - k)) s.att).trans r1
    rw [txBits]
    obtain ⟨u, r, hq⟩ : ∃ u r, txBit lim .tx (s.shreg.getLsbD k) { s with bitcnt := BitVec.ofNat 4 (7 - k) } = (u, r) :=
      ⟨_, _, rfl⟩
    rw [hq] at r1 h ⊢
    rcases h with ⟨h1, h2, ⟨v, h3⟩, h4⟩ | ⟨h1, h2, h3, h4, h5⟩ <;> obtain rfl : r = _ := h3
    · simp only at h1 h4 ⊢
      have e1 : u.att = s.att + j := congrArg LineRegs.att h4
      have e2 : u.sclDrv = false := congrArg LineRegs.scl h4
      have e3 : u.shreg = s.shreg := congrArg LineRegs.shreg h4
      obtain ⟨l2, i, r2, g1, g⟩ := ih u (by rw [e1]; exact h1) e2
      refine ⟨l1 ++ l2, j + i, by simpa using r1.trans r2, g1.trans e3, ?_⟩
      rw [e1] at g
      rcases g with ⟨g2, g3, g4, g5, g6⟩ | ⟨g2, g3, g4, g5, g6⟩
      · exact .inl ⟨g2, by omega, by simp only [List.length_append] at *; omega, by omega, g6⟩
      · exact .inr ⟨g2, g3, g4, fun h => g5 ((dutyE4_append lim l1 l2).1 h).2, by
          simp only [List.length_append] at *; omega⟩
    · exact ⟨l1, j, by simpa using r1, congrArg LineRegs.shreg h5,
        .inr ⟨rfl, congrArg LineRegs.att h5, congrArg LineRegs.scl h5, h4, by simp only at *; omega⟩⟩

/-- Everything `TxByte` can do (R90). -/
theorem txByte_runs (lim : Nat) (b : Byte) (s : State) (ha : s.att < lim) (hs : s.sclDrv = false) :
    ∃ l j, Runs s (txByte lim b s).1 l ∧ (txByte lim b s).1.shreg = b ∧
      ((((txByte lim b s).2 = .ack ∨ (txByte lim b s).2 = .nack) ∧ s.att + j < lim ∧ l.length = j + 27 ∧
          lineRegs (txByte lim b s).1 = ⟨false, true, b, 0#4, s.att + j⟩) ∨
       ((txByte lim b s).2 = .stall ∧ (txByte lim b s).1.att = lim ∧ (txByte lim b s).1.sclDrv = true ∧
          ¬ DutyE4 lim l ∧ l.length + s.att ≤ lim + 25)) := by
  obtain ⟨l1, j, r1, g1, g⟩ := txBits_runs lim 8 { s with shreg := b } ha hs
  replace r1 := (Runs.setRegs s b s.bitcnt s.att).trans r1
  obtain ⟨u, r, hq⟩ : ∃ u r, txBits lim 8 { s with shreg := b } = (u, r) := ⟨_, _, rfl⟩
  unfold txByte
  rw [hq] at r1 g1 g ⊢
  rcases g with ⟨g2, g3, g4, g5, g6⟩ | ⟨g2, g3, g4, g5, g6⟩ <;> obtain rfl : r = _ := g2
  · obtain ⟨l2, i, r2, h⟩ := txBit_runs lim .ack true { u with bitcnt := 8#4 } (by simp only at *; omega) g6
    replace r2 := (Runs.setRegs u u.shreg 8#4 u.att).trans r2
    simp only [rxBit_eq]
    obtain ⟨w, q, hw⟩ : ∃ w q, txBit lim .ack true { u with bitcnt := 8#4 } = (w, q) := ⟨_, _, rfl⟩
    rw [hw] at r2 h ⊢
    rcases h with ⟨h1, h2, ⟨v, h3⟩, h4⟩ | ⟨h1, h2, h3, h4, h5⟩ <;> obtain rfl : q = _ := h3
    · have e : w.shreg = b := (congrArg LineRegs.shreg h4).trans g1
      refine ⟨l1 ++ l2, j + i, ?_, e, .inl ⟨by cases v <;> simp, ?_, ?_, ?_⟩⟩
      · have r3 := (r1.trans r2).trans (Runs.setRegs w w.shreg 0#4 w.att)
        simpa using r3
      · simp only at *; omega
      · simp only [List.length_append] at *; omega
      · simp only [lineRegs, LineRegs.mk.injEq] at h4 ⊢
        simp only at *
        refine ⟨h4.1, h4.2.1, h4.2.2.1.trans g1, trivial, by omega⟩
    · exact ⟨l1 ++ l2, j + i, by simpa using r1.trans r2, (congrArg LineRegs.shreg h5).trans g1,
        .inr ⟨rfl, congrArg LineRegs.att h5, congrArg LineRegs.scl h5, fun h => h4 ((dutyE4_append lim l1 l2).1 h).2, by
          simp only [List.length_append] at *; omega⟩⟩
  · exact ⟨l1, j, by simpa using r1, g1, .inr ⟨rfl, g3, g4, g5, by simp only at *; omega⟩⟩

/-- Everything the data cells of a received byte can do (R91). -/
theorem rxBits_runs (lim : Nat) (k : Nat) (s : State) (ha : s.att < lim) (hs : s.sclDrv = false) :
    ∃ l j, Runs s (rxBits lim k s).1 l ∧
      (((rxBits lim k s).2 = true ∧ s.att + j < lim ∧ l.length = j + 3 * k ∧
          (rxBits lim k s).1.att = s.att + j ∧ (rxBits lim k s).1.sclDrv = false) ∨
       ((rxBits lim k s).2 = false ∧ (rxBits lim k s).1.att = lim ∧ (rxBits lim k s).1.sclDrv = true ∧
          ¬ DutyE4 lim l ∧ l.length + s.att + 2 ≤ lim + 3 * k)) := by
  induction k generalizing s with
  | zero => exact ⟨[], 0, .refl s, .inl ⟨rfl, by simpa using ha, rfl, rfl, hs⟩⟩
  | succ k ih =>
    obtain ⟨l1, j, r1, h⟩ := txBit_runs lim .rx true { s with bitcnt := BitVec.ofNat 4 (7 - k) } ha hs
    replace r1 := (Runs.setRegs s s.shreg (BitVec.ofNat 4 (7 - k)) s.att).trans r1
    rw [rxBits, rxBit_eq]
    obtain ⟨u, r, hq⟩ : ∃ u r, txBit lim .rx true { s with bitcnt := BitVec.ofNat 4 (7 - k) } = (u, r) := ⟨_, _, rfl⟩
    rw [hq] at r1 h ⊢
    rcases h with ⟨h1, h2, ⟨v, h3⟩, h4⟩ | ⟨h1, h2, h3, h4, h5⟩ <;> obtain rfl : r = _ := h3
    · simp only at h1 h4 ⊢
      have e1 : u.att = s.att + j := congrArg LineRegs.att h4
      have e2 : u.sclDrv = false := congrArg LineRegs.scl h4
      have r0 := Runs.setRegs u (shiftIn u.shreg v) u.bitcnt u.att
      obtain ⟨w, hw⟩ : ∃ w, w = { u with shreg := shiftIn u.shreg v } := ⟨_, rfl⟩
      replace e1 : w.att = s.att + j := by rw [hw]; exact e1
      replace e2 : w.sclDrv = false := by rw [hw]; exact e2
      rw [← hw] at r0 ⊢
      obtain ⟨l2, i, r2, g⟩ := ih w (by rw [e1]; exact h1) e2
      refine ⟨l1 ++ l2, j + i, by simpa using (r1.trans r0).trans r2, ?_⟩
      rw [e1] at g
      rcases g with ⟨g2, g3, g4, g5, g6⟩ | ⟨g2, g3, g4, g5, g6⟩
      · exact .inl ⟨g2, by omega, by simp only [List.length_append] at *; omega, by omega, g6⟩
      · exact .inr ⟨g2, g3, g4, fun h => g5 ((dutyE4_append lim l1 l2).1 h).2, by
          simp only [List.length_append] at *; omega⟩
    · exact ⟨l1, j, by simpa using r1, .inr ⟨rfl, congrArg LineRegs.att h5, congrArg LineRegs.scl h5, h4, by simp only at *; omega⟩⟩

/-- Everything `RxByte` can do (R91). -/
theorem rxByte_runs (lim : Nat) (nak : Bool) (s : State) (ha : s.att < lim) (hs : s.sclDrv = false) :
    ∃ l j, Runs s (rxByte lim nak s).1 l ∧
      ((∃ b, (rxByte lim nak s).2 = some b ∧ s.att + j < lim ∧ l.length = j + 27 ∧
          lineRegs (rxByte lim nak s).1 = ⟨false, nak, b, 0#4, s.att + j⟩) ∨
       ((rxByte lim nak s).2 = none ∧ (rxByte lim nak s).1.att = lim ∧ (rxByte lim nak s).1.sclDrv = true ∧
          ¬ DutyE4 lim l ∧ l.length + s.att ≤ lim + 25)) := by
  obtain ⟨l1, j, r1, g⟩ := rxBits_runs lim 8 { s with shreg := 0#8 } ha hs
  replace r1 := (Runs.setRegs s 0#8 s.bitcnt s.att).trans r1
  obtain ⟨u, r, hq⟩ : ∃ u r, rxBits lim 8 { s with shreg := 0#8 } = (u, r) := ⟨_, _, rfl⟩
  unfold rxByte
  rw [hq] at r1 g ⊢
  rcases g with ⟨g2, g3, g4, g5, g6⟩ | ⟨g2, g3, g4, g5, g6⟩ <;> obtain rfl : r = _ := g2
  · obtain ⟨l2, i, r2, h⟩ := txBit_runs lim .tx nak { u with bitcnt := 8#4 } (by simp only at *; omega) g6
    replace r2 := (Runs.setRegs u u.shreg 8#4 u.att).trans r2
    simp only
    obtain ⟨w, q, hw⟩ : ∃ w q, txBit lim .tx nak { u with bitcnt := 8#4 } = (w, q) := ⟨_, _, rfl⟩
    rw [hw] at r2 h ⊢
    rcases h with ⟨h1, h2, ⟨v, h3⟩, h4⟩ | ⟨h1, h2, h3, h4, h5⟩ <;> obtain rfl : q = _ := h3
    · refine ⟨l1 ++ l2, j + i, ?_, .inl ⟨w.shreg, rfl, ?_, ?_, ?_⟩⟩
      · have r3 := (r1.trans r2).trans (Runs.setRegs w w.shreg 0#4 w.att)
        simpa using r3
      · simp only at *; omega
      · simp only [List.length_append] at *; omega
      · simp only [lineRegs, LineRegs.mk.injEq] at h4 ⊢
        simp only at *
        refine ⟨h4.1, h4.2.1, trivial, trivial, by omega⟩
    · exact ⟨l1 ++ l2, j + i, by simpa using r1.trans r2,
        .inr ⟨rfl, congrArg LineRegs.att h5, congrArg LineRegs.scl h5, fun h => h4 ((dutyE4_append lim l1 l2).1 h).2, by
          simp only [List.length_append] at *; omega⟩⟩
  · exact ⟨l1, j, by simpa using r1, .inr ⟨rfl, g3, g4, g5, by simp only at *; omega⟩⟩

end Sys2Proof.Machine
end

