-- ==== Sys2Proof/Laws/Commands.lean ====
section
/-! SUPPORT. For each primitive command one lemma that says everything `do X` (R112) can do, whatever the
environment answers, and the same for the loops of the block transfers. -/

namespace Sys2Proof.Machine

open Sys2Proof.Safety

/-- What no primitive command touches before its response. -/
structure Kept (s t : State) : Prop where
  busy : t.busy = s.busy
  ptr : t.ptr = s.ptr
  len : t.len = s.len
  rsp : t.rsp = s.rsp
  mem : t.mem = s.mem
  rst : t.rst = s.rst
  host : t.host = s.host
  reads : t.reads = s.reads

theorem Kept.refl (s : State) : Kept s s := by constructor <;> rfl

theorem Kept.trans {s t u : State} (h : Kept s t) (k : Kept t u) : Kept s u := by
  obtain ⟨h1, h2, h3, h4, h5, h6, h7, h8⟩ := h
  obtain ⟨k1, k2, k3, k4, k5, k6, k7, k8⟩ := k
  constructor <;> simp_all

/-- From `s` to `t` a primitive command ran (without its response) and asked `l`. -/
structure Prim (s t : State) (l : List Ask) : Prop where
  emits : Emits s t l
  kept : Kept s t
  orderly : DriversOrderly (drivers s) l
  last : lastDrivers (drivers s) l = drivers t

theorem Prim.refl (s : State) : Prim s s [] := ⟨.refl s, .refl s, trivial, rfl⟩

theorem Prim.trans {s t u : State} {l m : List Ask} (h : Prim s t l) (k : Prim t u m) : Prim s u (l ++ m) :=
  ⟨h.emits.trans k.emits, h.kept.trans k.kept,
    (driversOrderly_append _ _ _).2 ⟨h.orderly, by rw [h.last]; exact k.orderly⟩,
    by rw [lastDrivers_append, h.last, k.last]⟩

theorem Runs.prim {s t : State} {l : List Ask} (h : Runs s t l) : Prim s t l :=
  ⟨h.emits, ⟨h.kept.busy, h.kept.ptr, h.kept.len, h.kept.rsp, h.kept.mem, h.kept.rst, h.kept.host, h.kept.reads⟩,
    h.orderly, h.last⟩

/-- Writing the engine's own registers asks nothing. -/
theorem Prim.setEngine (s : State) (st : St) (err : Bool) (cause : Cause) (dir : Dir) (a : Byte) (b : BitVec 4)
    (c : Nat) :
    Prim s { s with st := st, err := err, cause := cause, dir := dir, shreg := a, bitcnt := b, att := c } [] :=
  ⟨⟨by simp, by simp⟩, by constructor <;> rfl, trivial, rfl⟩

/-- Drawing a free value asks the environment nothing. -/
theorem Prim.setDraws (s : State) (d : Nat) : Prim s { s with draws := d } [] :=
  ⟨⟨by simp, by simp⟩, by constructor <;> rfl, trivial, rfl⟩

/-- A fault ended the command (R124): what it leaves. A stall broke duty E4 of the environment. -/
structure Faulted (lim : Nat) (t : State) (l : List Ask) : Prop where
  err : t.err = true
  st : t.st = .error
  scl : t.sclDrv = true
  sda : t.sdaDrv = true
  att : t.att ≤ lim
  cause : t.cause = .nack ∨ t.cause = .proto ∨ (t.cause = .stall ∧ ¬ DutyE4 lim l)

/-- The fault entry at the end of a command that asked `l` before it (R124). -/
theorem enterError_faulted (lim : Nat) (c : Cause) (s u : State) (l : List Ask) (hl : 0 < lim)
    (h : Prim s u l) (hc : c = .nack ∨ c = .proto ∨ (c = .stall ∧ ¬ DutyE4 lim l)) :
    ∃ m, Prim s (enterError lim c u) (l ++ m) ∧ Faulted lim (enterError lim c u) (l ++ m) ∧
      (enterError lim c u).cause = c ∧ (enterError lim c u).dir = u.dir ∧
      (enterError lim c u).shreg = u.shreg ∧ (enterError lim c u).bitcnt = u.bitcnt ∧
      (u.sclDrv = true → u.sdaDrv = true → m = []) ∧ m.length ≤ lim + 2 := by
  obtain ⟨m, k, r, hk, g, h3, h4, h5, h6⟩ := enterError_spec lim c u hl
  have p := (Prim.setEngine u .error true c u.dir u.shreg u.bitcnt u.att).trans r.prim
  refine ⟨m, by simpa using h.trans p, ⟨r.kept.err, r.kept.st, congrArg LineRegs.scl g, congrArg LineRegs.sda g,
    ?_, ?_⟩, r.kept.cause, r.kept.dir, congrArg LineRegs.shreg g, congrArg LineRegs.bitcnt g, h6, ?_⟩
  · rw [show (enterError lim c u).att = k from congrArg LineRegs.att g]; exact hk
  · rw [show (enterError lim c u).cause = c from r.kept.cause]
    rcases hc with hc | hc | ⟨hc, hd⟩
    · exact .inl hc
    · exact .inr (.inl hc)
    · exact .inr (.inr ⟨hc, fun h => hd ((dutyE4_append lim l m).1 h).1⟩)
  · cases hs : u.sclDrv with
    | false => exact (h3 hs).2
    | true =>
      cases hd : u.sdaDrv with
      | false => rw [h5 hs hd]; omega
      | true => rw [h6 hs hd]; simp

/-- A protocol violation (R122, R124). -/
theorem proto_faulted (lim : Nat) (s : State) (hl : 0 < lim) :
    ∃ l, Prim s (enterError lim .proto s) l ∧ Faulted lim (enterError lim .proto s) l ∧
      (enterError lim .proto s).cause = .proto ∧ (enterError lim .proto s).dir = s.dir ∧
      (enterError lim .proto s).shreg = s.shreg ∧ (enterError lim .proto s).bitcnt = s.bitcnt ∧
      l.length ≤ lim + 2 := by
  obtain ⟨m, h1, h2, h3, h4, h5, h6, -, h7⟩ :=
    enterError_faulted lim .proto s s [] hl (.refl s) (.inr (.inl rfl))
  exact ⟨m, by simpa using h1, by simpa using h2, h3, h4, h5, h6, h7⟩

/-- The engine's own registers may be written after a run of line operations. -/
theorem Prim.thenSet {s t : State} {l : List Ask} (h : Prim s t l) (st : St) (err : Bool) (cause : Cause) (dir : Dir)
    (a : Byte) (b : BitVec 4) (c : Nat) :
    Prim s { t with st := st, err := err, cause := cause, dir := dir, shreg := a, bitcnt := b, att := c } l := by
  simpa using h.trans (Prim.setEngine t st err cause dir a b c)

/-- The engine's own registers may be written before a run of line operations. -/
theorem Prim.fromSet {s t : State} {l : List Ask} {st : St} {err : Bool} {cause : Cause} {dir : Dir}
    {a : Byte} {b : BitVec 4} {c : Nat}
    (h : Prim { s with st := st, err := err, cause := cause, dir := dir, shreg := a, bitcnt := b, att := c } t l) :
    Prim s t l := by
  simpa using (Prim.setEngine s st err cause dir a b c).trans h

/-- Everything `do START` can do (R81). -/
theorem doStart_cases (lim : Nat) (s : State) :
    (s.st = .error ∧ doStart lim s = (s, false)) ∨
    (s.st ≠ .error ∧ s.st ≠ .idle ∧ doStart lim s = (enterError lim .proto s, false)) ∨
    (s.st = .idle ∧ ∃ t l, doStart lim s = (t, true) ∧ Prim s t l ∧ l.length = 3 ∧ t.st = .start ∧
      t.err = s.err ∧ t.cause = s.cause ∧ t.dir = s.dir ∧ lineRegs t = ⟨false, false, s.shreg, s.bitcnt, 0⟩) := by
  unfold doStart
  by_cases h1 : s.st = .error
  · exact .inl ⟨h1, if_pos h1⟩
  by_cases h2 : s.st ≠ .idle
  · exact .inr (.inl ⟨h1, h2, by rw [if_neg h1, if_pos h2]⟩)
  refine .inr (.inr ⟨Decidable.not_not.mp h2, ?_⟩)
  simp only [if_neg h1, if_neg h2]
  obtain ⟨l1, r1, n1, g1⟩ := emit_runs .idleBus false { s with att := 0 }
  generalize (emit .idleBus false { s with att := 0 }).1 = u1 at r1 g1 ⊢
  obtain ⟨l2, r2, n2, g2⟩ := driveSda_runs .framing false u1 (.inr rfl)
  generalize (driveSda .framing false u1).1 = u2 at r2 g2 ⊢
  obtain ⟨l3, r3, n3, g3⟩ := pullScl_runs .framing u2
  generalize (pullScl .framing u2).1 = u3 at r3 g3 ⊢
  rw [g2, g1] at g3
  have r := (r1.trans r2).trans r3
  exact ⟨_, _, rfl, (Prim.fromSet r.prim).thenSet _ _ _ _ _ _ _, by simp [n1, n2, n3], rfl, r.kept.err, r.kept.cause,
    r.kept.dir, g3⟩

/-- Everything `do STOP` can do (R82). -/
theorem doStop_cases (lim : Nat) (s : State) (hl : 0 < lim) :
    (s.st = .error ∧ doStop lim s = (s, false)) ∨
    (s.st ≠ .error ∧ s.st ≠ .data ∧ doStop lim s = (enterError lim .proto s, false)) ∨
    (s.st = .data ∧ ∃ t l, Prim s t l ∧
      ((doStop lim s = (t, true) ∧ t.st = .idle ∧ t.err = s.err ∧ t.cause = s.cause ∧ t.dir = .write ∧
          ∃ k < lim, l.length = k + 3 ∧ lineRegs t = ⟨true, true, s.shreg, s.bitcnt, k⟩) ∨
       (doStop lim s = (t, false) ∧ Faulted lim t l ∧ t.cause = .stall ∧ t.dir = s.dir ∧ t.shreg = s.shreg ∧
          t.bitcnt = s.bitcnt ∧ l.length ≤ 2 * lim + 3))) := by
  unfold doStop
  by_cases h1 : s.st = .error
  · exact .inl ⟨h1, if_pos h1⟩
  by_cases h2 : s.st ≠ .data
  · exact .inr (.inl ⟨h1, h2, by rw [if_neg h1, if_pos h2]⟩)
  refine .inr (.inr ⟨Decidable.not_not.mp h2, ?_⟩)
  simp only [if_neg h1, if_neg h2]
  obtain ⟨l1, r1, n1, g1⟩ := driveSda_runs .framing false { s with att := 0, st := .stop } (.inr rfl)
  generalize (driveSda .framing false { s with att := 0, st := .stop }).1 = u1 at r1 g1 ⊢
  have hatt : u1.att = 0 := congrArg LineRegs.att g1
  obtain ⟨l2, k, r2, g2, h⟩ := releaseScl_runs lim .framing u1 (by rw [hatt]; exact hl)
  obtain ⟨u2, w, hq⟩ : ∃ u w, releaseScl lim .framing u1 = (u, w) := ⟨_, _, rfl⟩
  rw [hq] at r2 g2 h ⊢
  rw [hatt, g1] at g2
  rw [hatt] at h
  rcases h with ⟨a1, a2, v, a3⟩ | ⟨a1, a2, a3, a4⟩ <;> obtain rfl : w = _ := a3
  · simp only
    obtain ⟨l3, r3, n3, g3⟩ := driveSda_runs .framing true u2 (.inr rfl)
    generalize (driveSda .framing true u2).1 = u3 at r3 g3 ⊢
    simp only at g2
    rw [g2] at g3
    have r := (r1.trans r2).trans r3
    refine ⟨_, _, (Prim.fromSet r.prim).thenSet _ _ _ _ _ _ _, .inl ⟨rfl, rfl, r.kept.err, r.kept.cause, rfl, 0 + k, a1, ?_, g3⟩⟩
    simp only [List.length_append]
    omega
  · simp only
    have r := r1.trans r2
    obtain ⟨m, f1, f2, f3, f4, f5, f6, -, f7⟩ := enterError_faulted lim .stall s u2 (l1 ++ l2) hl (Prim.fromSet r.prim)
      (.inr (.inr ⟨rfl, fun h => a4 ((dutyE4_append lim l1 l2).1 h).2⟩))
    exact ⟨_, _, f1, .inr ⟨rfl, f2, f3, f4.trans r.kept.dir, f5.trans (congrArg LineRegs.shreg g2),
      f6.trans (congrArg LineRegs.bitcnt g2), by simp only [List.length_append]; omega⟩⟩

/-- Everything `do RSTART` can do (R83). -/
theorem doRstart_cases (lim : Nat) (s : State) (hl : 0 < lim) :
    (s.st = .error ∧ doRstart lim s = (s, false)) ∨
    (s.st ≠ .error ∧ s.st ≠ .data ∧ doRstart lim s = (enterError lim .proto s, false)) ∨
    (s.st = .data ∧ ∃ t l, Prim s t l ∧
      ((doRstart lim s = (t, true) ∧ t.st = .rstart ∧ t.err = s.err ∧ t.cause = s.cause ∧ t.dir = s.dir ∧
          ∃ k < lim, l.length = k + 4 ∧ lineRegs t = ⟨false, false, s.shreg, s.bitcnt, k⟩) ∨
       (doRstart lim s = (t, false) ∧ Faulted lim t l ∧ t.cause = .stall ∧ t.dir = s.dir ∧ t.shreg = s.shreg ∧
          t.bitcnt = s.bitcnt ∧ l.length ≤ 2 * lim + 3))) := by
  unfold doRstart
  by_cases h1 : s.st = .error
  · exact .inl ⟨h1, if_pos h1⟩
  by_cases h2 : s.st ≠ .data
  · exact .inr (.inl ⟨h1, h2, by rw [if_neg h1, if_pos h2]⟩)
  refine .inr (.inr ⟨Decidable.not_not.mp h2, ?_⟩)
  simp only [if_neg h1, if_neg h2]
  obtain ⟨l1, r1, n1, g1⟩ := driveSda_runs .framing true { s with att := 0 } (.inr rfl)
  generalize (driveSda .framing true { s with att := 0 }).1 = u1 at r1 g1 ⊢
  have hatt : u1.att = 0 := congrArg LineRegs.att g1
  obtain ⟨l2, k, r2, g2, h⟩ := releaseScl_runs lim .framing u1 (by rw [hatt]; exact hl)
  obtain ⟨u2, w, hq⟩ : ∃ u w, releaseScl lim .framing u1 = (u, w) := ⟨_, _, rfl⟩
  rw [hq] at r2 g2 h ⊢
  rw [hatt, g1] at g2
  rw [hatt] at h
  rcases h with ⟨a1, a2, v, a3⟩ | ⟨a1, a2, a3, a4⟩ <;> obtain rfl : w = _ := a3
  · simp only
    obtain ⟨l3, r3, n3, g3⟩ := driveSda_runs .framing false u2 (.inr rfl)
    generalize (driveSda .framing false u2).1 = u3 at r3 g3 ⊢
    obtain ⟨l4, r4, n4, g4⟩ := pullScl_runs .framing u3
    generalize (pullScl .framing u3).1 = u4 at r4 g4 ⊢
    simp only at g2
    rw [g3, g2] at g4
    have r := ((r1.trans r2).trans r3).trans r4
    refine ⟨_, _, (Prim.fromSet r.prim).thenSet _ _ _ _ _ _ _, .inl ⟨rfl, rfl, r.kept.err, r.kept.cause, r.kept.dir, 0 + k, a1, ?_, g4⟩⟩
    simp only [List.length_append]
    omega
  · simp only
    have r := r1.trans r2
    obtain ⟨m, f1, f2, f3, f4, f5, f6, -, f7⟩ := enterError_faulted lim .stall s u2 (l1 ++ l2) hl (Prim.fromSet r.prim)
      (.inr (.inr ⟨rfl, fun h => a4 ((dutyE4_append lim l1 l2).1 h).2⟩))
    exact ⟨_, _, f1, .inr ⟨rfl, f2, f3, f4.trans r.kept.dir, f5.trans (congrArg LineRegs.shreg g2),
      f6.trans (congrArg LineRegs.bitcnt g2), by simp only [List.length_append]; omega⟩⟩

/-- Everything `transfer(b)` can do where the BTE holds the clock (R92). -/
theorem transfer_cases (lim : Nat) (b : Byte) (s : State) (hl : 0 < lim) (hs : s.sclDrv = false) :
    ∃ t l, Prim s t l ∧ t.dir = s.dir ∧ t.shreg = b ∧
      ((transfer lim b s = (t, true) ∧ t.st = .data ∧ t.err = s.err ∧ t.cause = s.cause ∧
          ∃ k < lim, l.length = k + 27 ∧ lineRegs t = ⟨false, true, b, 0#4, k⟩) ∨
       (transfer lim b s = (t, false) ∧ Faulted lim t l ∧ (t.cause = .nack ∨ t.cause = .stall) ∧ l.length ≤ 2 * lim + 28)) := by
  unfold transfer
  obtain ⟨l, j, r, g0, h⟩ := txByte_runs lim b { s with att := 0 } hl hs
  obtain ⟨u, w, hq⟩ : ∃ u w, txByte lim b { s with att := 0 } = (u, w) := ⟨_, _, rfl⟩
  rw [hq] at r g0 h ⊢
  rcases h with ⟨a1, a2, a3, a4⟩ | ⟨a1, a2, a3, a4⟩
  · simp only at a1 a2 a4 g0
    rcases a1 with rfl | rfl
    · exact ⟨{ u with st := .data }, _, (Prim.fromSet r.prim).thenSet _ _ _ _ _ _ _, r.kept.dir, g0,
        .inl ⟨rfl, rfl, r.kept.err, r.kept.cause, 0 + j, a2, by omega, a4⟩⟩
    · obtain ⟨m, f1, f2, f3, f4, f5, f6, -, f7⟩ := enterError_faulted lim .nack s u l hl (Prim.fromSet r.prim) (.inl rfl)
      exact ⟨_, _, f1, f4.trans r.kept.dir, f5.trans g0, .inr ⟨rfl, f2, .inl f3, by simp only [List.length_append]; omega⟩⟩
  · obtain rfl : w = _ := a1
    obtain ⟨m, f1, f2, f3, f4, f5, f6, -, f7⟩ := enterError_faulted lim .stall s u l hl (Prim.fromSet r.prim)
      (.inr (.inr ⟨rfl, a4.1⟩))
    exact ⟨_, _, f1, f4.trans r.kept.dir, f5.trans g0, .inr ⟨rfl, f2, .inr f3, by simp only [List.length_append] at *; omega⟩⟩

/-- Everything `do PUT` can do (R92) where the BTE owns the bus in an open transaction. -/
theorem doPut_cases (lim : Nat) (b : Byte) (s : State) (hl : 0 < lim)
    (hs : s.st = .start ∨ s.st = .data ∨ s.st = .rstart → s.sclDrv = false) :
    (s.st = .error ∧ doPut lim b s = (s, false)) ∨
    (s.st ≠ .error ∧ ¬ (s.st = .start ∨ s.st = .rstart) ∧ ¬ (s.st = .data ∧ s.dir = .write) ∧
      doPut lim b s = (enterError lim .proto s, false)) ∨
    (((s.st = .start ∨ s.st = .rstart) ∨ (s.st = .data ∧ s.dir = .write)) ∧ ∃ t l, Prim s t l ∧ t.shreg = b ∧
      t.dir = (if s.st = .data then s.dir else dirOf b) ∧
      ((doPut lim b s = (t, true) ∧ t.st = .data ∧ t.err = s.err ∧ t.cause = s.cause ∧
          ∃ k < lim, l.length = k + 27 ∧ lineRegs t = ⟨false, true, b, 0#4, k⟩) ∨
       (doPut lim b s = (t, false) ∧ Faulted lim t l ∧ (t.cause = .nack ∨ t.cause = .stall) ∧ l.length ≤ 2 * lim + 28))) := by
  unfold doPut
  by_cases h1 : s.st = .error
  · exact .inl ⟨h1, if_pos h1⟩
  rw [if_neg h1]
  by_cases h2 : s.st = .start ∨ s.st = .rstart
  · have h3 : s.st ≠ .data := by rcases h2 with h | h <;> simp [h]
    obtain ⟨t, l, k1, k2, k3, k4⟩ := transfer_cases lim b { s with st := .address, dir := dirOf b } hl
      (hs (by rcases h2 with h | h <;> simp [h]))
    exact .inr (.inr ⟨.inl h2, t, l, Prim.fromSet k1, k3, by rw [if_neg h3]; exact k2, by simpa only [if_pos h2] using k4⟩)
  · by_cases h3 : s.st = .data ∧ s.dir = .write
    · obtain ⟨t, l, k1, k2, k3, k4⟩ := transfer_cases lim b s hl (hs (by simp [h3.1]))
      exact .inr (.inr ⟨.inr h3, t, l, k1, k3, by rw [if_pos h3.1]; exact k2, by simpa only [if_neg h2, if_pos h3] using k4⟩)
    · exact .inr (.inl ⟨h1, h2, h3, by rw [if_neg h2, if_neg h3]⟩)

/-- Everything `do GET` can do (R93) where the BTE owns the bus in an open transaction. -/
theorem doGet_cases (lim : Nat) (nak : Bool) (s : State) (hl : 0 < lim) (hs : s.st = .data → s.sclDrv = false) :
    (s.st = .error ∧ doGet lim nak s = (s, none)) ∨
    (s.st ≠ .error ∧ ¬ (s.st = .data ∧ s.dir = .read) ∧ doGet lim nak s = (enterError lim .proto s, none)) ∨
    (s.st = .data ∧ s.dir = .read ∧ ∃ t l, Prim s t l ∧ t.dir = s.dir ∧
      ((∃ b, doGet lim nak s = (t, some b) ∧ t.st = .data ∧ t.err = s.err ∧ t.cause = s.cause ∧
          ∃ k < lim, l.length = k + 27 ∧ lineRegs t = ⟨false, nak, b, 0#4, k⟩) ∨
       (doGet lim nak s = (t, none) ∧ Faulted lim t l ∧ t.cause = .stall ∧ l.length ≤ 2 * lim + 27))) := by
  unfold doGet
  by_cases h1 : s.st = .error
  · exact .inl ⟨h1, if_pos h1⟩
  rw [if_neg h1]
  by_cases h2 : s.st = .data ∧ s.dir = .read
  · refine .inr (.inr ⟨h2.1, h2.2, ?_⟩)
    rw [if_pos h2]
    obtain ⟨l, j, r, h⟩ := rxByte_runs lim nak { s with att := 0 } hl (hs h2.1)
    obtain ⟨u, w, hq⟩ : ∃ u w, rxByte lim nak { s with att := 0 } = (u, w) := ⟨_, _, rfl⟩
    rw [hq] at r h ⊢
    rcases h with ⟨b, a1, a2, a3, a4⟩ | ⟨a1, a2, a3, a4⟩ <;> obtain rfl : w = _ := a1
    · exact ⟨_, _, Prim.fromSet r.prim, r.kept.dir,
        .inl ⟨b, rfl, r.kept.st.trans h2.1, r.kept.err, r.kept.cause, 0 + j, a2, by omega, a4⟩⟩
    · obtain ⟨m, f1, f2, f3, f4, f5, f6, -, f7⟩ := enterError_faulted lim .stall s u l hl (Prim.fromSet r.prim)
        (.inr (.inr ⟨rfl, a4.1⟩))
      exact ⟨_, _, f1, f4.trans r.kept.dir, .inr ⟨rfl, f2, f3, by simp only [List.length_append] at *; omega⟩⟩
  · exact .inr (.inl ⟨h1, h2, if_neg h2⟩)

end Sys2Proof.Machine
end

