-- ==== Sys2Proof/Laws/Block.lean ====
section
/-! SUPPORT. Everything the loops of WRITEB and READB (R110, R111) can do, whatever the environment answers. -/

namespace Sys2Proof.Machine

open Sys2Proof.Safety

/-- The buffer byte of a transfer depends on PTR alone. -/
theorem bufAddr_congr {s t : State} (h : t.ptr = s.ptr) (n : Nat) : bufAddr t n = bufAddr s n := by
  unfold bufAddr; rw [h]

/-- Reading a buffer byte is no line operation and writes no register. -/
theorem memRead_prim (a : BufAddr) (s : State) : ∃ d, (memRead a s).1 = { s with draws := d } ∧
    Prim s (memRead a s).1 [] := by
  obtain ⟨d, h⟩ := loadByte_state a.toNat s
  refine ⟨d, h, ?_⟩
  rw [memRead, h]
  exact Prim.setDraws s d

/-- A loop of a block transfer that transferred every byte is back in DATA with the clock held. -/
structure LoopDone (s t : State) : Prop where
  st : t.st = .data
  scl : t.sclDrv = false
  err : t.err = s.err
  cause : t.cause = s.cause
  bitcnt : t.bitcnt = 0#4 ∨ t.bitcnt = s.bitcnt

/-- Everything the loop of WRITEB can do in an open write transaction (R110). -/
theorem writeLoop_cases (lim k n : Nat) (s : State) (hl : 0 < lim) (hst : s.st = .data) (hd : s.dir = .write)
    (hs : s.sclDrv = false) :
    ∃ l, Prim s (writeLoop lim k n s).s l ∧ (writeLoop lim k n s).s.dir = .write ∧ (writeLoop lim k n s).last = 0#8 ∧
      (((writeLoop lim k n s).done = true ∧ (writeLoop lim k n s).n = n + k ∧ LoopDone s (writeLoop lim k n s).s ∧
          l.length ≤ (27 + lim) * k) ∨
       ((writeLoop lim k n s).done = false ∧ n ≤ (writeLoop lim k n s).n ∧ (writeLoop lim k n s).n < n + k ∧
          Faulted lim (writeLoop lim k n s).s l ∧
          ((writeLoop lim k n s).s.cause = .nack ∨ (writeLoop lim k n s).s.cause = .stall) ∧
          l.length ≤ (27 + lim) * k + lim + 1)) := by
  induction k generalizing n s with
  | zero => exact ⟨[], .refl s, hd, rfl, .inl ⟨rfl, rfl, ⟨hst, hs, rfl, rfl, .inr rfl⟩, by simp⟩⟩
  | succ k ih =>
    rw [writeLoop]
    obtain ⟨d, hu, p0⟩ := memRead_prim (bufAddr s n) s
    obtain ⟨u, b, hq⟩ : ∃ u b, memRead (bufAddr s n) s = (u, b) := ⟨_, _, rfl⟩
    rw [hq] at hu p0 ⊢
    simp only at hu p0 ⊢
    subst hu
    rcases doPut_cases lim b { s with draws := d } hl (fun _ => hs) with ⟨h, -⟩ | ⟨-, -, h, -⟩ | ⟨-, t, l, p1, -, h2, h3⟩
    · simp [hst] at h
    · exact absurd ⟨hst, hd⟩ h
    · simp only [hst, if_true] at h2
      rcases h3 with ⟨e, a1, a2, a3, j, a4, a5, a6⟩ | ⟨e, a1, a2⟩
      · rw [e]
        simp only
        obtain ⟨m, g1, g2, g3, g4⟩ := ih (n + 1) t a1 (h2.trans hd) (congrArg LineRegs.scl a6)
        refine ⟨_, (p0.trans p1).trans g1, g2, g3, ?_⟩
        have hb : t.bitcnt = 0#4 := congrArg LineRegs.bitcnt a6
        rcases g4 with ⟨b1, b2, b3, b4⟩ | ⟨b1, b2, b3, b4, b5, b6⟩
        · exact .inl ⟨b1, by omega, ⟨b3.st, b3.scl, b3.err.trans a2, b3.cause.trans a3,
            .inl (b3.bitcnt.elim id (fun h => h.trans hb))⟩, by
              simp only [List.length_append, List.length_nil, Nat.mul_succ]; omega⟩
        · exact .inr ⟨b1, by omega, by omega, ⟨b4.err, b4.st, b4.scl, b4.sda, b4.att,
            b4.cause.imp id (Or.imp id (fun h => ⟨h.1, fun hd => h.2 ((dutyE4_append _ _ _).1 hd).2⟩))⟩, b5, by
              simp only [List.length_append, List.length_nil, Nat.mul_succ]; omega⟩
      · rw [e]
        simp only
        exact ⟨_, p0.trans p1, h2.trans hd, trivial, .inr ⟨trivial, by omega, by omega, by simpa using a1, a2.1, by
          have := a2.2
          simp only [List.nil_append, Nat.mul_succ]; omega⟩⟩

/-- Everything the loop of READB can do in an open read transaction (R111): the memory it leaves differs only
at the addresses of the bytes it received. -/
theorem readLoop_cases (lim k n : Nat) (last : Byte) (s : State) (hl : 0 < lim) (hst : s.st = .data)
    (hd : s.dir = .read) (hs : s.sclDrv = false) :
    ∃ l, Prim { s with mem := (readLoop lim k n last s).s.mem } (readLoop lim k n last s).s l ∧
      (readLoop lim k n last s).s.dir = .read ∧
      (∀ a, (∀ i, n ≤ i → i < (readLoop lim k n last s).n → a ≠ (bufAddr s i).toNat) →
        Memory.read (readLoop lim k n last s).s.mem a = Memory.read s.mem a) ∧
      (Memory.wf s.mem = true → Memory.wf (readLoop lim k n last s).s.mem = true) ∧
      (((readLoop lim k n last s).done = true ∧ (readLoop lim k n last s).n = n + k ∧
          (k = 0 → (readLoop lim k n last s).last = last) ∧ LoopDone s (readLoop lim k n last s).s ∧
          l.length ≤ (27 + lim) * k) ∨
       ((readLoop lim k n last s).done = false ∧ n ≤ (readLoop lim k n last s).n ∧
          (readLoop lim k n last s).n < n + k ∧ Faulted lim (readLoop lim k n last s).s l ∧
          (readLoop lim k n last s).s.cause = .stall ∧ l.length ≤ (27 + lim) * k + lim + 1)) := by
  induction k generalizing n last s with
  | zero => exact ⟨[], .refl s, hd, fun _ _ => rfl, id, .inl ⟨rfl, rfl, fun _ => rfl, ⟨hst, hs, rfl, rfl, .inr rfl⟩, by simp⟩⟩
  | succ k ih =>
    rw [readLoop]
    rcases doGet_cases lim (k == 0) s hl (fun _ => hs) with ⟨h, -⟩ | ⟨-, h, -⟩ | ⟨-, -, t, l, p1, h2, h3⟩
    · simp [hst] at h
    · exact absurd ⟨hst, hd⟩ h
    · rcases h3 with ⟨b, e, a1, a2, a3, j, a4, a5, a6⟩ | ⟨e, a1, a2⟩
      · rw [e]
        simp only
        obtain ⟨m, g1, g2, g3, gw, g4⟩ := ih (n + 1) b (memWrite (bufAddr s n) b t) a1 (h2.trans hd)
          (congrArg LineRegs.scl a6)
        have hptr : t.ptr = s.ptr := p1.kept.ptr
        have hb : t.bitcnt = 0#4 := congrArg LineRegs.bitcnt a6
        rw [bufAddr_congr hptr n]
        generalize readLoop lim k (n + 1) b (memWrite (bufAddr s n) b t) = r at g1 g2 g3 gw g4 ⊢
        refine ⟨l ++ m, ?_, g2, ?_, fun hw => gw (memWrite_wf _ _ _ (by rw [p1.kept.mem]; exact hw)), ?_⟩
        · refine Prim.trans (t := { t with mem := r.s.mem }) ?_ g1
          exact ⟨⟨p1.emits.asked, p1.emits.wire⟩, ⟨p1.kept.busy, p1.kept.ptr, p1.kept.len, p1.kept.rsp, rfl,
            p1.kept.rst, p1.kept.host, p1.kept.reads⟩, p1.orderly, p1.last⟩
        · intro a ha
          have hn : n < r.n := by rcases g4 with ⟨-, b2, -⟩ | ⟨-, b2, -⟩ <;> omega
          rw [g3 a (fun i h1 h2 => by
            rw [bufAddr_congr (s := s) (t := memWrite (bufAddr s n) b t) hptr]; exact ha i (by omega) h2)]
          rw [memWrite_mem, Memory.read_write_other _ _ _ _ (ha n (Nat.le_refl n) hn), p1.kept.mem]
        · rcases g4 with ⟨b1, b2, -, b3, b4⟩ | ⟨b1, b2, b3, b4, b5, b6⟩
          · exact .inl ⟨b1, by omega, by omega, ⟨b3.st, b3.scl, b3.err.trans a2, b3.cause.trans a3,
              .inl (b3.bitcnt.elim id (fun h => h.trans hb))⟩, by
                simp only [List.length_append, Nat.mul_succ]; omega⟩
          · exact .inr ⟨b1, by omega, by omega, ⟨b4.err, b4.st, b4.scl, b4.sda, b4.att,
              b4.cause.imp id (Or.imp id (fun h => ⟨h.1, fun hd => h.2 ((dutyE4_append _ _ _).1 hd).2⟩))⟩, b5, by
                simp only [List.length_append, Nat.mul_succ]; omega⟩
      · rw [e]
        simp only
        refine ⟨l, ?_, h2.trans hd, fun a _ => by rw [p1.kept.mem], fun hw => by rw [p1.kept.mem]; exact hw,
          .inr ⟨trivial, by omega, by omega, a1, a2.1, by have := a2.2; simp only [Nat.mul_succ]; omega⟩⟩
        rw [p1.kept.mem]
        exact p1

end Sys2Proof.Machine
end

