-- ==== Sys2Proof/Laws/Script.lean ====
section
/-! SUPPORT. What the line operations do, exactly, when the environment's next answers are given: one lemma
for each of R43 to R48, for a stop condition (R49, R82) and for the frames (R90, R91). -/

namespace Sys2Proof.Machine

open Sys2Proof.Safety

/-- The state after the questions `l` were asked, with `rest` the answers left. -/
def told (l : List Ask) (rest : List Levels) (s : State) : State :=
  { s with env := .script rest, wire := s.wire ++ l.map sampleOf, asked := s.asked ++ l }

/-- `Emit` (R43) with its answer given. -/
theorem emit_script (slot : Slot) (poll : Bool) (s : State) (e : Levels) (rest : List Levels)
    (h : s.env = .script (e :: rest)) :
    emit slot poll s = (told [⟨drivers s, e, slot, poll, s.att⟩] rest s, wiredAnd (drivers s) e) := by
  simp only [emit, envLevels, h, told, drivers, Env.saw, sampleOf, List.map_cons, List.map_nil]

theorem driveSda_script (slot : Slot) (d : Bool) (s : State) (e : Levels) (rest : List Levels)
    (h : s.env = .script (e :: rest)) :
    driveSda slot d s =
      (told [⟨⟨s.sclDrv, d⟩, e, slot, false, s.att⟩] rest { s with sdaDrv := d }, wiredAnd ⟨s.sclDrv, d⟩ e) :=
  emit_script slot false { s with sdaDrv := d } e rest h

theorem pullScl_script (slot : Slot) (s : State) (e : Levels) (rest : List Levels)
    (h : s.env = .script (e :: rest)) :
    pullScl slot s =
      (told [⟨⟨false, s.sdaDrv⟩, e, slot, false, s.att⟩] rest { s with sclDrv := false }, wiredAnd ⟨false, s.sdaDrv⟩ e) :=
  emit_script slot false { s with sclDrv := false } e rest h

/-- The polling loop (R46) when the clock rises after the failed polls `lows`. -/
theorem pollScl_script (lim : Nat) (slot : Slot) (lows : List Levels) (hi : Levels) (rest : List Levels) (s : State)
    (hd : s.sclDrv = true) (hlow : ∀ e ∈ lows, e.scl = false) (hhi : hi.scl = true)
    (hk : s.att + lows.length < lim) (h : s.env = .script (lows ++ hi :: rest)) :
    pollScl lim slot (lim - s.att) s =
      ({ told (pollAsks ⟨true, s.sdaDrv⟩ slot s.att (lows ++ [hi])) rest s with att := s.att + lows.length },
        .ok (s.sdaDrv && hi.sda)) := by
  induction lows generalizing s with
  | nil =>
    obtain ⟨f, hf⟩ : ∃ f, lim - s.att = f + 1 := ⟨lim - s.att - 1, by simp only [List.length_nil] at hk; omega⟩
    rw [hf, pollScl, emit_script slot true s hi rest h]
    simp [wiredAnd, drivers, hd, hhi, pollAsks, told]
  | cons e lows ih =>
    simp only [List.length_cons] at hk
    obtain ⟨f, hf⟩ : ∃ f, lim - s.att = f + 1 := ⟨lim - s.att - 1, by omega⟩
    have he : e.scl = false := hlow e (by simp)
    rw [hf, pollScl, emit_script slot true s e (lows ++ hi :: rest) h]
    have hne : s.att + 1 ≠ lim := by omega
    simp only [wiredAnd, drivers, hd, he, Bool.and_false, Bool.false_eq_true, if_false]
    rw [if_neg (by simpa [told] using hne)]
    have := ih { told [⟨⟨true, s.sdaDrv⟩, e, slot, true, s.att⟩] (lows ++ hi :: rest) s with att := s.att + 1 } hd
      (fun x hx => hlow x (by simp [hx])) (by simp only; omega) rfl
    rw [show lim - (s.att + 1) = f by omega] at this
    simp only [told] at this ⊢
    rw [this]
    simp [pollAsks, Nat.add_assoc, Nat.add_comm 1]

/-- The polling loop (R46) when the failed polls `lows` use up the limit. -/
theorem pollScl_script_stall (lim : Nat) (slot : Slot) (lows : List Levels) (rest : List Levels) (s : State)
    (hd : s.sclDrv = true) (hlow : ∀ e ∈ lows, e.scl = false) (ha : s.att < lim)
    (hk : s.att + lows.length = lim) (h : s.env = .script (lows ++ rest)) :
    pollScl lim slot (lim - s.att) s =
      ({ told (pollAsks ⟨true, s.sdaDrv⟩ slot s.att lows) rest s with att := lim }, .stall) := by
  induction lows generalizing s with
  | nil => simp only [List.length_nil] at hk; omega
  | cons e lows ih =>
    simp only [List.length_cons] at hk
    obtain ⟨f, hf⟩ : ∃ f, lim - s.att = f + 1 := ⟨lim - s.att - 1, by omega⟩
    have he : e.scl = false := hlow e (by simp)
    rw [hf, pollScl, emit_script slot true s e (lows ++ rest) h]
    simp only [wiredAnd, drivers, hd, he, Bool.and_false, Bool.false_eq_true, if_false]
    by_cases hl : s.att + 1 = lim
    · obtain rfl : lows = [] := List.eq_nil_of_length_eq_zero (by omega)
      rw [if_pos (by simpa [told] using hl)]
      simp [told, pollAsks, hl]
    · rw [if_neg (by simpa [told] using hl)]
      have := ih { told [⟨⟨true, s.sdaDrv⟩, e, slot, true, s.att⟩] (lows ++ rest) s with att := s.att + 1 } hd
        (fun x hx => hlow x (by simp [hx])) (by simp only; omega) (by simp only; omega) rfl
      rw [show lim - (s.att + 1) = f by omega] at this
      simp only [told] at this ⊢
      rw [this]
      simp [pollAsks]

/-- The questions of a bit cell (R47, R48). -/
def cellAsks (slot : Slot) (b : Bool) (att : Nat) (c : Cell) : List Ask :=
  ⟨⟨false, b⟩, c.setup, slot, false, att⟩ :: (pollAsks ⟨true, b⟩ slot att (c.lows ++ [c.high]) ++
    [⟨⟨false, b⟩, c.low, slot, false, att + c.lows.length⟩])

theorem sampleOf_pollAsks (b : Bool) (slot : Slot) (att : Nat) (l : List Levels) :
    (pollAsks ⟨true, b⟩ slot att l).map sampleOf = l.map (fun e => ⟨e.scl, b && e.sda⟩) := by
  induction l generalizing att with
  | nil => rfl
  | cons e l ih => simp [pollAsks, sampleOf, wiredAnd, ih]

theorem lows_samples (b : Bool) (l : List Levels) (h : ∀ e ∈ l, e.scl = false) :
    l.map (fun e => (⟨e.scl, b && e.sda⟩ : Levels)) = l.map (fun e => ⟨false, b && e.sda⟩) := by
  apply List.map_congr_left
  intro e he
  rw [h e he]

theorem cellAsks_samples (slot : Slot) (b : Bool) (att : Nat) (c : Cell) (h : c.Good) :
    (cellAsks slot b att c).map sampleOf = cellSamples b c := by
  simp [cellAsks, cellSamples, sampleOf_pollAsks, lows_samples b c.lows h.1, sampleOf, wiredAnd, h.2]

/-- A bit cell (R47, R48) in which the clock rises in time. -/
theorem txBit_script (lim : Nat) (slot : Slot) (b : Bool) (c : Cell) (rest : List Levels) (s : State)
    (hs : s.sclDrv = false) (hc : c.Good) (hk : s.att + c.lows.length < lim)
    (h : s.env = .script (c.answers ++ rest)) :
    txBit lim slot b s =
      ({ told (cellAsks slot b s.att c) rest s with sdaDrv := b, att := s.att + c.lows.length },
        .ok (b && c.high.sda)) := by
  have h1 : s.env = .script (c.setup :: (c.lows ++ c.high :: c.low :: rest)) := by
    rw [h]; simp [Cell.answers]
  have h2 := pollScl_script lim slot c.lows c.high (c.low :: rest)
    { told [⟨⟨s.sclDrv, b⟩, c.setup, slot, false, s.att⟩] (c.lows ++ c.high :: c.low :: rest) { s with sdaDrv := b } with
      sclDrv := true } rfl hc.1 hc.2 hk rfl
  rw [txBit, driveSda_script slot b s _ _ h1, releaseScl]
  simp only [told] at h2 ⊢
  rw [h2]
  simp only [pullScl, emit, envLevels, drivers, Env.saw]
  simp [cellAsks, sampleOf, wiredAnd, hs]

/-- The data cells of a sent byte (R90). -/
theorem txBits_script (lim : Nat) (cells : List Cell) (rest : List Levels) (s : State) (k : Nat)
    (hlen : cells.length = k) (hs : s.sclDrv = false) (hc : ∀ c ∈ cells, c.Good) (hk : s.att + polls cells < lim)
    (h : s.env = .script (answersOf cells ++ rest)) :
    ∃ l b sda, (txBits lim k s) = ({ told l rest s with bitcnt := b, sdaDrv := sda, att := s.att + polls cells }, true) ∧
      l.map sampleOf = frameSamples ((List.range k).reverse.map (fun i => s.shreg.getLsbD i)) cells := by
  induction k generalizing cells s with
  | zero =>
    obtain rfl : cells = [] := List.eq_nil_of_length_eq_zero hlen
    refine ⟨[], s.bitcnt, s.sdaDrv, ?_, by simp [frameSamples]⟩
    simp only [answersOf, List.flatMap_nil, List.nil_append] at h
    simp [txBits, told, polls, ← h]
  | succ k ih =>
    obtain ⟨c, cells, rfl⟩ := List.exists_cons_of_length_eq_add_one hlen
    simp only [polls, List.map_cons, List.sum_cons] at hk
    have h1 : s.env = .script (c.answers ++ (answersOf cells ++ rest)) := by rw [h]; simp [answersOf]
    rw [txBits, txBit_script lim .tx (s.shreg.getLsbD k) c _ { s with bitcnt := BitVec.ofNat 4 (7 - k) } hs (hc c (by simp)) (by simp only; omega) h1]
    simp only
    obtain ⟨l, b, sda, e1, e2⟩ := ih cells
      { told (cellAsks .tx (s.shreg.getLsbD k) s.att c) (answersOf cells ++ rest) { s with bitcnt := BitVec.ofNat 4 (7 - k) } with
        sdaDrv := s.shreg.getLsbD k, att := s.att + c.lows.length }
      (by simpa using hlen) hs (fun x hx => hc x (by simp [hx])) (by simp only [polls]; omega) rfl
    refine ⟨cellAsks .tx (s.shreg.getLsbD k) s.att c ++ l, b, sda, ?_, ?_⟩
    · simp only [told] at e1 ⊢
      rw [e1]
      simp [polls, Nat.add_assoc]
    · rw [List.map_append, e2, cellAsks_samples _ _ _ _ (hc c (by simp))]
      simp [List.range_succ, frameSamples, told]

/-- `TxByte` (R90) when the clock rises in time in all nine cells. -/
theorem txByte_script (lim : Nat) (b : Byte) (f : FrameCells) (rest : List Levels) (s : State)
    (hs : s.sclDrv = false) (ha : s.att = 0) (hf : f.Good lim) (h : s.env = .script (f.answers ++ rest)) :
    ∃ l, txByte lim b s =
        ({ told l rest s with shreg := b, bitcnt := 0#4, sdaDrv := true, att := polls f.cells },
          if f.acked then .ack else .nack) ∧
      l.map sampleOf = f.sent b := by
  obtain ⟨h8, hc, hk⟩ := hf
  have hk' : polls f.data + f.ninth.lows.length < lim := by
    simpa [polls, FrameCells.cells] using hk
  have h1 : s.env = .script (answersOf f.data ++ (f.ninth.answers ++ rest)) := by
    rw [h]; simp [FrameCells.answers, FrameCells.cells, answersOf]
  obtain ⟨l, bc, sda, e1, e2⟩ := txBits_script lim f.data (f.ninth.answers ++ rest) { s with shreg := b } 8 h8 hs
    (fun c hc' => hc c (by simp [FrameCells.cells, hc'])) (by simp only [ha]; omega) h1
  have g : f.ninth.Good := hc _ (by simp [FrameCells.cells])
  refine ⟨l ++ cellAsks .ack true (polls f.data) f.ninth, ?_, ?_⟩
  · have key := txBit_script lim .ack true f.ninth rest
      { told l (f.ninth.answers ++ rest) { s with shreg := b } with
        bitcnt := 8#4, sdaDrv := sda, att := s.att + polls f.data } hs g (by simp only [ha]; omega) rfl
    rw [txByte, e1]
    simp only [rxBit_eq]
    rw [key]
    simp only [ha, Bool.true_and, told, List.map_append, List.append_assoc, FrameCells.acked, Nat.zero_add]
    have hp : polls f.cells = polls f.data + f.ninth.lows.length := by simp [polls, FrameCells.cells]
    rw [hp]
    by_cases h9 : f.ninth.high.sda = true <;> simp [h9]
  · rw [List.map_append, e2, cellAsks_samples _ _ _ _ g]
    obtain ⟨c0, c1, c2, c3, c4, c5, c6, c7, hd⟩ : ∃ c0 c1 c2 c3 c4 c5 c6 c7, f.data = [c0, c1, c2, c3, c4, c5, c6, c7] := by
      match hm : f.data, h8 with
      | [c0, c1, c2, c3, c4, c5, c6, c7], _ => exact ⟨_, _, _, _, _, _, _, _, rfl⟩
    simp [FrameCells.sent, FrameCells.cells, hd, frameSamples, bitsOf, List.range_succ]

/-- The data cells of a received byte (R91). -/
theorem rxBits_script (lim : Nat) (cells : List Cell) (rest : List Levels) (s : State) (k : Nat)
    (hlen : cells.length = k) (hs : s.sclDrv = false) (hc : ∀ c ∈ cells, c.Good) (hk : s.att + polls cells < lim)
    (h : s.env = .script (answersOf cells ++ rest)) :
    ∃ l b sda, (rxBits lim k s) =
        ({ told l rest s with
            shreg := (cells.map (·.high.sda)).foldl shiftIn s.shreg, bitcnt := b, sdaDrv := sda,
            att := s.att + polls cells }, true) ∧
      l.map sampleOf = frameSamples (List.replicate k true) cells := by
  induction k generalizing cells s with
  | zero =>
    obtain rfl : cells = [] := List.eq_nil_of_length_eq_zero hlen
    refine ⟨[], s.bitcnt, s.sdaDrv, ?_, by simp [frameSamples]⟩
    simp only [answersOf, List.flatMap_nil, List.nil_append] at h
    simp [rxBits, told, polls, ← h]
  | succ k ih =>
    obtain ⟨c, cells, rfl⟩ := List.exists_cons_of_length_eq_add_one hlen
    simp only [polls, List.map_cons, List.sum_cons] at hk
    have h1 : s.env = .script (c.answers ++ (answersOf cells ++ rest)) := by rw [h]; simp [answersOf]
    rw [rxBits, rxBit_eq, txBit_script lim .rx true c _ { s with bitcnt := BitVec.ofNat 4 (7 - k) } hs (hc c (by simp)) (by simp only; omega) h1]
    simp only [Bool.true_and]
    obtain ⟨l, b, sda, e1, e2⟩ := ih cells
      { told (cellAsks .rx true s.att c) (answersOf cells ++ rest) { s with bitcnt := BitVec.ofNat 4 (7 - k) } with
        sdaDrv := true, att := s.att + c.lows.length, shreg := shiftIn s.shreg c.high.sda }
      (by simpa using hlen) hs (fun x hx => hc x (by simp [hx])) (by simp only [polls]; omega) rfl
    refine ⟨cellAsks .rx true s.att c ++ l, b, sda, ?_, ?_⟩
    · simp only [told] at e1 ⊢
      rw [e1]
      simp [polls, Nat.add_assoc]
    · rw [List.map_append, e2, cellAsks_samples _ _ _ _ (hc c (by simp))]
      simp [List.replicate_succ, frameSamples]

/-- `RxByte` (R91) when the clock rises in time in all nine cells. -/
theorem rxByte_script (lim : Nat) (nak : Bool) (f : FrameCells) (rest : List Levels) (s : State)
    (hs : s.sclDrv = false) (ha : s.att = 0) (hf : f.Good lim) (h : s.env = .script (f.answers ++ rest)) :
    ∃ l, rxByte lim nak s =
        ({ told l rest s with shreg := byteShown f.data, bitcnt := 0#4, sdaDrv := nak, att := polls f.cells },
          some (byteShown f.data)) ∧
      l.map sampleOf = f.received nak := by
  obtain ⟨h8, hc, hk⟩ := hf
  have hk' : polls f.data + f.ninth.lows.length < lim := by
    simpa [polls, FrameCells.cells] using hk
  have h1 : s.env = .script (answersOf f.data ++ (f.ninth.answers ++ rest)) := by
    rw [h]; simp [FrameCells.answers, FrameCells.cells, answersOf]
  obtain ⟨l, bc, sda, e1, e2⟩ := rxBits_script lim f.data (f.ninth.answers ++ rest) { s with shreg := 0#8 } 8 h8 hs
    (fun c hc' => hc c (by simp [FrameCells.cells, hc'])) (by simp only [ha]; omega) h1
  have g : f.ninth.Good := hc _ (by simp [FrameCells.cells])
  refine ⟨l ++ cellAsks .tx nak (polls f.data) f.ninth, ?_, ?_⟩
  · have key := txBit_script lim .tx nak f.ninth rest
      { told l (f.ninth.answers ++ rest) { s with shreg := 0#8 } with
        shreg := byteShown f.data, bitcnt := 8#4, sdaDrv := sda, att := s.att + polls f.data } hs g
      (by simp only [ha]; omega) rfl
    simp only [byteShown] at key
    rw [rxByte, e1]
    simp only
    rw [key]
    have hp : polls f.cells = polls f.data + f.ninth.lows.length := by simp [polls, FrameCells.cells]
    simp only [ha, told, List.map_append, List.append_assoc, Nat.zero_add, byteShown, hp]
  · rw [List.map_append, e2, cellAsks_samples _ _ _ _ g]
    obtain ⟨c0, c1, c2, c3, c4, c5, c6, c7, hd⟩ : ∃ c0 c1 c2 c3 c4 c5 c6 c7, f.data = [c0, c1, c2, c3, c4, c5, c6, c7] := by
      match hm : f.data, h8 with
      | [c0, c1, c2, c3, c4, c5, c6, c7], _ => exact ⟨_, _, _, _, _, _, _, _, rfl⟩
    simp [FrameCells.received, FrameCells.cells, hd, frameSamples, List.replicate_succ]

end Sys2Proof.Machine
end

