-- ==== Sys2Proof/Laws/Blind.lean ====
section
/-! SUPPORT. The line operations (R43 to R49, R90, R91) are blind to everything they do not touch: on a state that
agrees with `s` in the line registers, the wire, the environment and the ghosts they do what they do on `s`. -/

namespace Sys2Proof.Machine

/-- The line registers, the wire trace, the environment and the questions of `s`, everything else of `o`. -/
def overlay (o s : State) : State :=
  { o with
    sclDrv := s.sclDrv
    sdaDrv := s.sdaDrv
    shreg := s.shreg
    bitcnt := s.bitcnt
    att := s.att
    wire := s.wire
    env := s.env
    draws := s.draws
    asked := s.asked }

/-- The state part of a result, with everything else of `o`. -/
def overlayed {α : Type} (o : State) (r : State × α) : State × α := (overlay o r.1, r.2)

theorem emit_blind (slot : Slot) (poll : Bool) (o s : State) :
    emit slot poll (overlay o s) = overlayed o (emit slot poll s) := by
  obtain ⟨st, err, cause, dir, busy, scl, sda, ptr, len, rsp, shreg, bitcnt, att, mem, wire, rst, host, reads, env,
    draws, asked⟩ := s
  match env with
  | .script [] => rfl
  | .script (_ :: _) => rfl
  | .ideal _ => rfl

theorem driveSda_blind (slot : Slot) (d : Bool) (o s : State) :
    driveSda slot d (overlay o s) = overlayed o (driveSda slot d s) :=
  emit_blind slot false o { s with sdaDrv := d }

theorem pullScl_blind (slot : Slot) (o s : State) : pullScl slot (overlay o s) = overlayed o (pullScl slot s) :=
  emit_blind slot false o { s with sclDrv := false }

theorem pollScl_blind (lim : Nat) (slot : Slot) (fuel : Nat) (o s : State) :
    pollScl lim slot fuel (overlay o s) = overlayed o (pollScl lim slot fuel s) := by
  induction fuel generalizing s with
  | zero => rfl
  | succ n ih =>
    rw [pollScl, pollScl, emit_blind]
    generalize emit slot true s = p
    obtain ⟨u, smp⟩ := p
    simp only [overlayed]
    by_cases h : smp.scl = true
    · simp only [h, if_true]
    · simp only [h, Bool.false_eq_true, if_false]
      by_cases h2 : u.att + 1 = lim
      · simp [overlay, h2]
      · have := ih { u with att := u.att + 1 }
        simp only [overlay, overlayed, h2, if_false] at this ⊢
        exact this

theorem releaseScl_blind (lim : Nat) (slot : Slot) (o s : State) :
    releaseScl lim slot (overlay o s) = overlayed o (releaseScl lim slot s) :=
  pollScl_blind lim slot (lim - s.att) o { s with sclDrv := true }

theorem txBit_blind (lim : Nat) (slot : Slot) (b : Bool) (o s : State) :
    txBit lim slot b (overlay o s) = overlayed o (txBit lim slot b s) := by
  unfold txBit
  rw [driveSda_blind, show (overlayed o (driveSda slot b s)).1 = overlay o (driveSda slot b s).1 from rfl, releaseScl_blind]
  obtain ⟨u, w, hq⟩ : ∃ u w, releaseScl lim slot (driveSda slot b s).1 = (u, w) := ⟨_, _, rfl⟩
  rw [hq]
  cases w with
  | stall => rfl
  | ok v => simp only [overlayed]; rw [pullScl_blind]; rfl

theorem rxBit_blind (lim : Nat) (slot : Slot) (o s : State) :
    rxBit lim slot (overlay o s) = overlayed o (rxBit lim slot s) := txBit_blind lim slot true o s

theorem txBits_blind (lim k : Nat) (o s : State) : txBits lim k (overlay o s) = overlayed o (txBits lim k s) := by
  induction k generalizing s with
  | zero => rfl
  | succ k ih =>
    rw [txBits, txBits]
    have h := txBit_blind lim .tx (s.shreg.getLsbD k) o { s with bitcnt := BitVec.ofNat 4 (7 - k) }
    obtain ⟨u, w, hq⟩ : ∃ u w, txBit lim .tx (s.shreg.getLsbD k) { s with bitcnt := BitVec.ofNat 4 (7 - k) } = (u, w) :=
      ⟨_, _, rfl⟩
    rw [hq] at h ⊢
    simp only [overlay, overlayed] at h ⊢
    rw [h]
    cases w with
    | stall => rfl
    | ok v =>
      have := ih u
      simp only [overlay, overlayed] at this ⊢
      exact this

theorem txByte_blind (lim : Nat) (b : Byte) (o s : State) :
    txByte lim b (overlay o s) = overlayed o (txByte lim b s) := by
  unfold txByte
  have h := txBits_blind lim 8 o { s with shreg := b }
  obtain ⟨u, w, hq⟩ : ∃ u w, txBits lim 8 { s with shreg := b } = (u, w) := ⟨_, _, rfl⟩
  rw [hq] at h ⊢
  simp only [overlay, overlayed] at h ⊢
  rw [h]
  cases w with
  | false => rfl
  | true =>
    have h' := rxBit_blind lim .ack o { u with bitcnt := 8#4 }
    obtain ⟨x, y, hy⟩ : ∃ x y, rxBit lim .ack { u with bitcnt := 8#4 } = (x, y) := ⟨_, _, rfl⟩
    rw [hy] at h'
    simp only [overlay, overlayed] at h' ⊢
    rw [h', hy]
    cases y <;> rfl

theorem rxBits_blind (lim k : Nat) (o s : State) : rxBits lim k (overlay o s) = overlayed o (rxBits lim k s) := by
  induction k generalizing s with
  | zero => rfl
  | succ k ih =>
    rw [rxBits, rxBits]
    have h := rxBit_blind lim .rx o { s with bitcnt := BitVec.ofNat 4 (7 - k) }
    obtain ⟨u, w, hq⟩ : ∃ u w, rxBit lim .rx { s with bitcnt := BitVec.ofNat 4 (7 - k) } = (u, w) :=
      ⟨_, _, rfl⟩
    rw [hq] at h ⊢
    simp only [overlay, overlayed] at h ⊢
    rw [h]
    cases w with
    | stall => rfl
    | ok v =>
      have := ih { u with shreg := shiftIn u.shreg v }
      simp only [overlay, overlayed] at this ⊢
      exact this

theorem rxByte_blind (lim : Nat) (nak : Bool) (o s : State) :
    rxByte lim nak (overlay o s) = overlayed o (rxByte lim nak s) := by
  unfold rxByte
  have h := rxBits_blind lim 8 o { s with shreg := 0#8 }
  obtain ⟨u, w, hq⟩ : ∃ u w, rxBits lim 8 { s with shreg := 0#8 } = (u, w) := ⟨_, _, rfl⟩
  rw [hq] at h ⊢
  simp only [overlay, overlayed] at h ⊢
  rw [h]
  cases w with
  | false => rfl
  | true =>
    have h' := txBit_blind lim .tx nak o { u with bitcnt := 8#4 }
    obtain ⟨x, y, hy⟩ : ∃ x y, txBit lim .tx nak { u with bitcnt := 8#4 } = (x, y) := ⟨_, _, rfl⟩
    rw [hy] at h'
    simp only [overlay, overlayed] at h' ⊢
    rw [h', hy]
    cases y <;> rfl

theorem abortRelease_blind (lim before : Nat) (o s : State) :
    abortRelease lim before (overlay o s) = overlay o (abortRelease lim before s) := by
  obtain ⟨st, err, cause, dir, busy, scl, sda, ptr, len, rsp, shreg, bitcnt, att, mem, wire, rst, host, reads, env,
    draws, asked⟩ := s
  cases scl with
  | false =>
    have h1 := driveSda_blind (.release before) false o
      ⟨st, err, cause, dir, busy, false, sda, ptr, len, rsp, shreg, bitcnt, 0, mem, wire, rst, host, reads, env,
        draws, asked⟩
    generalize hu : driveSda (.release before) false ⟨st, err, cause, dir, busy, false, sda, ptr, len, rsp, shreg, bitcnt, 0, mem,
      wire, rst, host, reads, env, draws, asked⟩ = u at h1
    have h2 := releaseScl_blind lim (.release before) o u.1
    have h3 := driveSda_blind (.release before) true o (releaseScl lim (.release before) u.1).1
    simp only [abortRelease, overlay, overlayed, if_true] at h1 h2 h3 ⊢
    rw [h1, hu]
    simp only
    rw [h2]
    simp only
    rw [h3]
  | true =>
    cases sda with
    | false =>
      have h1 := driveSda_blind (.release before) true o
        ⟨st, err, cause, dir, busy, true, false, ptr, len, rsp, shreg, bitcnt, 0, mem, wire, rst, host, reads, env,
          draws, asked⟩
      simp only [abortRelease, overlay, overlayed, Bool.true_eq_false, if_true, if_false] at h1 ⊢
      rw [h1]
    | true => rfl

/-- The fault entry (R124) on a state that differs in what it does not touch. -/
theorem enterError_blind (lim : Nat) (c : Cause) (o s : State) :
    enterError lim c (overlay o s) = overlay { o with err := true, cause := c, st := .error } (enterError lim c s) := by
  have h := abortRelease_blind lim (if c = .proto then 0 else s.att) { o with err := true, cause := c, st := .error }
    { s with err := true, cause := c, st := .error }
  simp only [enterError]
  exact h

/-! ### Commands -/

/-- Another cause and another buffer memory. -/
def tint (c : Cause) (m : Memory) (s : State) : State := { s with cause := c, mem := m }

/-- The same for the state of a result. -/
def tinted {α : Type} (c : Cause) (m : Memory) (r : State × α) : State × α := (tint c m r.1, r.2)

theorem tint_ov (c : Cause) (m : Memory) (s : State) : tint c m s = overlay (tint c m s) s := rfl

/-- What is blind does the same with another buffer memory and another cause. -/
theorem blind_tint {α : Type} (f : State → State × α) (hf : ∀ o s, f (overlay o s) = overlayed o (f s)) (c : Cause)
    (m : Memory) (s : State) : f (tint c m s) = tinted c m (f s) := by
  have h := hf (tint c m s) s
  have k := hf s s
  rw [tint_ov, h]
  have k1 : (f s).1 = overlay s (f s).1 := congrArg Prod.fst k
  simp only [overlayed, tinted]
  rw [Prod.mk.injEq]; refine ⟨?_, rfl⟩
  conv => rhs; rw [k1]
  rfl

/-- The fault entry (R124). It does the same with another buffer memory and another cause, but for them. -/
theorem enterError_tint (lim : Nat) (k c : Cause) (m : Memory) (s : State) : enterError lim k (tint c m s) = tint k m (enterError lim k s) := by
  have h := enterError_blind lim k (tint c m s) s
  have k1 := enterError_blind lim k s s
  rw [tint_ov, h]
  conv => rhs; rw [show s = overlay s s from rfl, k1]
  rfl

/-- `do START` (R81). It does the same with another buffer memory and another cause, but for them. -/
theorem doStart_tint (lim : Nat) (c : Cause) (m : Memory) (s : State) : ∃ c', doStart lim (tint c m s) = tinted c' m (doStart lim s) := by
  unfold doStart
  by_cases h : s.st = .error
  · exact ⟨c, by rw [if_pos h, if_pos (show (tint c m s).st = .error from h)]; rfl⟩
  by_cases h' : s.st ≠ .idle
  · refine ⟨.proto, ?_⟩
    rw [if_neg h, if_neg (show ¬ (tint c m s).st = .error from h), if_pos h', if_pos (show (tint c m s).st ≠ .idle from h'), enterError_tint]; rfl
  · refine ⟨c, ?_⟩
    rw [if_neg h, if_neg (show ¬ (tint c m s).st = .error from h), if_neg h', if_neg (show ¬ (tint c m s).st ≠ .idle from h')]
    have e1 := blind_tint (emit .idleBus false) (emit_blind _ _) c m {s with att := 0}
    have e2 := blind_tint (driveSda .framing false) (driveSda_blind _ _) c m (emit .idleBus false {s with att := 0}).1
    have e3 := blind_tint (pullScl .framing) (pullScl_blind _) c m (driveSda .framing false (emit .idleBus false {s with att := 0}).1).1
    simp only [tint, tinted] at e1 e2 e3 ⊢
    rw [e1]; simp only; rw [e2]; simp only; rw [e3]

/-- `do STOP` (R82). It does the same with another buffer memory and another cause, but for them. -/
theorem doStop_tint (lim : Nat) (c : Cause) (m : Memory) (s : State) : ∃ c', doStop lim (tint c m s) = tinted c' m (doStop lim s) := by
  unfold doStop
  by_cases h : s.st = .error
  · exact ⟨c, by rw [if_pos h, if_pos (show (tint c m s).st = .error from h)]; rfl⟩
  by_cases h' : s.st ≠ .data
  · refine ⟨.proto, ?_⟩
    rw [if_neg h, if_neg (show ¬ (tint c m s).st = .error from h), if_pos h', if_pos (show (tint c m s).st ≠ .data from h'), enterError_tint]; rfl
  · rw [if_neg h, if_neg (show ¬ (tint c m s).st = .error from h), if_neg h', if_neg (show ¬ (tint c m s).st ≠ .data from h')]
    have e1 := blind_tint (driveSda .framing false) (driveSda_blind _ _) c m {s with att := 0, st := .stop}
    have e2 := blind_tint (releaseScl lim .framing) (releaseScl_blind _ _) c m (driveSda .framing false {s with att := 0, st := .stop}).1
    generalize hr : releaseScl lim .framing (driveSda .framing false {s with att := 0, st := .stop}).1 = r at e2
    obtain ⟨u, w⟩ := r
    simp only [tint, tinted] at e1 e2 ⊢
    cases w with
    | stall =>
      refine ⟨.stall, ?_⟩
      have := enterError_tint lim .stall c m u
      simp only [tint] at this
      rw [e1]; simp only; rw [e2, hr]; simp only; rw [this]
    | ok v =>
      refine ⟨c, ?_⟩
      have e3 := blind_tint (driveSda .framing true) (driveSda_blind _ _) c m u
      simp only [tint, tinted] at e3
      rw [e1]; simp only; rw [e2, hr]; simp only; rw [e3]

/-- `do RSTART` (R83). It does the same with another buffer memory and another cause, but for them. -/
theorem doRstart_tint (lim : Nat) (c : Cause) (m : Memory) (s : State) : ∃ c', doRstart lim (tint c m s) = tinted c' m (doRstart lim s) := by
  unfold doRstart
  by_cases h : s.st = .error
  · exact ⟨c, by rw [if_pos h, if_pos (show (tint c m s).st = .error from h)]; rfl⟩
  by_cases h' : s.st ≠ .data
  · refine ⟨.proto, ?_⟩
    rw [if_neg h, if_neg (show ¬ (tint c m s).st = .error from h), if_pos h', if_pos (show (tint c m s).st ≠ .data from h'), enterError_tint]; rfl
  · rw [if_neg h, if_neg (show ¬ (tint c m s).st = .error from h), if_neg h', if_neg (show ¬ (tint c m s).st ≠ .data from h')]
    have e1 := blind_tint (driveSda .framing true) (driveSda_blind _ _) c m {s with att := 0}
    have e2 := blind_tint (releaseScl lim .framing) (releaseScl_blind _ _) c m (driveSda .framing true {s with att := 0}).1
    generalize hr : releaseScl lim .framing (driveSda .framing true {s with att := 0}).1 = r at e2
    obtain ⟨u, w⟩ := r
    simp only [tint, tinted] at e1 e2 ⊢
    cases w with
    | stall =>
      refine ⟨.stall, ?_⟩
      have := enterError_tint lim .stall c m u
      simp only [tint] at this
      rw [e1]; simp only; rw [e2, hr]; simp only; rw [this]
    | ok v =>
      refine ⟨c, ?_⟩
      have e3 := blind_tint (driveSda .framing false) (driveSda_blind _ _) c m u
      have e4 := blind_tint (pullScl .framing) (pullScl_blind _) c m (driveSda .framing false u).1
      simp only [tint, tinted] at e3 e4
      rw [e1]; simp only; rw [e2, hr]; simp only; rw [e3]; simp only; rw [e4]

/-- `transfer(b)` (R92). It does the same with another buffer memory and another cause, but for them. -/
theorem transfer_tint (lim : Nat) (b : Byte) (c : Cause) (m : Memory) (s : State) : ∃ c', transfer lim b (tint c m s) = tinted c' m (transfer lim b s) := by
  unfold transfer
  have e1 := blind_tint (txByte lim b) (txByte_blind _ _) c m {s with att := 0}
  generalize hr : txByte lim b {s with att := 0} = r at e1
  obtain ⟨u, w⟩ := r
  simp only [tint, tinted] at e1 ⊢
  cases w with
  | stall =>
    refine ⟨.stall, ?_⟩
    have := enterError_tint lim .stall c m u
    simp only [tint] at this
    rw [e1]; simp only; rw [this]
  | nack =>
    refine ⟨.nack, ?_⟩
    have := enterError_tint lim .nack c m u
    simp only [tint] at this
    rw [e1]; simp only; rw [this]
  | ack => exact ⟨c, by rw [e1]⟩

/-- `do PUT` (R92). It does the same with another buffer memory and another cause, but for them. -/
theorem doPut_tint (lim : Nat) (b : Byte) (c : Cause) (m : Memory) (s : State) : ∃ c', doPut lim b (tint c m s) = tinted c' m (doPut lim b s) := by
  unfold doPut
  have a : (tint c m s).st = s.st := rfl
  have a' : (tint c m s).dir = s.dir := rfl
  rw [a, a']
  split
  · exact ⟨c, rfl⟩
  · split
    · exact transfer_tint lim b c m {s with st := .address, dir := dirOf b}
    · split
      · exact transfer_tint lim b c m s
      · exact ⟨.proto, by rw [enterError_tint]; rfl⟩

/-- `do GET` (R93). It does the same with another buffer memory and another cause, but for them. -/
theorem doGet_tint (lim : Nat) (b : Bool) (c : Cause) (m : Memory) (s : State) : ∃ c', doGet lim b (tint c m s) = tinted c' m (doGet lim b s) := by
  unfold doGet
  have a : (tint c m s).st = s.st := rfl
  have a' : (tint c m s).dir = s.dir := rfl
  rw [a, a']
  split
  · exact ⟨c, rfl⟩
  · split
    · have e1 := blind_tint (rxByte lim b) (rxByte_blind _ _) c m {s with att := 0}
      generalize hr : rxByte lim b {s with att := 0} = r at e1
      obtain ⟨u, w⟩ := r
      simp only [tint, tinted] at e1 ⊢
      cases w with
      | none =>
        refine ⟨.stall, ?_⟩
        have := enterError_tint lim .stall c m u
        simp only [tint] at this
        rw [e1]; simp only; rw [this]
      | some b => exact ⟨c, by rw [e1]⟩
    · exact ⟨.proto, by rw [enterError_tint]; rfl⟩

end Sys2Proof.Machine
end

