-- ==== Sys2Proof/Laws/Exec.lean ====
section
/-! SUPPORT. Everything one command can do, from every state that is quiet between commands, whatever the
environment answers: `exec_cases`. -/

namespace Sys2Proof.Machine

open Sys2Proof.Safety

/-- From `s` to `t` the questions `l` were asked, the drivers moving as R50 says. -/
structure Trail (s t : State) (l : List Ask) : Prop where
  emits : Emits s t l
  orderly : DriversOrderly (drivers s) l
  last : lastDrivers (drivers s) l = drivers t

/-- What a command leaves of the buffer memory (R30, R111): all but READB's bytes, in canonical form. -/
structure MemoryLaw (i : Instr) (s t : State) : Prop where
  read : ∀ x, (∀ a, i = .readb a → ∀ n < s.len.toNat, x ≠ (bufAddr s n).toNat) →
    Memory.read t.mem x = Memory.read s.mem x
  wf : Memory.wf s.mem = true → Memory.wf t.mem = true

/-- The state a bus command that succeeded ends in (R84). -/
def doneSt : Instr → St
  | .start => .start
  | .rstart => .rstart
  | .put _ | .get _ => .data
  | .stop | .writeb _ | .readb _ | .chkerr | .resume => .idle

/-- A bus command that succeeded. -/
structure Done (i : Instr) (s t : State) : Prop where
  st : t.st = doneSt i
  err : t.err = s.err
  cause : t.cause = s.cause
  bitcnt : t.bitcnt = 0#4 ∨ t.bitcnt = s.bitcnt
  att : t.att < Config.attemptLimit
  released : t.st = .idle → t.sclDrv = true ∧ t.sdaDrv = true
  owned : t.st ≠ .idle → t.sclDrv = false
  idleDir : t.st = .idle → t.dir = .write

/-- How a command ends: refused or a mere report, a fault, a success, or RESUME. -/
def Ends (i : Instr) (s t : State) (l : List Ask) : Prop :=
  (t = { s with rsp := t.rsp, busy := false } ∧ l = [] ∧ (i = .chkerr ∨ (s.st = .error ∧ busCommand i = true))) ∨
  (i = .resume ∧ t.st = .idle ∧ t.err = false ∧ t.cause = .none ∧ t.dir = .write ∧ t.sclDrv = true ∧
    t.sdaDrv = true ∧ t.bitcnt = 0#4 ∧ t.att = 0) ∨
  (busCommand i = true ∧ s.st ≠ .error ∧ (allowed i s.st s.dir = true → i ≠ .start) ∧
    Faulted Config.attemptLimit t l) ∨
  (busCommand i = true ∧ s.st ≠ .error ∧ allowed i s.st s.dir = true ∧ Done i s t)

/-- Everything one command can do. -/
structure Ran (i : Instr) (s t : State) (l : List Ask) : Prop where
  trail : Trail s t l
  notBusy : t.busy = false
  host : HostSideKept s t
  memory : MemoryLaw i s t
  length : l.length ≤ sampleBound Config.attemptLimit s.len.toNat i
  ends : Ends i s t l

theorem attemptLimit_pos : 0 < Config.attemptLimit := Nat.succ_pos _

/-- The response changes nothing a trail speaks of. -/
theorem Prim.respondTrail {s t : State} {l : List Ask} (p : Prim (accept s) t l) (ok : Bool) (data : Byte) (ill : Bool)
    (n : Int) : Trail s (respond ok data ill n t) l ∧ HostSideKept s (respond ok data ill n t) ∧
      (respond ok data ill n t).mem = s.mem :=
  ⟨⟨⟨p.emits.asked, p.emits.wire⟩, p.orderly, p.last⟩, ⟨p.kept.ptr, p.kept.len, p.kept.rst, p.kept.host, p.kept.reads⟩,
    p.kept.mem⟩

theorem MemoryLaw.of_eq {i : Instr} {s t : State} (h : t.mem = s.mem) : MemoryLaw i s t :=
  ⟨fun x _ => by rw [h], fun hw => by rw [h]; exact hw⟩

/-- A command that was refused in ERROR, or that only reports. -/
theorem ran_refused (i : Instr) (s : State) (ok : Bool) (data : Byte) (n : Int)
    (h : i = .chkerr ∨ (s.st = .error ∧ busCommand i = true)) : Ran i s (respond ok data false n (accept s)) [] :=
  ⟨⟨⟨by simp [respond, accept], by simp [respond, accept]⟩, trivial, rfl⟩, rfl, ⟨rfl, rfl, rfl, rfl, rfl⟩, .of_eq rfl,
    Nat.zero_le _, .inl ⟨rfl, rfl, h⟩⟩

/-- A primitive bus command that faulted. -/
theorem ran_faulted (i : Instr) (s t : State) (l : List Ask) (data : Byte) (ok : Bool) (n : Int) (p : Prim (accept s) t l)
    (f : Faulted Config.attemptLimit t l) (hb : busCommand i = true) (he : s.st ≠ .error)
    (ha : allowed i s.st s.dir = true → i ≠ .start)
    (hn : l.length ≤ sampleBound Config.attemptLimit s.len.toNat i) : Ran i s (respond ok data false n t) l := by
  obtain ⟨h1, h2, h3⟩ := p.respondTrail ok data false n
  exact ⟨h1, rfl, h2, .of_eq h3, hn, .inr (.inr (.inl ⟨hb, he, ha, ⟨f.err, f.st, f.scl, f.sda, f.att, f.cause⟩⟩))⟩

/-- A primitive bus command that succeeded. -/
theorem ran_done (i : Instr) (s t : State) (l : List Ask) (data : Byte) (n : Int) (p : Prim (accept s) t l)
    (hb : busCommand i = true) (he : s.st ≠ .error) (ha : allowed i s.st s.dir = true) (d : Done i s t)
    (hn : l.length ≤ sampleBound Config.attemptLimit s.len.toNat i) : Ran i s (respond true data false n t) l := by
  obtain ⟨h1, h2, h3⟩ := p.respondTrail true data false n
  exact ⟨h1, rfl, h2, .of_eq h3, hn, .inr (.inr (.inr ⟨hb, he, ha, ⟨d.st, d.err, d.cause, d.bitcnt, d.att, d.released, d.owned, d.idleDir⟩⟩))⟩

/-- A protocol violation by a bus command (R122). -/
theorem ran_proto (i : Instr) (s : State) (n : Int) (hb : busCommand i = true) (he : s.st ≠ .error)
    (ha : allowed i s.st s.dir = false) :
    ∃ l, Ran i s (respond false 0#8 false n (enterError Config.attemptLimit .proto (accept s))) l := by
  obtain ⟨l, p, f, -, -, -, -, hn⟩ := proto_faulted Config.attemptLimit (accept s) attemptLimit_pos
  refine ⟨l, ran_faulted i s _ l 0#8 false n p f hb he (by simp [ha]) ?_⟩
  refine Nat.le_trans hn ?_
  cases i <;> simp only [sampleBound] <;> first | omega | cases hb

/-- Everything START (R81) can do. -/
theorem execStart_ran (s : State) : ∃ t l, execStart s = .next t ∧ Ran .start s t l := by
  unfold execStart respondOk
  rcases doStart_cases Config.attemptLimit (accept s) with ⟨h, e⟩ | ⟨h1, h2, e⟩ | ⟨h, t, l, e, p, hl, h1, h2, h3, h4, h5⟩ <;>
    rw [e]
  · exact ⟨_, _, rfl, ran_refused _ _ _ _ _ (.inr ⟨h, rfl⟩)⟩
  · obtain ⟨l, r⟩ := ran_proto .start s 0 rfl h1 (by simpa [allowed] using h2)
    exact ⟨_, l, rfl, r⟩
  · have hi : s.st = .idle := h
    refine ⟨_, l, rfl, ran_done .start s t l _ _ p rfl (by simp [hi]) (by simp [allowed, hi]) ?_ (by rw [hl]; simp [sampleBound])⟩
    exact ⟨h1, h2, h3, .inr (congrArg LineRegs.bitcnt h5), by rw [show t.att = 0 from congrArg LineRegs.att h5]; exact attemptLimit_pos,
      by simp [h1], fun _ => congrArg LineRegs.scl h5, by simp [h1]⟩

/-- Everything STOP (R82) can do. -/
theorem execStop_ran (s : State) : ∃ t l, execStop s = .next t ∧ Ran .stop s t l := by
  unfold execStop respondOk
  rcases doStop_cases Config.attemptLimit (accept s) attemptLimit_pos with
    ⟨h, e⟩ | ⟨h1, h2, e⟩ | ⟨h, t, l, p, ⟨e, h1, h2, h3, h4, k, h5, h6, h7⟩ | ⟨e, f, h1, h2, h3, h4, h5⟩⟩ <;> rw [e]
  · exact ⟨_, _, rfl, ran_refused _ _ _ _ _ (.inr ⟨h, rfl⟩)⟩
  · obtain ⟨l, r⟩ := ran_proto .stop s 0 rfl h1 (by simpa [allowed] using h2)
    exact ⟨_, l, rfl, r⟩
  · have hi : s.st = .data := h
    refine ⟨_, l, rfl, ran_done .stop s t l _ _ p rfl (by simp [hi]) (by simp [allowed, hi]) ?_ (by simp only [sampleBound]; omega)⟩
    exact ⟨h1, h2, h3, .inr (congrArg LineRegs.bitcnt h7), by rw [show t.att = k from congrArg LineRegs.att h7]; exact h5,
      fun _ => ⟨congrArg LineRegs.scl h7, congrArg LineRegs.sda h7⟩, by simp [h1], fun _ => h4⟩
  · have hi : s.st = .data := h
    exact ⟨_, l, rfl, ran_faulted .stop s t l _ _ _ p f rfl (by simp [hi]) (by simp) (by simp only [sampleBound]; omega)⟩

/-- Everything RSTART (R83) can do. -/
theorem execRstart_ran (s : State) : ∃ t l, execRstart s = .next t ∧ Ran .rstart s t l := by
  unfold execRstart respondOk
  rcases doRstart_cases Config.attemptLimit (accept s) attemptLimit_pos with
    ⟨h, e⟩ | ⟨h1, h2, e⟩ | ⟨h, t, l, p, ⟨e, h1, h2, h3, h4, k, h5, h6, h7⟩ | ⟨e, f, h1, h2, h3, h4, h5⟩⟩ <;> rw [e]
  · exact ⟨_, _, rfl, ran_refused _ _ _ _ _ (.inr ⟨h, rfl⟩)⟩
  · obtain ⟨l, r⟩ := ran_proto .rstart s 0 rfl h1 (by simpa [allowed] using h2)
    exact ⟨_, l, rfl, r⟩
  · have hi : s.st = .data := h
    refine ⟨_, l, rfl, ran_done .rstart s t l _ _ p rfl (by simp [hi]) (by simp [allowed, hi]) ?_ (by simp only [sampleBound]; omega)⟩
    exact ⟨h1, h2, h3, .inr (congrArg LineRegs.bitcnt h7), by rw [show t.att = k from congrArg LineRegs.att h7]; exact h5,
      by simp [h1], fun _ => congrArg LineRegs.scl h7, by simp [h1]⟩
  · have hi : s.st = .data := h
    exact ⟨_, l, rfl, ran_faulted .rstart s t l _ _ _ p f rfl (by simp [hi]) (by simp) (by simp only [sampleBound]; omega)⟩

/-- Everything PUT (R92) can do. -/
theorem execPut_ran (b : Byte) (s : State) (q : Quiet s) : ∃ t l, execPut b s = .next t ∧ Ran (.put b) s t l := by
  unfold execPut respondOk
  rcases doPut_cases Config.attemptLimit b (accept s) attemptLimit_pos q.owned with
    ⟨h, e⟩ | ⟨h1, h2, h3, e⟩ | ⟨h, t, l, p, -, hd, ⟨e, h1, h2, h3, k, h5, h6, h7⟩ | ⟨e, f, h1, h2⟩⟩ <;> rw [e]
  · exact ⟨_, _, rfl, ran_refused _ _ _ _ _ (.inr ⟨h, rfl⟩)⟩
  · obtain ⟨l, r⟩ := ran_proto (.put b) s 0 rfl h1 (by simpa [allowed] using And.intro h2 h3)
    exact ⟨_, l, rfl, r⟩
  · have he : s.st ≠ .error := by rcases h with (h | h) | ⟨h, -⟩ <;> simp only [accept_st] at h <;> simp [h]
    refine ⟨_, l, rfl, ran_done (.put b) s t l _ _ p rfl he (by simpa [allowed] using h) ?_ (by simp only [sampleBound]; omega)⟩
    exact ⟨h1, h2, h3, .inl (congrArg LineRegs.bitcnt h7), by rw [show t.att = k from congrArg LineRegs.att h7]; exact h5,
      by simp [h1], fun _ => congrArg LineRegs.scl h7, by simp [h1]⟩
  · have he : s.st ≠ .error := by rcases h with (h | h) | ⟨h, -⟩ <;> simp only [accept_st] at h <;> simp [h]
    exact ⟨_, l, rfl, ran_faulted (.put b) s t l _ _ _ p f rfl he (by simp) (by simp only [sampleBound]; omega)⟩

/-- Everything GET (R93) can do. -/
theorem execGet_ran (nak : Bool) (s : State) (q : Quiet s) : ∃ t l, execGet nak s = .next t ∧ Ran (.get nak) s t l := by
  unfold execGet
  rcases doGet_cases Config.attemptLimit nak (accept s) attemptLimit_pos (fun h => q.owned (.inr (.inl h))) with
    ⟨h, e⟩ | ⟨h1, h2, e⟩ | ⟨h, hr, t, l, p, hd, ⟨b, e, h1, h2, h3, k, h5, h6, h7⟩ | ⟨e, f, h1, h2⟩⟩ <;> rw [e]
  · exact ⟨_, _, rfl, ran_refused _ _ _ _ _ (.inr ⟨h, rfl⟩)⟩
  · obtain ⟨l, r⟩ := ran_proto (.get nak) s 0 rfl h1 (by simpa [allowed] using h2)
    exact ⟨_, l, rfl, r⟩
  · have hi : s.st = .data := h
    have hr' : s.dir = .read := hr
    refine ⟨_, l, rfl, ran_done (.get nak) s t l _ _ p rfl (by simp [hi]) (by simp [allowed, hi, hr']) ?_ (by simp only [sampleBound]; omega)⟩
    exact ⟨h1, h2, h3, .inl (congrArg LineRegs.bitcnt h7), by rw [show t.att = k from congrArg LineRegs.att h7]; exact h5,
      by simp [h1], fun _ => congrArg LineRegs.scl h7, by simp [h1]⟩
  · have hi : s.st = .data := h
    exact ⟨_, l, rfl, ran_faulted (.get nak) s t l _ _ _ p f rfl (by simp [hi]) (by simp) (by simp only [sampleBound]; omega)⟩

/-- Everything RESUME (R101) can do. -/
theorem execResume_ran (s : State) : ∃ t l, execResume s = .next t ∧ Ran .resume s t l := by
  obtain ⟨l, k, r, hk, g, h1, -, h2, h3⟩ := abortRelease_runs Config.attemptLimit 0 (accept s) attemptLimit_pos
  refine ⟨_, l, rfl, ⟨⟨⟨r.emits.asked, r.emits.wire⟩, r.orderly, r.last⟩, rfl,
    ⟨r.kept.ptr, r.kept.len, r.kept.rst, r.kept.host, r.kept.reads⟩, .of_eq r.kept.mem, ?_, .inr (.inl ?_)⟩⟩
  · simp only [sampleBound]
    cases hs : (accept s).sclDrv with
    | false => have := (h1 hs).2; omega
    | true =>
      cases hd : (accept s).sdaDrv with
      | false => rw [h2 hs hd]; omega
      | true => rw [h3 hs hd]; simp
  · exact ⟨rfl, rfl, rfl, rfl, rfl, congrArg LineRegs.scl g, congrArg LineRegs.sda g, rfl, rfl⟩

/-- What a block transfer responds (R110, R111, R113). -/
structure BlockResponse (s t : State) (ok : Bool) (data : Byte) (n : Int) : Prop where
  rsp : t.rsp = rspWord ok data false n
  range : n = Config.errIndicator ∨ (0 ≤ n ∧ n ≤ s.len.toNat)
  success : ok = true → s.st = .idle ∧ t.st = .idle ∧ t.err = s.err ∧ n = s.len.toNat
  failure : ok = false → t.st = .error
  untouched : n = Config.errIndicator → t.mem = s.mem

/-- The common frame of the block transfers (R110, R111), given what its data phase can do: in an open transaction
either everything is transferred and the engine is back in DATA, or a fault ended it. -/
theorem blockTransfer_ran (i : Instr) (b : Byte) (loop : State → LoopResult) (s : State)
    (hb : busCommand i = true) (hi : i ≠ .start) (hal : ∀ d, allowed i s.st d = (s.st == .idle)) (hd : doneSt i = .idle)
    (hn : sampleBound Config.attemptLimit s.len.toNat i =
      3 + (27 + Config.attemptLimit) * (1 + s.len.toNat) + (3 + Config.attemptLimit) + (3 + Config.attemptLimit))
    (hloop : ∀ u : State, u.st = .data → u.dir = dirOf b → u.sclDrv = false → u.ptr = s.ptr → u.len = s.len → u.mem = s.mem →
      ∃ l, Prim { u with mem := (loop u).s.mem } (loop u).s l ∧ MemoryLaw i s (loop u).s ∧
        (((loop u).done = true ∧ (loop u).n = s.len.toNat ∧ LoopDone u (loop u).s ∧ l.length ≤ (27 + Config.attemptLimit) * s.len.toNat) ∨
         ((loop u).done = false ∧ (loop u).n ≤ s.len.toNat ∧ Faulted Config.attemptLimit (loop u).s l ∧
            l.length ≤ (27 + Config.attemptLimit) * s.len.toNat + Config.attemptLimit + 1))) :
    ∃ t l, blockTransfer Config.attemptLimit b loop (accept s) = t ∧ Ran i s t l ∧
      ∃ ok data n, BlockResponse s t ok data n := by
  unfold blockTransfer
  by_cases he : s.st = .error
  · exact ⟨_, _, if_pos he, ran_refused i s _ _ _ (.inr ⟨he, hb⟩), false, 0#8, Config.errIndicator,
      ⟨rfl, .inl rfl, by simp, fun _ => he, fun _ => rfl⟩⟩
  rw [if_neg (by simpa using he)]
  by_cases hidle : s.st ≠ .idle
  · rw [if_pos (by simpa using hidle)]
    obtain ⟨l, r⟩ := ran_proto i s Config.errIndicator hb he (by rw [hal]; simpa using hidle)
    refine ⟨_, l, rfl, r, false, 0#8, Config.errIndicator, ⟨rfl, .inl rfl, by simp, fun _ => ?_, fun _ => ?_⟩⟩
    · obtain ⟨_, -, f, -⟩ := proto_faulted Config.attemptLimit (accept s) attemptLimit_pos
      exact f.st
    · obtain ⟨_, p, -⟩ := proto_faulted Config.attemptLimit (accept s) attemptLimit_pos
      exact p.kept.mem
  rw [if_neg (by simpa using hidle)]
  have hid : s.st = .idle := Decidable.not_not.mp hidle
  have hall : allowed i s.st s.dir = true := by rw [hal, hid]; rfl
  rcases doStart_cases Config.attemptLimit (accept s) with ⟨h, -⟩ | ⟨-, h, -⟩ | ⟨-, u1, l1, e1, p1, n1, a1, a2, a3, a4, a5⟩
  · exact absurd h he
  · exact absurd hid h
  rw [e1]
  have hs1 : u1.sclDrv = false := congrArg LineRegs.scl a5
  rcases doPut_cases Config.attemptLimit b u1 attemptLimit_pos (fun _ => hs1) with
    ⟨h, -⟩ | ⟨-, h, -⟩ | ⟨-, u2, l2, p2, -, c1, ⟨e2, c2, c3, c4, k, c5, c6, c7⟩ | ⟨e2, f, c2, c3⟩⟩
  · rw [a1] at h; cases h
  · exact absurd (.inl a1) h
  · rw [if_neg (by simp [a1])] at c1
    simp only
    rw [e2]
    simp only
    have p12 := p1.trans p2
    obtain ⟨l3, p3, hm, h⟩ := hloop u2 c2 c1 (congrArg LineRegs.scl c7) p12.kept.ptr p12.kept.len p12.kept.mem
    generalize loop u2 = r at p3 hm h ⊢
    -- everything before the response: a trail from `s` to the end of the loop
    have tr : Trail s r.s (l1 ++ l2 ++ l3) := by
      have e := Emits.trans (s := s) (t := u2) ⟨p12.emits.asked, p12.emits.wire⟩ ⟨p3.emits.asked, p3.emits.wire⟩
      refine ⟨e, (driversOrderly_append _ _ _).2 ⟨p12.orderly, ?_⟩, ?_⟩
      · rw [show lastDrivers (drivers s) (l1 ++ l2) = drivers u2 from p12.last]; exact p3.orderly
      · rw [lastDrivers_append, show lastDrivers (drivers s) (l1 ++ l2) = drivers u2 from p12.last]; exact p3.last
    have hk : HostSideKept s r.s := ⟨p3.kept.ptr.trans p12.kept.ptr, p3.kept.len.trans p12.kept.len,
      p3.kept.rst.trans p12.kept.rst, p3.kept.host.trans p12.kept.host, p3.kept.reads.trans p12.kept.reads⟩
    rw [Nat.mul_add, Nat.mul_one] at hn
    unfold finish
    rcases h with ⟨d1, d0, d2, d3⟩ | ⟨d1, d0, d2, d3⟩
    · rw [if_pos d1]
      rcases doStop_cases Config.attemptLimit r.s attemptLimit_pos with
        ⟨h, -⟩ | ⟨-, h, -⟩ | ⟨-, u4, l4, p4, ⟨e4, b1, b2, b3, b4, j, b5, b6, b7⟩ | ⟨e4, f, b1, b2, b3, b4, b5⟩⟩
      · rw [d2.st] at h; cases h
      · exact absurd d2.st h
      all_goals
        rw [e4]
        simp only
        have tr4 : Trail s u4 (l1 ++ l2 ++ l3 ++ l4) := by
          refine ⟨tr.emits.trans p4.emits, (driversOrderly_append _ _ _).2 ⟨tr.orderly, ?_⟩, ?_⟩
          · rw [tr.last]; exact p4.orderly
          · rw [lastDrivers_append, tr.last]; exact p4.last
        refine ⟨_, l1 ++ l2 ++ l3 ++ l4, rfl, ⟨⟨⟨tr4.emits.asked, tr4.emits.wire⟩, tr4.orderly, tr4.last⟩, rfl,
          ⟨p4.kept.ptr.trans hk.ptr, p4.kept.len.trans hk.len, p4.kept.rst.trans hk.rst, p4.kept.host.trans hk.host,
            p4.kept.reads.trans hk.reads⟩, ⟨fun x hx => ?_, fun hw => ?_⟩, ?_, ?_⟩, _, _, _,
          ⟨rfl, .inr ⟨by omega, by omega⟩, ?_, ?_, fun h => by simp [Config.errIndicator] at h⟩⟩
      · rw [respond_mem, p4.kept.mem]; exact hm.read x hx
      · rw [respond_mem, p4.kept.mem]; exact hm.wf hw
      · simp only [List.length_append] at *; omega
      · refine .inr (.inr (.inr ⟨hb, he, hall, ⟨b1.trans hd.symm, (b2.trans d2.err).trans (c3.trans a2),
          (b3.trans d2.cause).trans (c4.trans a3), .inl ((congrArg LineRegs.bitcnt b7).trans ?_), ?_,
          fun _ => ⟨congrArg LineRegs.scl b7, congrArg LineRegs.sda b7⟩, fun h => absurd b1 h, fun _ => b4⟩⟩))
        · exact d2.bitcnt.elim id (fun h => h.trans (congrArg LineRegs.bitcnt c7))
        · show u4.att < _
          rw [show u4.att = j from congrArg LineRegs.att b7]; exact b5
      · exact fun _ => ⟨hid, b1, (b2.trans d2.err).trans (c3.trans a2), by rw [d0]⟩
      · simp
      · rw [respond_mem, p4.kept.mem]; exact hm.read x hx
      · rw [respond_mem, p4.kept.mem]; exact hm.wf hw
      · simp only [List.length_append] at *; omega
      · refine .inr (.inr (.inl ⟨hb, he, fun _ => hi, ⟨f.err, f.st, f.scl, f.sda, f.att, ?_⟩⟩))
        exact f.cause.imp id (Or.imp id (fun h => ⟨h.1, fun hd => h.2 ((dutyE4_append _ _ _).1 hd).2⟩))
      · simp
      · exact fun _ => f.st
    · rw [if_neg (by simp [d1])]
      refine ⟨_, l1 ++ l2 ++ l3, rfl, ⟨⟨⟨tr.emits.asked, tr.emits.wire⟩, tr.orderly, tr.last⟩, rfl,
        ⟨hk.ptr, hk.len, hk.rst, hk.host, hk.reads⟩, ⟨hm.read, hm.wf⟩, ?_,
        .inr (.inr (.inl ⟨hb, he, fun _ => hi, ⟨d2.err, d2.st, d2.scl, d2.sda, d2.att, ?_⟩⟩))⟩, false, 0#8, r.n,
        ⟨rfl, .inr ⟨by omega, by omega⟩, by simp, fun _ => d2.st, fun h => by simp [Config.errIndicator] at h⟩⟩
      · simp only [List.length_append] at *; omega
      · exact d2.cause.imp id (Or.imp id (fun h => ⟨h.1, fun hd => h.2 ((dutyE4_append _ _ _).1 hd).2⟩))
  · simp only
    rw [e2]
    have p12 := p1.trans p2
    refine ⟨_, l1 ++ l2, rfl, ran_faulted i s u2 _ _ _ _ p12 ?_ hb he (fun _ => hi) ?_, false, 0#8, Config.errIndicator,
      ⟨rfl, .inl rfl, by simp, fun _ => f.st, fun _ => p12.kept.mem⟩⟩
    · exact ⟨f.err, f.st, f.scl, f.sda, f.att,
        f.cause.imp id (Or.imp id (fun h => ⟨h.1, fun hd => h.2 ((dutyE4_append _ _ _).1 hd).2⟩))⟩
    · rw [hn, Nat.mul_add]; simp only [List.length_append]; omega

theorem dirOf_addrByte (a : DevAddr) (d : Dir) : dirOf (addrByte a d) = d := by
  revert a; cases d <;> decide +kernel

/-- Everything WRITEB can do (R110). -/
theorem execWriteb_ran (a : DevAddr) (s : State) : ∃ t l, execWriteb a s = .next t ∧ Ran (.writeb a) s t l ∧
    ∃ ok data n, BlockResponse s t ok data n := by
  obtain ⟨t, l, e, r⟩ := blockTransfer_ran (.writeb a) (addrByte a .write)
    (fun u => writeLoop Config.attemptLimit u.len.toNat 0 u) s rfl (by simp) (fun _ => rfl) rfl rfl (by
      intro u h1 h2 h3 h4 h5 h6
      obtain ⟨l, p, -, -, h⟩ := writeLoop_cases Config.attemptLimit u.len.toNat 0 u attemptLimit_pos h1
        (by rw [h2, dirOf_addrByte]) h3
      refine ⟨l, ?_, .of_eq (p.kept.mem.trans h6), ?_⟩
      · rw [p.kept.mem]; exact p
      · rw [h5] at h ⊢
        rcases h with ⟨d1, d2, d3, d4⟩ | ⟨d1, -, d2, d4, -, d6⟩
        · exact .inl ⟨d1, by omega, d3, d4⟩
        · exact .inr ⟨d1, by omega, d4, d6⟩)
  exact ⟨t, l, congrArg _ e, r⟩

/-- Everything READB can do (R111). -/
theorem execReadb_ran (a : DevAddr) (s : State) : ∃ t l, execReadb a s = .next t ∧ Ran (.readb a) s t l ∧
    ∃ ok data n, BlockResponse s t ok data n := by
  obtain ⟨t, l, e, r⟩ := blockTransfer_ran (.readb a) (addrByte a .read)
    (fun u => readLoop Config.attemptLimit u.len.toNat 0 0#8 u) s rfl (by simp) (fun _ => rfl) rfl rfl (by
      intro u h1 h2 h3 h4 h5 h6
      obtain ⟨l, p, -, hm, hw, h⟩ := readLoop_cases Config.attemptLimit u.len.toNat 0 0#8 u attemptLimit_pos h1
        (by rw [h2, dirOf_addrByte]) h3
      refine ⟨l, p, ⟨fun x hx => ?_, fun h => hw (by rw [h6]; exact h)⟩, ?_⟩
      · rw [← h6]
        refine hm x (fun i _ hi => ?_)
        rw [bufAddr_congr h4]
        refine hx a rfl i ?_
        rw [← h5]
        rcases h with ⟨-, d2, -⟩ | ⟨-, -, d3, -⟩ <;> omega
      · rw [h5] at h ⊢
        rcases h with ⟨d1, d2, -, d3, d4⟩ | ⟨d1, -, d2, d4, -, d6⟩
        · exact .inl ⟨d1, by omega, d3, d4⟩
        · exact .inr ⟨d1, by omega, d4, d6⟩)
  exact ⟨t, l, congrArg _ e, r⟩

/-- Everything one command can do, from a state that is quiet. -/
theorem exec_cases (i : Instr) (s : State) (q : Quiet s) : ∃ t l, exec i s = .next t ∧ Ran i s t l := by
  cases i with
  | start => exact execStart_ran s
  | stop => exact execStop_ran s
  | rstart => exact execRstart_ran s
  | put b => exact execPut_ran b s q
  | get nak => exact execGet_ran nak s q
  | chkerr => exact ⟨_, _, rfl, ran_refused .chkerr s true (errByte s.err) 0 (.inl rfl)⟩
  | resume => exact execResume_ran s
  | writeb a => obtain ⟨t, l, e, r, -⟩ := execWriteb_ran a s; exact ⟨t, l, e, r⟩
  | readb a => obtain ⟨t, l, e, r, -⟩ := execReadb_ran a s; exact ⟨t, l, e, r⟩

end Sys2Proof.Machine
end

