-- ==== Sys2Proof/Laws/ScriptCommands.lean ====
section
/-! SUPPORT. What the primitive commands (R112) and the loops of the block transfers (R110, R111) do, exactly, when
the environment's next answers are given. -/

namespace Sys2Proof.Machine

open Sys2Proof.Safety

/-- A wait for the clock (R46) that ends in time. -/
theorem releaseScl_script (lim : Nat) (slot : Slot) (lows : List Levels) (hi : Levels) (rest : List Levels) (s : State)
    (hlow : ∀ e ∈ lows, e.scl = false) (hhi : hi.scl = true) (hk : s.att + lows.length < lim)
    (h : s.env = .script (lows ++ hi :: rest)) :
    releaseScl lim slot s =
      ({ told (pollAsks ⟨true, s.sdaDrv⟩ slot s.att (lows ++ [hi])) rest s with
          sclDrv := true, att := s.att + lows.length }, .ok (s.sdaDrv && hi.sda)) :=
  pollScl_script lim slot lows hi rest { s with sclDrv := true } rfl hlow hhi hk h

/-- A wait for the clock (R46) that is given up. -/
theorem releaseScl_script_stall (lim : Nat) (slot : Slot) (lows rest : List Levels) (s : State)
    (hlow : ∀ e ∈ lows, e.scl = false) (ha : s.att < lim) (hk : s.att + lows.length = lim)
    (h : s.env = .script (lows ++ rest)) :
    releaseScl lim slot s =
      ({ told (pollAsks ⟨true, s.sdaDrv⟩ slot s.att lows) rest s with sclDrv := true, att := lim }, .stall) :=
  pollScl_script_stall lim slot lows rest { s with sclDrv := true } rfl hlow ha hk h

/-- The questions of a stop condition formed while the BTE holds the clock (R82, R49). -/
def stopAsks (slot : Slot) (c : Cell) : List Ask :=
  ⟨⟨false, false⟩, c.setup, slot, false, 0⟩ :: (pollAsks ⟨true, false⟩ slot 0 (c.lows ++ [c.high]) ++
    [⟨⟨true, true⟩, c.low, slot, false, c.lows.length⟩])

theorem stopAsks_samples (slot : Slot) (c : Cell) (h : c.Good) : (stopAsks slot c).map sampleOf = stopSamples c := by
  have := lows_samples false c.lows h.1
  simp only [Bool.false_and] at this
  simp [stopAsks, stopSamples, sampleOf_pollAsks, this, sampleOf, wiredAnd, h.2]

/-- `AbortRelease` (R49) while the BTE holds the clock. -/
theorem abortRelease_script (lim before : Nat) (c : Cell) (rest : List Levels) (s : State) (hs : s.sclDrv = false) (hc : c.Good)
    (hk : c.lows.length < lim) (h : s.env = .script (c.answers ++ rest)) :
    abortRelease lim before s =
      { told (stopAsks (.release before) c) rest s with sclDrv := true, sdaDrv := true, att := c.lows.length } := by
  have h1 : s.env = .script (c.setup :: (c.lows ++ c.high :: c.low :: rest)) := by rw [h]; simp [Cell.answers]
  have h2 := releaseScl_script lim (.release before) c.lows c.high (c.low :: rest)
    { told [⟨⟨false, false⟩, c.setup, .release before, false, 0⟩] (c.lows ++ c.high :: c.low :: rest) { s with att := 0 } with
      sdaDrv := false } hc.1 hc.2 (by simpa [told] using hk) rfl
  unfold abortRelease
  simp only [hs, if_true]
  rw [driveSda_script (.release before) false { s with att := 0, sclDrv := false } c.setup _ h1]
  simp only [told, hs] at h2 ⊢
  rw [h2]
  simp [driveSda, emit, envLevels, drivers, Env.saw, stopAsks, sampleOf, wiredAnd]

/-- `AbortRelease` (R49) after a stall: the clock is released already. -/
theorem abortRelease_script_free (lim before : Nat) (e : Levels) (rest : List Levels) (s : State) (hs : s.sclDrv = true)
    (h : s.sdaDrv = false → s.env = .script (e :: rest)) :
    abortRelease lim before s =
      if s.sdaDrv then { s with att := 0 }
      else { told [⟨⟨true, true⟩, e, .release before, false, 0⟩] rest s with sdaDrv := true, att := 0 } := by
  unfold abortRelease
  by_cases hd : s.sdaDrv = true
  · simp [hs, hd]
  · simp only [Bool.not_eq_true] at hd
    simp only [hs, hd, Bool.true_eq_false, if_false, if_true]
    rw [driveSda_script (.release before) true { s with att := 0, sclDrv := true, sdaDrv := false } e rest (h hd)]
    simp [told, hs]

/-- `do START` (R81). -/
theorem doStart_script (lim : Nat) (e0 e1 e2 : Levels) (rest : List Levels) (s : State) (h : s.st = .idle)
    (hs : s.sclDrv = true) (hd : s.sdaDrv = true) (he : s.env = .script (e0 :: e1 :: e2 :: rest)) :
    ∃ l, doStart lim s = ({ told l rest s with st := .start, sclDrv := false, sdaDrv := false, att := 0 }, true) ∧
      l.map sampleOf = startSamples e0 e1 := by
  refine ⟨[⟨⟨true, true⟩, e0, .idleBus, false, 0⟩, ⟨⟨true, false⟩, e1, .framing, false, 0⟩,
    ⟨⟨false, false⟩, e2, .framing, false, 0⟩], ?_, ?_⟩
  · simp [doStart, h, driveSda, pullScl, emit, envLevels, he, drivers, Env.saw, told, hs, hd, sampleOf, wiredAnd]
  · simp [sampleOf, wiredAnd, startSamples]

/-- `do STOP` (R82). -/
theorem doStop_script (lim : Nat) (c : Cell) (rest : List Levels) (s : State) (h : s.st = .data) (hs : s.sclDrv = false)
    (hc : c.Good) (hk : c.lows.length < lim) (he : s.env = .script (c.answers ++ rest)) :
    doStop lim s =
      ({ told (stopAsks .framing c) rest s with
          st := .idle, dir := .write, sclDrv := true, sdaDrv := true, att := c.lows.length }, true) := by
  have h1 : s.env = .script (c.setup :: (c.lows ++ c.high :: c.low :: rest)) := by rw [he]; simp [Cell.answers]
  have h2 := releaseScl_script lim .framing c.lows c.high (c.low :: rest)
    { told [⟨⟨false, false⟩, c.setup, .framing, false, 0⟩] (c.lows ++ c.high :: c.low :: rest)
        { s with att := 0, st := .stop } with sdaDrv := false } hc.1 hc.2 (by simpa [told] using hk) rfl
  unfold doStop
  rw [if_neg (by simp [h]), if_neg (by simp [h])]
  simp only
  rw [driveSda_script .framing false { s with att := 0, st := .stop } c.setup _ h1]
  simp only [told, hs] at h2 ⊢
  rw [h2]
  simp [driveSda, emit, envLevels, drivers, Env.saw, stopAsks, sampleOf, wiredAnd]

/-- `transfer(b)` (R92), the byte acknowledged. -/
theorem transfer_script_ack (lim : Nat) (b : Byte) (f : FrameCells) (rest : List Levels) (s : State)
    (hs : s.sclDrv = false) (hf : f.Good lim) (ha : f.acked = true) (h : s.env = .script (f.answers ++ rest)) :
    ∃ l, transfer lim b s =
        ({ told l rest s with st := .data, shreg := b, bitcnt := 0#4, sdaDrv := true, att := polls f.cells }, true) ∧
      l.map sampleOf = f.sent b := by
  obtain ⟨l, e, e2⟩ := txByte_script lim b f rest { s with att := 0 } hs rfl hf h
  refine ⟨l, ?_, e2⟩
  rw [transfer, e, ha]
  rfl

/-- `transfer(b)` (R92), the byte not acknowledged: the frame, then the stop condition of the fault entry. -/
theorem transfer_script_nack (lim : Nat) (b : Byte) (f : FrameCells) (c : Cell) (rest : List Levels) (s : State)
    (hs : s.sclDrv = false) (hf : f.Good lim) (ha : f.acked = false) (hc : c.Good) (hk : c.lows.length < lim)
    (h : s.env = .script (f.answers ++ (c.answers ++ rest))) :
    ∃ l, transfer lim b s =
        ({ told l rest s with
            err := true, cause := .nack, st := .error, shreg := b, bitcnt := 0#4, sclDrv := true, sdaDrv := true,
            att := c.lows.length }, false) ∧
      l.map sampleOf = f.sent b ++ stopSamples c := by
  obtain ⟨l, e, e2⟩ := txByte_script lim b f (c.answers ++ rest) { s with att := 0 } hs rfl hf h
  refine ⟨l ++ stopAsks (.release (polls f.cells)) c, ?_, by rw [List.map_append, e2, stopAsks_samples _ c hc]⟩
  rw [transfer, e, ha]
  simp only [Bool.false_eq_true, if_false, enterError]
  rw [abortRelease_script lim _ c rest _ (by simpa [told] using hs) hc hk (by simp [told])]
  simp [told]

/-- `do PUT` (R92) where it is allowed is the transfer, an address byte setting `dir` first. -/
theorem doPut_allowed (lim : Nat) (b : Byte) (s : State) (h : allowed (.put b) s.st s.dir = true) :
    doPut lim b s = transfer lim b
      (if s.st = .data then s else { s with st := .address, dir := dirOf b }) := by
  unfold doPut
  simp only [allowed, Bool.or_eq_true, Bool.and_eq_true, beq_iff_eq] at h
  rcases h with (h | h) | ⟨h, h'⟩
  · simp [h]
  · simp [h]
  · simp [h, h']

/-- `do GET` (R93). -/
theorem doGet_script (lim : Nat) (nak : Bool) (f : FrameCells) (rest : List Levels) (s : State) (h1 : s.st = .data)
    (h2 : s.dir = .read) (hs : s.sclDrv = false) (hf : f.Good lim) (h : s.env = .script (f.answers ++ rest)) :
    ∃ l, doGet lim nak s =
        ({ told l rest s with shreg := byteShown f.data, bitcnt := 0#4, sdaDrv := nak, att := polls f.cells },
          some (byteShown f.data)) ∧
      l.map sampleOf = f.received nak := by
  obtain ⟨l, e, e2⟩ := rxByte_script lim nak f rest { s with att := 0 } hs rfl hf h
  refine ⟨l, ?_, e2⟩
  rw [doGet, if_neg (by simp [h1]), if_pos ⟨h1, h2⟩, e]
  rfl

theorem memRead_known (a : BufAddr) (b : Byte) (s : State) (h : Memory.read s.mem a.toNat = some b) :
    memRead a s = (s, b) := by
  simp [memRead, loadByte, h]

/-- The loop of WRITEB (R110) over bytes that are all acknowledged. -/
theorem writeLoop_script (lim : Nat) (frames : List FrameCells) (bs : List Byte) (rest : List Levels) (n k : Nat) (s : State)
    (h1 : s.st = .data) (h2 : s.dir = .write) (hs : s.sclDrv = false)
    (hlen : bs.length = frames.length) (hf : ∀ f ∈ frames, f.Good lim ∧ f.acked = true)
    (hm : ∀ i (h : i < bs.length), Memory.read s.mem (bufAddr s (n + i)).toNat = some bs[i])
    (h : s.env = .script (frames.flatMap FrameCells.answers ++ rest)) :
    ∃ l a b c, l.map sampleOf = (frames.zip bs).flatMap (fun p => p.1.sent p.2) ∧
      ∃ d, writeLoop lim (frames.length + k) n s =
        writeLoop lim k (n + frames.length)
          { told l rest s with st := .data, shreg := a, bitcnt := b, att := c, sdaDrv := d } := by
  induction frames generalizing bs n s with
  | nil =>
    refine ⟨[], s.shreg, s.bitcnt, s.att, by simp, s.sdaDrv, ?_⟩
    simp only [List.flatMap_nil, List.nil_append] at h
    simp [told, ← h, ← h1]
  | cons f frames ih =>
    obtain ⟨b, bs, rfl⟩ := List.exists_cons_of_length_eq_add_one hlen
    have hf0 := hf f (by simp)
    have hb : Memory.read s.mem (bufAddr s n).toNat = some b := hm 0 (by simp)
    have h' : s.env = .script (f.answers ++ (frames.flatMap FrameCells.answers ++ rest)) := by rw [h]; simp
    obtain ⟨l, e, e2⟩ := transfer_script_ack lim b f _ s hs hf0.1 hf0.2 h'
    obtain ⟨l', a, b', c, g1, d, g2⟩ := ih bs (n + 1)
      { told l (frames.flatMap FrameCells.answers ++ rest) s with
        st := .data, shreg := b, bitcnt := 0#4, sdaDrv := true, att := polls f.cells } rfl h2 hs (by simpa using hlen)
      (fun f' h' => hf f' (by simp [h'])) (fun i hi => by
        have := hm (i + 1) (by simp only [List.length_cons]; omega)
        rw [List.getElem_cons_succ] at this
        rw [show n + 1 + i = n + (i + 1) by omega]
        exact this) rfl
    refine ⟨l ++ l', a, b', c, by rw [List.map_append, e2, g1]; simp, d, ?_⟩
    rw [show (f :: frames).length + k = (frames.length + k) + 1 by simp only [List.length_cons]; omega, writeLoop,
      memRead_known _ _ _ hb]
    simp only
    rw [doPut_allowed _ _ _ (by simp [allowed, h1, h2]), if_pos h1, e]
    simp only
    rw [g2, List.length_cons, show n + 1 + frames.length = n + (frames.length + 1) by omega]
    simp [told]

/-- The loop of READB (R111) over bytes that are all received; `m` is the memory it leaves. -/
theorem readLoop_script (lim : Nat) (frames : List FrameCells) (rest : List Levels) (n k : Nat) (last : Byte) (s : State)
    (h1 : s.st = .data) (h2 : s.dir = .read) (hs : s.sclDrv = false) (hf : ∀ f ∈ frames, f.Good lim)
    (hn : frames.length + k < 65536)
    (h : s.env = .script (frames.flatMap FrameCells.answers ++ rest)) :
    ∃ l a b c d m,
      l.map sampleOf = (if k = 0 then receivedAll frames else frames.flatMap (fun f => f.received false)) ∧
      (∀ i (h : i < frames.length), Memory.read m (bufAddr s (n + i)).toNat = some (byteShown frames[i].data)) ∧
      (∀ x, (∀ i < frames.length, x ≠ (bufAddr s (n + i)).toNat) → Memory.read m x = Memory.read s.mem x) ∧
      readLoop lim (frames.length + k) n last s =
        readLoop lim k (n + frames.length) ((frames.getLast?.map (fun f => byteShown f.data)).getD last)
          { told l rest s with shreg := a, bitcnt := b, att := c, sdaDrv := d, mem := m } := by
  induction frames generalizing n last s with
  | nil =>
    refine ⟨[], s.shreg, s.bitcnt, s.att, s.sdaDrv, s.mem, by simp [receivedAll], by simp, by simp, ?_⟩
    simp only [List.flatMap_nil, List.nil_append] at h
    simp [told, ← h]
  | cons f frames ih =>
    have h' : s.env = .script (f.answers ++ (frames.flatMap FrameCells.answers ++ rest)) := by rw [h]; simp
    obtain ⟨l, e, e2⟩ := doGet_script lim (frames.length + k == 0) f _ s h1 h2 hs (hf f (by simp)) h'
    obtain ⟨l', a, b, c, d, m, g1, g2, g3, g4⟩ := ih (n + 1) (byteShown f.data)
      (memWrite (bufAddr s n) (byteShown f.data) { told l (frames.flatMap FrameCells.answers ++ rest) s with
        shreg := byteShown f.data, bitcnt := 0#4, sdaDrv := (frames.length + k == 0), att := polls f.cells }) h1 h2 hs
      (fun f' h' => hf f' (by simp [h'])) (by simp only [List.length_cons] at hn; omega) rfl
    have key : ∀ i < frames.length, (bufAddr s (n + 1 + i)).toNat ≠ (bufAddr s n).toNat := by
      intro i hi
      simp only [List.length_cons] at hn
      simp only [bufAddr, BitVec.toNat_add, BitVec.toNat_ofNat]
      omega
    refine ⟨l ++ l', a, b, c, d, m, ?_, ?_, ?_, ?_⟩
    · rw [List.map_append, e2, g1]
      clear ih g1 g2 g3 g4 e e2
      have h0 : ∀ m : Nat, (m + 1 + k == 0) = false := fun m => by
        rw [beq_eq_false_iff_ne]; omega
      cases frames with
      | nil =>
        by_cases hk : k = 0
        · simp [hk, receivedAll]
        · have : (k == 0) = false := by simpa using hk
          simp [hk, this]
      | cons f' frames => by_cases hk : k = 0 <;> simp [hk, receivedAll, h0]
    · intro i hi
      cases i with
      | zero =>
        rw [Nat.add_zero, g3 _ (fun i hi => (key i hi).symm)]
        exact Memory.read_write_same _ _ _
      | succ i =>
        have := g2 i (by simp only [List.length_cons] at hi; omega)
        rw [List.getElem_cons_succ, show n + (i + 1) = n + 1 + i by omega]
        exact this
    · intro x hx
      rw [g3 x (fun i hi => by
        have := hx (i + 1) (by simp only [List.length_cons]; omega)
        rw [show n + (i + 1) = n + 1 + i by omega] at this
        exact this)]
      exact Memory.read_write_other _ _ _ _ (by simpa using hx 0 (by simp))
    · rw [show (f :: frames).length + k = (frames.length + k) + 1 by simp only [List.length_cons]; omega, readLoop, e]
      simp only
      refine g4.trans ?_
      rw [List.length_cons, show n + 1 + frames.length = n + (frames.length + 1) by omega]
      have hl : ((f :: frames).getLast?.map (fun f => byteShown f.data)).getD last =
          (frames.getLast?.map (fun f => byteShown f.data)).getD (byteShown f.data) := by
        cases frames with
        | nil => rfl
        | cons f' frames => simp [List.getLast?_cons]
      rw [hl]
      simp [told, memWrite]

/-! ### Stalls -/

/-- The questions of a bit cell (R47, R48) that is given up. -/
def stallAsks (slot : Slot) (b : Bool) (att : Nat) (e : Levels) (lows : List Levels) : List Ask :=
  ⟨⟨false, b⟩, e, slot, false, att⟩ :: pollAsks ⟨true, b⟩ slot att lows

theorem stallAsks_samples (slot : Slot) (b : Bool) (att : Nat) (e : Levels) (lows : List Levels)
    (h : ∀ x ∈ lows, x.scl = false) :
    (stallAsks slot b att e lows).map sampleOf = ⟨false, b && e.sda⟩ :: lows.map (fun x => ⟨false, b && x.sda⟩) := by
  simp [stallAsks, sampleOf_pollAsks, lows_samples b lows h, sampleOf, wiredAnd]

/-- A bit cell (R47, R48) in which the failed polls reach the limit. -/
theorem txBit_script_stall (lim : Nat) (slot : Slot) (b : Bool) (e : Levels) (lows rest : List Levels) (s : State)
    (hs : s.sclDrv = false) (hlow : ∀ x ∈ lows, x.scl = false) (ha : s.att < lim) (hk : s.att + lows.length = lim)
    (h : s.env = .script (e :: (lows ++ rest))) :
    txBit lim slot b s =
      ({ told (stallAsks slot b s.att e lows) rest s with sclDrv := true, sdaDrv := b, att := lim }, .stall) := by
  have h2 := releaseScl_script_stall lim slot lows rest
    { told [⟨⟨s.sclDrv, b⟩, e, slot, false, s.att⟩] (lows ++ rest) s with sdaDrv := b } hlow ha hk rfl
  rw [txBit, driveSda_script slot b s _ _ h]
  simp only [told] at h2 ⊢
  rw [h2]
  simp [stallAsks, hs]

/-- The data cells of a sent byte (R90), a stall in the cell after `cells`. -/
theorem txBits_script_stall (lim : Nat) (cells : List Cell) (v : Bool) (e : Levels) (lows rest : List Levels) (s : State)
    (k : Nat) (hlen : cells.length < k) (hs : s.sclDrv = false) (hc : ∀ c ∈ cells, c.Good)
    (hlow : ∀ x ∈ lows, x.scl = false) (hne : lows ≠ []) (hk : s.att + polls cells + lows.length = lim)
    (hv : ((List.range k).reverse.map (fun i => s.shreg.getLsbD i))[cells.length]? = some v)
    (h : s.env = .script (answersOf cells ++ e :: (lows ++ rest))) :
    ∃ l b, (txBits lim k s) =
        ({ told l rest s with bitcnt := b, sclDrv := true, sdaDrv := v, att := lim }, false) ∧
      l.map sampleOf = frameSamples ((List.range k).reverse.map (fun i => s.shreg.getLsbD i)) cells ++
        ⟨false, v && e.sda⟩ :: lows.map (fun x => ⟨false, v && x.sda⟩) := by
  have hpos : 0 < lows.length := List.length_pos_iff.2 hne
  induction cells generalizing k s with
  | nil =>
    obtain ⟨k, rfl⟩ : ∃ j, k = j + 1 := ⟨k - 1, by simp only [List.length_nil] at hlen; omega⟩
    have hv' : s.shreg.getLsbD k = v := by simpa [List.range_succ] using hv
    simp only [polls, List.map_nil, List.sum_nil, Nat.add_zero] at hk
    have h1 : s.env = .script (e :: (lows ++ rest)) := by rw [h]; simp [answersOf]
    refine ⟨stallAsks .tx v s.att e lows, BitVec.ofNat 4 (7 - k), ?_, ?_⟩
    · rw [txBits, txBit_script_stall lim .tx _ e lows rest { s with bitcnt := BitVec.ofNat 4 (7 - k) } hs hlow
        (by simp only; omega) hk h1, hv']
      rfl
    · rw [stallAsks_samples _ _ _ _ _ hlow]
      simp [frameSamples]
  | cons c cells ih =>
    simp only [List.length_cons] at hlen
    obtain ⟨k, rfl⟩ : ∃ j, k = j + 1 := ⟨k - 1, by omega⟩
    simp only [polls, List.map_cons, List.sum_cons] at hk
    have h1 : s.env = .script (c.answers ++ (answersOf cells ++ e :: (lows ++ rest))) := by rw [h]; simp [answersOf]
    rw [txBits, txBit_script lim .tx (s.shreg.getLsbD k) c _ { s with bitcnt := BitVec.ofNat 4 (7 - k) } hs
      (hc c (by simp)) (by simp only; omega) h1]
    simp only
    obtain ⟨l, b, e1, e2⟩ := ih
      { told (cellAsks .tx (s.shreg.getLsbD k) s.att c) (answersOf cells ++ e :: (lows ++ rest))
          { s with bitcnt := BitVec.ofNat 4 (7 - k) } with
        sdaDrv := s.shreg.getLsbD k, att := s.att + c.lows.length }
      k (by omega) hs (fun x hx => hc x (by simp [hx])) (by simp only [polls]; omega)
      (by simpa [List.range_succ, told] using hv) rfl
    refine ⟨cellAsks .tx (s.shreg.getLsbD k) s.att c ++ l, b, ?_, ?_⟩
    · simp only [told] at e1 ⊢
      rw [e1]
      simp
    · rw [List.map_append, e2, cellAsks_samples _ _ _ _ (hc c (by simp))]
      simp [List.range_succ, frameSamples, told]

/-- The data cells of a received byte (R91), a stall in the cell after `cells`. -/
theorem rxBits_script_stall (lim : Nat) (cells : List Cell) (e : Levels) (lows rest : List Levels) (s : State)
    (k : Nat) (hlen : cells.length < k) (hs : s.sclDrv = false) (hc : ∀ c ∈ cells, c.Good)
    (hlow : ∀ x ∈ lows, x.scl = false) (hne : lows ≠ []) (hk : s.att + polls cells + lows.length = lim)
    (h : s.env = .script (answersOf cells ++ e :: (lows ++ rest))) :
    ∃ l a b, (rxBits lim k s) =
        ({ told l rest s with shreg := a, bitcnt := b, sclDrv := true, sdaDrv := true, att := lim }, false) ∧
      l.map sampleOf = frameSamples (List.replicate k true) cells ++
        ⟨false, e.sda⟩ :: lows.map (fun x => ⟨false, x.sda⟩) := by
  have hpos : 0 < lows.length := List.length_pos_iff.2 hne
  induction cells generalizing k s with
  | nil =>
    obtain ⟨k, rfl⟩ : ∃ j, k = j + 1 := ⟨k - 1, by simp only [List.length_nil] at hlen; omega⟩
    simp only [polls, List.map_nil, List.sum_nil, Nat.add_zero] at hk
    have h1 : s.env = .script (e :: (lows ++ rest)) := by rw [h]; simp [answersOf]
    refine ⟨stallAsks .rx true s.att e lows, s.shreg, BitVec.ofNat 4 (7 - k), ?_, ?_⟩
    · rw [rxBits, rxBit_eq, txBit_script_stall lim .rx _ e lows rest { s with bitcnt := BitVec.ofNat 4 (7 - k) } hs hlow
        (by simp only; omega) hk h1]
      rfl
    · rw [stallAsks_samples _ _ _ _ _ hlow]
      simp [frameSamples]
  | cons c cells ih =>
    simp only [List.length_cons] at hlen
    obtain ⟨k, rfl⟩ : ∃ j, k = j + 1 := ⟨k - 1, by omega⟩
    simp only [polls, List.map_cons, List.sum_cons] at hk
    have h1 : s.env = .script (c.answers ++ (answersOf cells ++ e :: (lows ++ rest))) := by rw [h]; simp [answersOf]
    rw [rxBits, rxBit_eq, txBit_script lim .rx true c _ { s with bitcnt := BitVec.ofNat 4 (7 - k) } hs
      (hc c (by simp)) (by simp only; omega) h1]
    simp only [Bool.true_and]
    obtain ⟨l, a, b, e1, e2⟩ := ih
      { told (cellAsks .rx true s.att c) (answersOf cells ++ e :: (lows ++ rest))
          { s with bitcnt := BitVec.ofNat 4 (7 - k) } with
        sdaDrv := true, att := s.att + c.lows.length, shreg := shiftIn s.shreg c.high.sda }
      k (by omega) hs (fun x hx => hc x (by simp [hx])) (by simp only [polls]; omega) rfl
    refine ⟨cellAsks .rx true s.att c ++ l, a, b, ?_, ?_⟩
    · simp only [told] at e1 ⊢
      rw [e1]
      simp
    · rw [List.map_append, e2, cellAsks_samples _ _ _ _ (hc c (by simp))]
      simp [List.replicate_succ, frameSamples]

theorem frameSamples_take (bits more : List Bool) (cells : List Cell) (h : cells.length ≤ bits.length) :
    frameSamples (bits ++ more) cells = frameSamples bits cells := by
  unfold frameSamples
  congr 1
  induction cells generalizing bits with
  | nil => simp
  | cons c cells ih =>
    cases bits with
    | nil => simp at h
    | cons b bits => simp only [List.length_cons] at h; simp [ih bits (by omega)]

/-- `TxByte` (R90), a stall in the cell after `cells`, in which the BTE lets SDA have the level `v`. -/
theorem txByte_script_stall (lim : Nat) (b : Byte) (cells : List Cell) (v : Bool) (e : Levels) (lows rest : List Levels)
    (s : State) (hs : s.sclDrv = false) (ha : s.att = 0) (hc : ∀ c ∈ cells, c.Good)
    (hv : (bitsOf b ++ [true])[cells.length]? = some v)
    (hlow : ∀ x ∈ lows, x.scl = false) (hne : lows ≠ []) (hk : polls cells + lows.length = lim)
    (h : s.env = .script (answersOf cells ++ e :: (lows ++ rest))) :
    ∃ l bc, txByte lim b s =
        ({ told l rest s with shreg := b, bitcnt := bc, sclDrv := true, sdaDrv := v, att := lim }, .stall) ∧
      l.map sampleOf = frameSamples (bitsOf b ++ [true]) cells ++
        ⟨false, v && e.sda⟩ :: lows.map (fun x => ⟨false, v && x.sda⟩) := by
  have hpos : 0 < lows.length := List.length_pos_iff.2 hne
  have hb : (List.range 8).reverse.map (fun i => b.getLsbD i) = bitsOf b := rfl
  have hlen : cells.length < 9 := by
    obtain ⟨h, -⟩ := List.getElem?_eq_some_iff.1 hv
    simpa [bitsOf] using h
  rcases Nat.lt_or_ge cells.length 8 with h8 | h8
  · have hv' : ((List.range 8).reverse.map (fun i => b.getLsbD i))[cells.length]? = some v := by
      rw [hb]
      rw [List.getElem?_append_left (by simpa [bitsOf] using h8)] at hv
      exact hv
    obtain ⟨l, bc, e1, e2⟩ := txBits_script_stall lim cells v e lows rest { s with shreg := b } 8 h8 hs hc hlow hne
      (by simp only [ha]; omega) hv' h
    refine ⟨l, bc, ?_, ?_⟩
    · rw [txByte, e1]
      rfl
    · rw [e2, frameSamples_take _ _ _ (by simp only [bitsOf, List.length_cons, List.length_nil]; omega)]
      rfl
  · have h8' : cells.length = 8 := by omega
    obtain rfl : v = true := by
      rw [h8'] at hv
      simpa [bitsOf] using hv.symm
    obtain ⟨l, bc, sda, e1, e2⟩ := txBits_script lim cells (e :: (lows ++ rest)) { s with shreg := b } 8 h8' hs hc
      (by simp only [ha]; omega) h
    have key := txBit_script_stall lim .ack true e lows rest
      { told l (e :: (lows ++ rest)) { s with shreg := b } with
        bitcnt := 8#4, sdaDrv := sda, att := s.att + polls cells } hs hlow (by simp only [ha]; omega)
      (by simp only [ha]; omega) rfl
    refine ⟨l ++ stallAsks .ack true (s.att + polls cells) e lows, 8#4, ?_, ?_⟩
    · rw [txByte, e1]
      simp only [rxBit_eq]
      rw [key]
      simp [told]
    · rw [List.map_append, e2, stallAsks_samples _ _ _ _ _ hlow,
        frameSamples_take _ _ _ (by simp only [bitsOf, List.length_cons, List.length_nil]; omega)]
      rfl

/-- `RxByte` (R91), a stall in the cell after `cells`, in which the BTE lets SDA have the level `v`. -/
theorem rxByte_script_stall (lim : Nat) (nak : Bool) (cells : List Cell) (v : Bool) (e : Levels) (lows rest : List Levels)
    (s : State) (hs : s.sclDrv = false) (ha : s.att = 0) (hc : ∀ c ∈ cells, c.Good)
    (hv : (List.replicate 8 true ++ [nak])[cells.length]? = some v)
    (hlow : ∀ x ∈ lows, x.scl = false) (hne : lows ≠ []) (hk : polls cells + lows.length = lim)
    (h : s.env = .script (answersOf cells ++ e :: (lows ++ rest))) :
    ∃ l a bc, rxByte lim nak s =
        ({ told l rest s with shreg := a, bitcnt := bc, sclDrv := true, sdaDrv := v, att := lim }, none) ∧
      l.map sampleOf = frameSamples (List.replicate 8 true ++ [nak]) cells ++
        ⟨false, v && e.sda⟩ :: lows.map (fun x => ⟨false, v && x.sda⟩) := by
  have hpos : 0 < lows.length := List.length_pos_iff.2 hne
  have hlen : cells.length < 9 := by
    obtain ⟨h, -⟩ := List.getElem?_eq_some_iff.1 hv
    simpa using h
  rcases Nat.lt_or_ge cells.length 8 with h8 | h8
  · obtain rfl : v = true := by
      rw [List.getElem?_append_left (by simpa using h8), List.getElem?_replicate, if_pos h8] at hv
      exact (Option.some.inj hv).symm
    obtain ⟨l, a, bc, e1, e2⟩ := rxBits_script_stall lim cells e lows rest { s with shreg := 0#8 } 8 h8 hs hc hlow hne
      (by simp only [ha]; omega) h
    refine ⟨l, a, bc, ?_, ?_⟩
    · rw [rxByte, e1]
      rfl
    · rw [e2, frameSamples_take _ _ _ (by simp only [List.length_replicate]; omega)]
      simp
  · have h8' : cells.length = 8 := by omega
    obtain rfl : v = nak := by
      rw [h8'] at hv
      simpa using hv.symm
    obtain ⟨l, bc, sda, e1, e2⟩ := rxBits_script lim cells (e :: (lows ++ rest)) { s with shreg := 0#8 } 8 h8' hs hc
      (by simp only [ha]; omega) h
    have key := txBit_script_stall lim .tx v e lows rest
      { told l (e :: (lows ++ rest)) { s with shreg := 0#8 } with
        shreg := (cells.map (·.high.sda)).foldl shiftIn 0#8, bitcnt := 8#4, sdaDrv := sda, att := s.att + polls cells }
      hs hlow (by simp only [ha]; omega) (by simp only [ha]; omega) rfl
    refine ⟨l ++ stallAsks .tx v (s.att + polls cells) e lows, (cells.map (·.high.sda)).foldl shiftIn 0#8, 8#4, ?_, ?_⟩
    · rw [rxByte, e1]
      simp only
      rw [key]
      simp [told]
    · rw [List.map_append, e2, stallAsks_samples _ _ _ _ _ hlow,
        frameSamples_take _ _ _ (by simp only [List.length_replicate]; omega)]

/-- `do STOP` (R82), the wait for the clock given up. -/
theorem doStop_script_stall (lim : Nat) (e e' : Levels) (lows rest : List Levels) (s : State) (h : s.st = .data)
    (hs : s.sclDrv = false) (hlow : ∀ x ∈ lows, x.scl = false) (hl : 0 < lim) (hk : lows.length = lim)
    (he : s.env = .script (e :: (lows ++ e' :: rest))) :
    ∃ l, doStop lim s =
        ({ told l rest s with
            err := true, cause := .stall, st := .error, sclDrv := true, sdaDrv := true, att := 0 }, false) ∧
      l.map sampleOf = ⟨false, false⟩ :: (lows.map (fun _ => ⟨false, false⟩) ++ [e']) := by
  have h2 := releaseScl_script_stall lim .framing lows (e' :: rest)
    { told [⟨⟨false, false⟩, e, .framing, false, 0⟩] (lows ++ e' :: rest)
        { s with att := 0, st := .stop } with sdaDrv := false } hlow hl (by simpa [told] using hk) rfl
  refine ⟨stallAsks .framing false 0 e lows ++ [⟨⟨true, true⟩, e', .release lim, false, 0⟩], ?_, ?_⟩
  · unfold doStop
    rw [if_neg (by simp [h]), if_neg (by simp [h])]
    simp only
    rw [driveSda_script .framing false { s with att := 0, st := .stop } e _ he]
    simp only [told, hs] at h2 ⊢
    rw [h2]
    simp only [enterError]
    rw [abortRelease_script_free lim _ e' rest _ rfl (fun _ => rfl)]
    simp [told, stallAsks]
  · rw [List.map_append, stallAsks_samples _ _ _ _ _ hlow]
    simp [sampleOf, wiredAnd]

/-- `do RSTART` (R83). -/
theorem doRstart_script (lim : Nat) (c : Cell) (e : Levels) (rest : List Levels) (s : State) (h : s.st = .data)
    (hs : s.sclDrv = false) (hc : c.Good) (hk : c.lows.length < lim) (he : s.env = .script (c.answers ++ e :: rest)) :
    ∃ l, doRstart lim s =
        ({ told l rest s with st := .rstart, sclDrv := false, sdaDrv := false, att := c.lows.length }, true) ∧
      l.map sampleOf = ⟨false, c.setup.sda⟩ :: (c.lows.map (fun x => ⟨false, x.sda⟩) ++
        [⟨true, c.high.sda⟩, ⟨c.low.scl, false⟩, ⟨false, false⟩]) := by
  have h1 : s.env = .script (c.setup :: (c.lows ++ c.high :: c.low :: e :: rest)) := by rw [he]; simp [Cell.answers]
  have h2 := releaseScl_script lim .framing c.lows c.high (c.low :: e :: rest)
    { told [⟨⟨false, true⟩, c.setup, .framing, false, 0⟩] (c.lows ++ c.high :: c.low :: e :: rest)
        { s with att := 0 } with sdaDrv := true } hc.1 hc.2 (by simpa [told] using hk) rfl
  refine ⟨⟨⟨false, true⟩, c.setup, .framing, false, 0⟩ :: (pollAsks ⟨true, true⟩ .framing 0 (c.lows ++ [c.high]) ++
    [⟨⟨true, false⟩, c.low, .framing, false, c.lows.length⟩, ⟨⟨false, false⟩, e, .framing, false, c.lows.length⟩]), ?_, ?_⟩
  · unfold doRstart
    rw [if_neg (by simp [h]), if_neg (by simp [h])]
    simp only
    rw [driveSda_script .framing true { s with att := 0 } c.setup _ h1]
    simp only [told, hs] at h2 ⊢
    rw [h2]
    simp [driveSda, pullScl, emit, envLevels, drivers, Env.saw, sampleOf, wiredAnd]
  · have := lows_samples true c.lows hc.1
    simp only [Bool.true_and] at this
    simp [sampleOf_pollAsks, this, sampleOf, wiredAnd, hc.2]

/-- `do RSTART` (R83), the wait for the clock given up. -/
theorem doRstart_script_stall (lim : Nat) (e : Levels) (lows rest : List Levels) (s : State) (h : s.st = .data)
    (hs : s.sclDrv = false) (hlow : ∀ x ∈ lows, x.scl = false) (hl : 0 < lim) (hk : lows.length = lim)
    (he : s.env = .script (e :: (lows ++ rest))) :
    ∃ l, doRstart lim s =
        ({ told l rest s with
            err := true, cause := .stall, st := .error, sclDrv := true, sdaDrv := true, att := 0 }, false) ∧
      l.map sampleOf = ⟨false, e.sda⟩ :: lows.map (fun x => ⟨false, x.sda⟩) := by
  have h2 := releaseScl_script_stall lim .framing lows rest
    { told [⟨⟨false, true⟩, e, .framing, false, 0⟩] (lows ++ rest)
        { s with att := 0 } with sdaDrv := true } hlow hl (by simpa [told] using hk) rfl
  refine ⟨stallAsks .framing true 0 e lows, ?_, ?_⟩
  · unfold doRstart
    rw [if_neg (by simp [h]), if_neg (by simp [h])]
    simp only
    rw [driveSda_script .framing true { s with att := 0 } e _ he]
    simp only [told, hs] at h2 ⊢
    rw [h2]
    simp only [enterError]
    rw [abortRelease_script_free lim _ e rest _ rfl (fun h => by cases h)]
    simp [stallAsks]
  · rw [stallAsks_samples _ _ _ _ _ hlow]
    simp

/-- `transfer(b)` (R92), a stall in the cell after `cells`: the fault entry takes a sample where SDA was pulled low. -/
theorem transfer_script_stall (lim : Nat) (b : Byte) (cells : List Cell) (v : Bool) (e e' : Levels)
    (lows rest : List Levels) (s : State) (hs : s.sclDrv = false) (hc : ∀ c ∈ cells, c.Good)
    (hv : (bitsOf b ++ [true])[cells.length]? = some v)
    (hlow : ∀ x ∈ lows, x.scl = false) (hne : lows ≠ []) (hk : polls cells + lows.length = lim)
    (h : s.env = .script (answersOf cells ++ e :: (lows ++ e' :: rest))) :
    ∃ l bc, transfer lim b s =
        ({ told l (if v then e' :: rest else rest) s with
            err := true, cause := .stall, st := .error, shreg := b, bitcnt := bc, sclDrv := true, sdaDrv := true,
            att := 0 }, false) ∧
      l.map sampleOf = frameSamples (bitsOf b ++ [true]) cells ++
        ⟨false, v && e.sda⟩ :: (lows.map (fun x => ⟨false, v && x.sda⟩) ++ (if v then [] else [e'])) := by
  obtain ⟨l, bc, q, e2⟩ := txByte_script_stall lim b cells v e lows (e' :: rest) { s with att := 0 } hs rfl hc hv hlow
    hne hk h
  refine ⟨l ++ (if v then [] else [⟨⟨true, true⟩, e', .release lim, false, 0⟩]), bc, ?_, ?_⟩
  · rw [transfer, q]
    simp only [enterError]
    rw [abortRelease_script_free lim _ e' rest _ rfl (fun _ => rfl)]
    cases v <;> simp [told]
  · rw [List.map_append, e2]
    cases v <;> simp [sampleOf, wiredAnd]

/-- `do GET` (R93), a stall in the cell after `cells`. -/
theorem doGet_script_stall (lim : Nat) (nak : Bool) (cells : List Cell) (v : Bool) (e e' : Levels)
    (lows rest : List Levels) (s : State) (h1 : s.st = .data) (h2 : s.dir = .read) (hs : s.sclDrv = false)
    (hc : ∀ c ∈ cells, c.Good) (hv : (List.replicate 8 true ++ [nak])[cells.length]? = some v)
    (hlow : ∀ x ∈ lows, x.scl = false) (hne : lows ≠ []) (hk : polls cells + lows.length = lim)
    (h : s.env = .script (answersOf cells ++ e :: (lows ++ (if v then rest else e' :: rest)))) :
    ∃ l a bc, doGet lim nak s =
        ({ told l rest s with
            err := true, cause := .stall, st := .error, shreg := a, bitcnt := bc, sclDrv := true, sdaDrv := true,
            att := 0 }, none) ∧
      l.map sampleOf = frameSamples (List.replicate 8 true ++ [nak]) cells ++
        ⟨false, v && e.sda⟩ :: (lows.map (fun x => ⟨false, v && x.sda⟩) ++ (if v then [] else [e'])) := by
  obtain ⟨l, a, bc, q, e2⟩ := rxByte_script_stall lim nak cells v e lows (if v then rest else e' :: rest)
    { s with att := 0 } hs rfl hc hv hlow hne hk h
  refine ⟨l ++ (if v then [] else [⟨⟨true, true⟩, e', .release lim, false, 0⟩]), a, bc, ?_, ?_⟩
  · rw [doGet, if_neg (by simp [h1]), if_pos ⟨h1, h2⟩, q]
    simp only [enterError]
    rw [abortRelease_script_free lim _ e' rest _ rfl (fun hv => by simp only at hv; simp [hv, told])]
    cases v <;> simp [told]
  · rw [List.map_append, e2]
    cases v <;> simp [sampleOf, wiredAnd]

/-! ### Block transfers -/

/-- The state of a block transfer (R110, R111) whose address byte `b` was acknowledged, before its data phase. -/
def opened (b : Byte) (att : Nat) (l : List Ask) (rest : List Levels) (s : State) : State :=
  { told l rest s with
    st := .data, dir := dirOf b, sclDrv := false, sdaDrv := true, shreg := b, bitcnt := 0#4, att := att }

/-- A block transfer (R110, R111) in IDLE whose address byte is acknowledged. -/
theorem blockTransfer_script_ack (lim : Nat) (b : Byte) (loop : State → LoopResult) (e0 e1 e2 : Levels)
    (addr : FrameCells) (rest : List Levels) (s : State) (h : s.st = .idle) (hs : s.sclDrv = true) (hd : s.sdaDrv = true)
    (hf : addr.Good lim) (ha : addr.acked = true) (he : s.env = .script (e0 :: e1 :: e2 :: (addr.answers ++ rest))) :
    ∃ l, blockTransfer lim b loop s = finish lim (loop (opened b (polls addr.cells) l rest s)) ∧
      l.map sampleOf = startSamples e0 e1 ++ addr.sent b := by
  obtain ⟨l1, k1, m1⟩ := doStart_script lim e0 e1 e2 _ s h hs hd he
  obtain ⟨l2, k2, m2⟩ := transfer_script_ack lim b addr rest
    { told l1 (addr.answers ++ rest) s with st := .address, dir := dirOf b, sclDrv := false, sdaDrv := false, att := 0 }
    rfl hf ha rfl
  refine ⟨l1 ++ l2, ?_, by rw [List.map_append, m1, m2]⟩
  unfold blockTransfer
  rw [if_neg (by simp [h]), if_neg (by simp [h]), k1]
  simp only
  rw [doPut_allowed _ _ _ (by simp [allowed]), if_neg (by simp)]
  simp only
  rw [k2]
  simp [opened, told]

/-- A block transfer (R110, R111) in IDLE whose address byte is not acknowledged. -/
theorem blockTransfer_script_nack (lim : Nat) (b : Byte) (loop : State → LoopResult) (e0 e1 e2 : Levels)
    (addr : FrameCells) (c : Cell) (rest : List Levels) (s : State) (h : s.st = .idle) (hs : s.sclDrv = true)
    (hd : s.sdaDrv = true) (hf : addr.Good lim) (ha : addr.acked = false) (hc : c.Good) (hk : c.lows.length < lim)
    (he : s.env = .script (e0 :: e1 :: e2 :: (addr.answers ++ (c.answers ++ rest)))) :
    ∃ l, blockTransfer lim b loop s = respond false 0#8 false Config.errIndicator
        { told l rest s with
          err := true, cause := .nack, st := .error, dir := dirOf b, sclDrv := true, sdaDrv := true, shreg := b,
          bitcnt := 0#4, att := c.lows.length } ∧
      l.map sampleOf = startSamples e0 e1 ++ (addr.sent b ++ stopSamples c) := by
  obtain ⟨l1, k1, m1⟩ := doStart_script lim e0 e1 e2 _ s h hs hd he
  obtain ⟨l2, k2, m2⟩ := transfer_script_nack lim b addr c rest
    { told l1 (addr.answers ++ (c.answers ++ rest)) s with
      st := .address, dir := dirOf b, sclDrv := false, sdaDrv := false, att := 0 } rfl hf ha hc hk rfl
  refine ⟨l1 ++ l2, ?_, by rw [List.map_append, m1, m2]⟩
  unfold blockTransfer
  rw [if_neg (by simp [h]), if_neg (by simp [h]), k1]
  simp only
  rw [doPut_allowed _ _ _ (by simp [allowed]), if_neg (by simp)]
  simp only
  rw [k2]
  simp [told]

/-- The end of a block transfer (R110, R111) that transferred everything. -/
theorem finish_script (lim : Nat) (c : Cell) (rest : List Levels) (r : LoopResult) (hr : r.done = true)
    (h : r.s.st = .data) (hs : r.s.sclDrv = false) (hc : c.Good) (hk : c.lows.length < lim)
    (he : r.s.env = .script (c.answers ++ rest)) :
    finish lim r = respond true r.last false r.n
      { told (stopAsks .framing c) rest r.s with
        st := .idle, dir := .write, sclDrv := true, sdaDrv := true, att := c.lows.length } := by
  rw [finish, if_pos hr, doStop_script lim c rest r.s h hs hc hk he]

end Sys2Proof.Machine
end

