-- ==== Sys2Proof/Laws/Bus.lean ====
section
/-! SUPPORT. What the observer of R51 and R52 makes of the samples of cells, frames and conditions. -/

namespace Sys2Proof.Machine

open Sys2Proof.Safety

/-- While SCL is low nothing is observed. -/
theorem observeFrom_low (prev x : Levels) (rest : List Levels) (h : prev.scl = false) (hx : x.scl = false) :
    observeFrom prev (x :: rest) = observeFrom x rest := by
  simp [observeFrom, symbolOf, h, hx]

theorem observeFrom_lows (prev : Levels) (f : Levels → Bool) (l rest : List Levels) (h : prev.scl = false) :
    ∃ q : Levels, q.scl = false ∧ observeFrom prev (l.map (fun e => ⟨false, f e⟩) ++ rest) = observeFrom q rest := by
  induction l generalizing prev with
  | nil => exact ⟨prev, h, rfl⟩
  | cons e l ih =>
    obtain ⟨q, hq, e'⟩ := ih ⟨false, f e⟩ rfl
    exact ⟨q, hq, by rw [List.map_cons, List.cons_append, observeFrom_low _ _ _ h rfl, e']⟩

/-- A bit cell (R47, R48) is one bit, the level of SDA at the poll that saw SCL high. -/
theorem observeFrom_cell (prev : Levels) (b : Bool) (c : Cell) (rest : List Levels) (h : prev.scl = false) :
    ∃ q : Levels, q.scl = false ∧
      observeFrom prev (cellSamples b c ++ rest) = .bit (b && c.high.sda) :: observeFrom q rest := by
  obtain ⟨q, hq, e⟩ := observeFrom_lows ⟨false, b && c.setup.sda⟩ (fun e => b && e.sda) c.lows
    ([⟨true, b && c.high.sda⟩, ⟨false, b && c.low.sda⟩] ++ rest) rfl
  refine ⟨⟨false, b && c.low.sda⟩, rfl, ?_⟩
  rw [cellSamples, List.cons_append, observeFrom_low _ _ _ h rfl, List.append_assoc, e]
  simp [observeFrom, symbolOf, hq]

/-- The bits of several cells. -/
theorem observeFrom_frame (prev : Levels) (bits : List Bool) (cells : List Cell) (rest : List Levels)
    (h : prev.scl = false) :
    ∃ q : Levels, q.scl = false ∧
      observeFrom prev (frameSamples bits cells ++ rest) =
        (bits.zip cells).map (fun p => Symbol.bit (p.1 && p.2.high.sda)) ++ observeFrom q rest := by
  induction cells generalizing prev bits with
  | nil => exact ⟨prev, h, by simp [frameSamples]⟩
  | cons c cells ih =>
    cases bits with
    | nil => exact ⟨prev, h, by simp [frameSamples]⟩
    | cons b bits =>
      obtain ⟨q, hq, e⟩ := observeFrom_cell prev b c (frameSamples bits cells ++ rest) h
      obtain ⟨r, hr, e'⟩ := ih q bits hq
      refine ⟨r, hr, ?_⟩
      have : frameSamples (b :: bits) (c :: cells) = cellSamples b c ++ frameSamples bits cells := by simp [frameSamples]
      rw [this, List.append_assoc, e, e']
      simp

/-- A stop condition (R82, R49) after SCL was low: the rising edge, seen as a bit, and the stop. -/
theorem observeFrom_stop (prev : Levels) (c : Cell) (rest : List Levels) (h : prev.scl = false)
    (hl : c.low = ⟨true, true⟩) :
    observeFrom prev (stopSamples c ++ rest) = .bit false :: .p :: observeFrom ⟨true, true⟩ rest := by
  obtain ⟨q, hq, e⟩ := observeFrom_lows ⟨false, false⟩ (fun _ => false) c.lows
    ([⟨true, false⟩, ⟨c.low.scl, c.low.sda⟩] ++ rest) rfl
  rw [stopSamples, List.cons_append, observeFrom_low _ _ _ h rfl, List.append_assoc, e]
  simp [observeFrom, symbolOf, hq, hl]

/-- Nine bits from an empty frame are one byte with its acknowledge (R52). -/
theorem frameFrom_nine (b0 b1 b2 b3 b4 b5 b6 b7 a : Bool) (rest : List Symbol) :
    frameFrom [] (.bit b0 :: .bit b1 :: .bit b2 :: .bit b3 :: .bit b4 :: .bit b5 :: .bit b6 :: .bit b7 :: .bit a :: rest) =
      .byte (byteOfBits [b0, b1, b2, b3, b4, b5, b6, b7]) (!a) :: frameFrom [] rest := by
  simp [frameFrom, byteOfBits]

/-- The bits of a byte, most significant first, make the byte again (R39, R52). -/
theorem byteOfBits_bitsOf (b : Byte) : byteOfBits (bitsOf b) = b := by
  revert b; decide +kernel

/-- A frame the BTE sends undisturbed (R90) is its byte and the acknowledge of the ninth cell (R69). -/
theorem observe_sent (lim : Nat) (prev : Levels) (f : FrameCells) (b : Byte) (rest : List Levels) (h : prev.scl = false)
    (hf : f.Good lim) (hu : f.Undisturbed) :
    ∃ q : Levels, q.scl = false ∧
      frameFrom [] (observeFrom prev (f.sent b ++ rest)) = .byte b f.acked :: frameFrom [] (observeFrom q rest) := by
  obtain ⟨q, hq, e⟩ := observeFrom_frame prev (bitsOf b ++ [true]) f.cells rest h
  refine ⟨q, hq, ?_⟩
  obtain ⟨data, ninth⟩ := f
  obtain ⟨h8, -⟩ := hf
  simp only at h8
  match data, h8 with
  | [c0, c1, c2, c3, c4, c5, c6, c7], _ =>
    simp only [FrameCells.Undisturbed, List.mem_cons, List.not_mem_nil, or_false, forall_eq_or_imp, forall_eq] at hu
    obtain ⟨u0, u1, u2, u3, u4, u5, u6, u7⟩ := hu
    rw [FrameCells.sent, e]
    simp only [FrameCells.cells, bitsOf, List.cons_append, List.nil_append, List.zip_cons_cons, List.zip_nil_left,
      List.map_cons, List.map_nil, u0, u1, u2, u3, u4, u5, u6, u7, Bool.and_true, Bool.true_and]
    rw [frameFrom_nine]
    have := byteOfBits_bitsOf b
    simp only [bitsOf] at this
    rw [this]
    rfl

/-- A frame the BTE receives (R91) is the byte shown and its own acknowledge (R69). -/
theorem observe_received (lim : Nat) (prev : Levels) (f : FrameCells) (nak : Bool) (rest : List Levels)
    (h : prev.scl = false) (hf : f.Good lim) (hu : f.ninth.high.sda = true) :
    ∃ q : Levels, q.scl = false ∧
      frameFrom [] (observeFrom prev (f.received nak ++ rest)) =
        .byte (byteShown f.data) (!nak) :: frameFrom [] (observeFrom q rest) := by
  obtain ⟨q, hq, e⟩ := observeFrom_frame prev (List.replicate 8 true ++ [nak]) f.cells rest h
  refine ⟨q, hq, ?_⟩
  obtain ⟨data, ninth⟩ := f
  obtain ⟨h8, -⟩ := hf
  simp only at h8 hu
  match data, h8 with
  | [c0, c1, c2, c3, c4, c5, c6, c7], _ =>
    rw [FrameCells.received, e]
    simp only [FrameCells.cells, List.replicate, List.cons_append, List.nil_append, List.zip_cons_cons,
      List.zip_nil_left, List.map_cons, List.map_nil, Bool.and_true, Bool.true_and, hu]
    rw [frameFrom_nine]
    rfl

/-- A start condition on a free bus (R81, R53 E1). -/
theorem observe_start (e1 : Levels) (rest : List Levels) (h : e1.scl = true) :
    observeFrom ⟨true, true⟩ (startSamples ⟨true, true⟩ e1 ++ rest) = .s :: observeFrom ⟨false, false⟩ rest := by
  simp [startSamples, observeFrom, symbolOf, h]

end Sys2Proof.Machine
end

