-- ==== Sys2Proof/Laws/PerInstr.lean ====
section
/-! SUPPORT. The family `Encoding`: for every command, its word is legal, has zeros where R61 says so, and carries
the operation code of R62 and the operand of R63. -/

namespace Sys2Proof.Laws.Encoding

/-- The word of the command: legal (R65), its fields those of R61 to R63. -/
def Statement (i : Instr) : Prop :=
  legalWord (encode i) = true ∧ RawCmd.ofWord (encode i) = ⟨0#16, opcodeOf i, 0#4, imm8Of i⟩ ∧
    (RawCmd.ofWord (encode i)).wellFormed = true

theorem start : Statement .start := by unfold Statement; decide

theorem stop : Statement .stop := by unfold Statement; decide

theorem rstart : Statement .rstart := by unfold Statement; decide

theorem put (b : Byte) : Statement (.put b) := by
  revert b; unfold Statement; decide +kernel

theorem get (nak : Bool) : Statement (.get nak) := by
  unfold Statement; cases nak <;> decide

theorem chkerr : Statement .chkerr := by unfold Statement; decide

theorem resume : Statement .resume := by unfold Statement; decide

theorem writeb (a : DevAddr) : Statement (.writeb a) := by
  revert a; unfold Statement; decide +kernel

theorem readb (a : DevAddr) : Statement (.readb a) := by
  revert a; unfold Statement; decide +kernel

end Sys2Proof.Laws.Encoding
end

