-- ==== Sys2Proof/Laws/Step.lean ====
section
/-! SUPPORT. Everything one step can do: a command, a change of what belongs to the host and the engine's operand and
result registers, or a reset. -/

namespace Sys2Proof.Machine

/-- What a step that answers a next state did. -/
def After (s t : State) : Prop :=
    (∃ rest i, s.rst = false ∧ s.busy = false ∧ exec i { s with host := rest } = .next t) ∨
    (∃ rest p l w m d r,
      t = { s with host := rest, ptr := p, len := l, rsp := w, mem := m, draws := d, reads := r } ∧
      (Memory.wf s.mem = true → Memory.wf m = true) ∧ (s.rst = true → p = s.ptr ∧ l = s.len ∧ w = s.rsp)) ∨
    (∃ rest b, t = { resetRegs s with host := rest, rst := b })

/-- Everything one step can do (R10, R32 to R37, R65, R66, R77, R140). -/
theorem step_cases {s t : State} (h : step s = .next t) : After s t := by
  unfold step at h
  split at h
  · next hh => cases h; exact .inr (.inl ⟨[], s.ptr, s.len, s.rsp, s.mem, s.draws, s.reads, by rw [← hh], id, fun _ => ⟨rfl, rfl, rfl⟩⟩)
  · next op rest hh =>
    have W : ∀ off v, hostWrite off v { s with host := rest } = .next t → After s t := by
      intro off v h
      unfold hostWrite at h
      split at h
      · cases h; exact .inr (.inl ⟨rest, s.ptr, s.len, s.rsp, s.mem, s.draws, s.reads, rfl, id, fun _ => ⟨rfl, rfl, rfl⟩⟩)
      · next hb =>
        simp at hb
        split at h
        · unfold writeCmd at h
          split at h
          · exact .inl ⟨rest, _, hb.1, hb.2, h⟩
          · cases h; exact .inr (.inl ⟨rest, s.ptr, s.len, _, s.mem, s.draws, s.reads, rfl, id, fun h => by simp [hb.1] at h⟩)
        · split at h
          · cases h; exact .inr (.inl ⟨rest, _, s.len, s.rsp, s.mem, s.draws, s.reads, rfl, id, fun h => by simp [hb.1] at h⟩)
          · split at h
            · cases h; exact .inr (.inl ⟨rest, s.ptr, _, s.rsp, s.mem, s.draws, s.reads, rfl, id, fun h => by simp [hb.1] at h⟩)
            · cases h; exact .inr (.inl ⟨rest, s.ptr, s.len, s.rsp, s.mem, s.draws, s.reads, rfl, id, fun h => by simp [hb.1] at h⟩)
    unfold hostStep at h
    cases op with
    | write off w v => simp only at h; split at h; exact W _ _ h; cases h
    | read off w => simp only at h; split at h; cases h; exact .inr (.inl ⟨rest, s.ptr, s.len, s.rsp, s.mem, s.draws, _, rfl, id, fun h => ⟨rfl, rfl, rfl⟩⟩); cases h
    | memStore a v =>
      simp only [hostStore] at h; split at h
      · next ha => cases h; exact .inr (.inl ⟨rest, s.ptr, s.len, s.rsp, _, s.draws, s.reads, rfl, Memory.wf_write _ _ _ ha, fun h => ⟨rfl, rfl, rfl⟩⟩)
      · cases h
    | memLoad a =>
      simp only [hostLoad] at h; split at h
      · next ha =>
        obtain ⟨d, hd⟩ := loadByte_state a {s with host := rest}
        cases h; exact .inr (.inl ⟨rest, s.ptr, s.len, s.rsp, s.mem, d, _, by rw [hd]; rfl, id, fun h => ⟨rfl, rfl, rfl⟩⟩)
      · cases h
    | setRst b =>
      simp only [setRst] at h; cases h
      by_cases hc : s.rst = true ∨ b = true
      · exact .inr (.inr ⟨rest, b, by simp [hc, resetRegs]⟩)
      · simp at hc
        exact .inr (.inl ⟨rest, s.ptr, s.len, s.rsp, s.mem, s.draws, s.reads, by simp [hc], id, fun h => ⟨rfl, rfl, rfl⟩⟩)
    | resumeIfErr =>
      simp only at h; split at h
      · exact W _ _ h
      · cases h; exact .inr (.inl ⟨rest, s.ptr, s.len, s.rsp, s.mem, s.draws, s.reads, rfl, id, fun h => ⟨rfl, rfl, rfl⟩⟩)

end Sys2Proof.Machine
end

