-- ==== Sys2Proof/Laws/Target.lean ====
section
/-! SUPPORT. What one bit cell does against the ideal target of R54 that neither stretches nor is stuck: the clock rises
at once, and the target sees one rising and one falling edge. -/

namespace Sys2Proof.Machine

open Sys2Proof.Safety

/-- The target does not stretch the clock, and acknowledges every byte. -/
structure Target.Plain (t : Target) : Prop where
  nacks : t.nacks = []
  stretch : t.stretch = []
  stuck : t.stuckFrom = none
  hold : t.hold = 0

/-- A plain target between two bit cells: SCL was low at the last sample, and the BTE held it. -/
structure Target.Calm (t : Target) : Prop extends t.Plain where
  prev : t.prev.scl = false
  prevDrv : t.prevDrv = false

/-- What a target is doing: everything but its counters and what it remembers of the last sample. -/
structure TargetCore where
  addr : DevAddr
  tx : List Byte
  mode : TMode
  bits : Nat
  sh : Byte
  cur : Byte
  acked : Bool
  acks : Bool
  sda : Bool
  deriving DecidableEq, Repr

/-- What the target is doing. -/
def Target.core (t : Target) : TargetCore := ⟨t.addr, t.tx, t.mode, t.bits, t.sh, t.cur, t.acked, t.acks, t.sda⟩

/-- A plain target never holds SCL. -/
theorem Target.Plain.answer {t : Target} (h : t.Plain) (drv : Levels) : t.answer drv = ⟨true, t.sda⟩ := by
  have h0 : t.holdNow drv = 0 := by simp [Target.holdNow, h.stretch, h.hold]
  simp [Target.answer, Target.stuck, h.stuck, h0]

theorem Target.Plain.next {t : Target} (h : t.Plain) (drv smp : Levels) (k : (t.react smp).Plain) :
    (t.next drv smp).Plain := by
  have h0 : t.holdNow drv = 0 := by simp [Target.holdNow, h.stretch, h.hold]
  exact ⟨k.nacks, k.stretch, k.stuck, by simp [Target.next, h0]⟩

theorem Target.Plain.rising {t : Target} (h : t.Plain) (v : Bool) : (t.rising v).Plain := by
  unfold Target.rising
  split <;> exact ⟨h.nacks, h.stretch, h.stuck, h.hold⟩

theorem Target.Plain.loadByte {t : Target} (h : t.Plain) : t.loadByte.Plain := by
  unfold Target.loadByte
  split <;> exact ⟨h.nacks, h.stretch, h.stuck, h.hold⟩

theorem Target.Plain.falling {t : Target} (h : t.Plain) : t.falling.Plain := by
  unfold Target.falling
  have := h.loadByte
  cases t.mode <;> repeat' (first | exact ⟨h.nacks, h.stretch, h.stuck, h.hold⟩ | exact this | split)

/-- What a falling edge does depends on what the target is doing alone, where it acknowledges every byte. -/
theorem Target.falling_core (x y : Target) (hc : x.core = y.core) (hx : x.nacks = []) (hy : y.nacks = []) :
    x.falling.core = y.falling.core := by
  obtain ⟨addr, tx, nacks, stretch, stuckFrom, mode, bits, sh, cur, acked, acks, nbytes, nsamples, nreleases, hold, prev,
    prevDrv, sda⟩ := x
  obtain ⟨addr', tx', nacks', stretch', stuckFrom', mode', bits', sh', cur', acked', acks', nbytes', nsamples',
    nreleases', hold', prev', prevDrv', sda'⟩ := y
  simp only [Target.core, TargetCore.mk.injEq] at hc hx hy
  obtain ⟨rfl, rfl, rfl, rfl, rfl, rfl, rfl, rfl, rfl⟩ := hc
  subst hx hy
  cases mode
  · rfl
  · simp only [Target.falling, Target.loadByte, List.contains_nil, Bool.not_false, Bool.and_true]
    cases dirOf sh <;> cases tx <;> cases acks <;> repeat' (first | rfl | split)
  · simp only [Target.falling, List.contains_nil, Bool.not_false]
    repeat' (first | rfl | split)
  · simp only [Target.falling, Target.loadByte]
    cases tx <;> cases acked <;> repeat' (first | rfl | split)

/-- `Emit` (R43) against a plain target. -/
theorem emit_plain (slot : Slot) (poll : Bool) (s : State) (t : Target) (h : s.env = .ideal t) (p : t.Plain) :
    ∃ w a, emit slot poll s =
      ({ s with wire := w, asked := a, env := .ideal (t.next (drivers s) (wiredAnd (drivers s) ⟨true, t.sda⟩)) },
        wiredAnd (drivers s) ⟨true, t.sda⟩) := by
  refine ⟨s.wire ++ [wiredAnd (drivers s) ⟨true, t.sda⟩], s.asked ++ [⟨drivers s, ⟨true, t.sda⟩, slot, poll, s.att⟩], ?_⟩
  simp only [emit, envLevels, h, Env.saw, p.answer, drivers]

/-- A bit cell (R47, R48) against a calm target: one rising and one falling edge, the level of SDA seen by both. -/
theorem txBit_calm (lim : Nat) (slot : Slot) (b : Bool) (s : State) (t : Target) (h : s.env = .ideal t) (c : t.Calm)
    (hs : s.sclDrv = false) (ha : s.att < lim) :
    ∃ w a t', txBit lim slot b s =
        ({ s with sdaDrv := b, sclDrv := false, wire := w, asked := a, env := .ideal t' }, .ok (b && t.sda)) ∧
      t'.Calm ∧ t'.core = (t.rising (b && t.sda)).falling.core := by
  obtain ⟨f, hf⟩ : ∃ f, lim - s.att = f + 1 := ⟨lim - s.att - 1, by omega⟩
  obtain ⟨w1, a1, e1⟩ := emit_plain slot false { s with sdaDrv := b } t h c.toPlain
  simp only [drivers, hs, wiredAnd, Bool.false_and] at e1
  have hsda : (t.rising (b && t.sda)).sda = t.sda := by unfold Target.rising; split <;> rfl
  -- the set-up sample: SCL stays low
  have r1 : t.react ⟨false, b && t.sda⟩ = t := by simp [Target.react, c.prev]
  have q1 : (t.next ⟨false, b⟩ ⟨false, b && t.sda⟩).Plain := c.toPlain.next _ _ (by rw [r1]; exact c.toPlain)
  have g1 : (t.next ⟨false, b⟩ ⟨false, b && t.sda⟩).core = t.core ∧
      (t.next ⟨false, b⟩ ⟨false, b && t.sda⟩).prev = ⟨false, b && t.sda⟩ ∧
      (t.next ⟨false, b⟩ ⟨false, b && t.sda⟩).sda = t.sda := by simp [Target.next, r1, Target.core]
  generalize t.next ⟨false, b⟩ ⟨false, b && t.sda⟩ = t1 at e1 q1 g1
  obtain ⟨k1, p1, s1⟩ := g1
  -- the poll: SCL is seen high at once
  obtain ⟨w2, a2, e2⟩ := emit_plain slot true
    { s with sdaDrv := b, wire := w1, asked := a1, env := .ideal t1, sclDrv := true } t1 rfl q1
  simp only [drivers, wiredAnd, Bool.true_and, s1] at e2
  have r2 : t1.react ⟨true, b && t.sda⟩ = t1.rising (b && t.sda) := by simp [Target.react, p1]
  have q2 : (t1.next ⟨true, b⟩ ⟨true, b && t.sda⟩).Plain := q1.next _ _ (by rw [r2]; exact q1.rising _)
  have g2 : (t1.next ⟨true, b⟩ ⟨true, b && t.sda⟩).core = (t.rising (b && t.sda)).core ∧
      (t1.next ⟨true, b⟩ ⟨true, b && t.sda⟩).prev = ⟨true, b && t.sda⟩ := by
    simp only [Target.core, TargetCore.mk.injEq] at k1
    obtain ⟨c1, c2, c3, c4, c5, c6, c7, c8, c9⟩ := k1
    refine ⟨?_, rfl⟩
    simp only [Target.next, r2, Target.core, Target.rising, c4]
    split <;> simp [c1, c2, c3, c5, c6, c7, c8, c9]
  generalize t1.next ⟨true, b⟩ ⟨true, b && t.sda⟩ = t2 at e2 q2 g2
  obtain ⟨k2, p2⟩ := g2
  have s2 : t2.sda = t.sda := (congrArg TargetCore.sda k2).trans hsda
  -- the sample after it: SCL is pulled low
  obtain ⟨w3, a3, e3⟩ := emit_plain slot false
    { s with sdaDrv := b, wire := w2, asked := a2, env := .ideal t2, sclDrv := false } t2 rfl q2
  simp only [drivers, wiredAnd, Bool.false_and, s2] at e3
  have r3 : t2.react ⟨false, b && t.sda⟩ = t2.falling := by simp [Target.react, p2]
  have q3 : (t2.next ⟨false, b⟩ ⟨false, b && t.sda⟩).Plain := q2.next _ _ (by rw [r3]; exact q2.falling)
  refine ⟨w3, a3, t2.next ⟨false, b⟩ ⟨false, b && t.sda⟩, ?_, ⟨q3, rfl, rfl⟩, ?_⟩
  · simp only [txBit, driveSda, releaseScl, pullScl, hs]
    rw [e1]
    simp only [hf, pollScl]
    rw [e2]
    simp only [if_true]
    rw [e3]
  · rw [show (t2.next ⟨false, b⟩ ⟨false, b && t.sda⟩).core = t2.falling.core by simp [Target.next, r3, Target.core]]
    exact Target.falling_core _ _ k2 q2.nacks (c.toPlain.rising _).nacks

/-! ### Frames -/

/-- The target after a bit cell in which the BTE lets SDA have the level `b`. -/
def Target.cell (t : Target) (b : Bool) : Target := (t.rising (b && t.sda)).falling

theorem Target.cell_core (x y : Target) (b : Bool) (hc : x.core = y.core) (hx : x.nacks = []) (hy : y.nacks = []) :
    (x.cell b).core = (y.cell b).core := by
  have hr : (x.rising (b && x.sda)).core = (y.rising (b && y.sda)).core := by
    simp only [Target.core, TargetCore.mk.injEq] at hc
    obtain ⟨c1, c2, c3, c4, c5, c6, c7, c8, c9⟩ := hc
    simp only [Target.core, Target.rising, c4, c9]
    split <;> simp [c1, c2, c3, c5, c6, c7, c8]
  have hn : ∀ z : Target, ∀ v, z.nacks = [] → (z.rising v).nacks = [] := fun z v h => by
    unfold Target.rising
    split <;> exact h
  exact Target.falling_core _ _ hr (hn x _ hx) (hn y _ hy)

theorem Target.Plain.cell {t : Target} (h : t.Plain) (b : Bool) : (t.cell b).Plain := (h.rising _).falling

/-- The data cells of a sent byte (R90) against a calm target. -/
theorem txBits_calm (lim k : Nat) (s : State) (t : Target) (h : s.env = .ideal t) (c : t.Calm) (hs : s.sclDrv = false)
    (ha : s.att < lim) :
    ∃ w a t' d bc, txBits lim k s =
        ({ s with bitcnt := bc, sdaDrv := d, wire := w, asked := a, env := .ideal t' }, true) ∧
      t'.Calm ∧ t'.core = ((List.range k).reverse.foldl (fun t i => t.cell (s.shreg.getLsbD i)) t).core := by
  have gen : ∀ (l : List Nat) (x y : Target), x.core = y.core → x.Plain → y.Plain →
      (l.foldl (fun t i => t.cell (s.shreg.getLsbD i)) x).core = (l.foldl (fun t i => t.cell (s.shreg.getLsbD i)) y).core := by
    intro l
    induction l with
    | nil => intro x y e _ _; exact e
    | cons i l ih => intro x y e px py; exact ih _ _ (Target.cell_core x y _ e px.nacks py.nacks) (px.cell _) (py.cell _)
  induction k generalizing s t with
  | zero => exact ⟨s.wire, s.asked, t, s.sdaDrv, s.bitcnt, by rw [txBits, ← h], c, rfl⟩
  | succ k ih =>
    obtain ⟨w, a, t1, e1, c1, k1⟩ := txBit_calm lim .tx (s.shreg.getLsbD k) { s with bitcnt := BitVec.ofNat 4 (7 - k) } t h c
      hs ha
    obtain ⟨w', a', t2, d, bc, e2, c2, k2⟩ := ih
      { s with bitcnt := BitVec.ofNat 4 (7 - k), sdaDrv := s.shreg.getLsbD k, sclDrv := false, wire := w, asked := a, env := .ideal t1 } t1 rfl c1
      rfl ha gen
    refine ⟨w', a', t2, d, bc, ?_, c2, ?_⟩
    · rw [txBits, e1]
      simp only
      rw [e2, hs]
    · rw [k2, List.range_succ, List.reverse_append, List.reverse_singleton, List.singleton_append, List.foldl_cons]
      exact gen _ _ _ k1 c1.toPlain (c.toPlain.cell _)

/-- A bit shifted in eight times over is the byte (R39, R91). -/
theorem shiftIn_bits (x b : Byte) :
    shiftIn (shiftIn (shiftIn (shiftIn (shiftIn (shiftIn (shiftIn (shiftIn x (b.getLsbD 7)) (b.getLsbD 6)) (b.getLsbD 5))
      (b.getLsbD 4)) (b.getLsbD 3)) (b.getLsbD 2)) (b.getLsbD 1)) (b.getLsbD 0) = b := by
  have h : ∀ b : Byte, ∀ x : Byte, x = 0#8 → shiftIn (shiftIn (shiftIn (shiftIn (shiftIn (shiftIn (shiftIn (shiftIn x (b.getLsbD 7)) (b.getLsbD 6)) (b.getLsbD 5))
      (b.getLsbD 4)) (b.getLsbD 3)) (b.getLsbD 2)) (b.getLsbD 1)) (b.getLsbD 0) = b := by
    intro b x hx
    subst hx
    revert b
    decide +kernel
  refine Eq.trans ?_ (h b 0#8 rfl)
  apply BitVec.eq_of_getElem_eq
  intro i hi
  have : i = 0 ∨ i = 1 ∨ i = 2 ∨ i = 3 ∨ i = 4 ∨ i = 5 ∨ i = 6 ∨ i = 7 := by omega
  rcases this with rfl | rfl | rfl | rfl | rfl | rfl | rfl | rfl <;>
    simp [shiftIn, BitVec.getElem_or, BitVec.getElem_shiftLeft]

/-- A cell in which a receiving target takes a bit that is not the last. -/
theorem Target.cell_receive (t : Target) (b : Bool) (h : t.bits < 7) (hs : t.sda = true)
    (hm : t.mode = .addressed ∨ t.mode = .receiving) :
    t.cell b = { t with bits := t.bits + 1, sh := shiftIn t.sh b } := by
  have h8 : t.bits < 8 := by omega
  have n8 : ¬ t.bits + 1 = 8 := by omega
  have n9 : ¬ t.bits + 1 = 9 := by omega
  rcases hm with hm | hm <;> simp [Target.cell, Target.rising, Target.falling, h8, hs, hm, n8, n9, shiftIn]

/-- The cell in which a receiving target takes the last bit, after which it answers. -/
theorem Target.cell_eighth (t : Target) (b : Bool) (h : t.bits = 7) (hs : t.sda = true) (hn : t.nacks = [])
    (hm : t.mode = .addressed ∨ t.mode = .receiving) :
    ∃ ok n, t.cell b = { t with bits := 8, sh := shiftIn t.sh b, nbytes := n, acks := ok, sda := !ok } ∧
      ok = (t.mode == .receiving || addrOf (shiftIn t.sh b) == t.addr) := by
  rcases hm with hm | hm
  · exact ⟨addrOf (shiftIn t.sh b) == t.addr, t.nbytes + 1, by
      simp [Target.cell, Target.rising, Target.falling, h, hs, hm, hn, shiftIn], by simp [hm]⟩
  · exact ⟨true, t.nbytes + 1, by
      simp [Target.cell, Target.rising, Target.falling, h, hs, hm, hn, shiftIn], by simp [hm]⟩

/-- Several such cells, sending the bits of `b` at the places `l`. -/
theorem Target.cells_receive (t : Target) (b : Byte) (l : List Nat) (h : t.bits + l.length ≤ 7) (hs : t.sda = true)
    (hm : t.mode = .addressed ∨ t.mode = .receiving) :
    l.foldl (fun t i => t.cell (b.getLsbD i)) t =
      { t with bits := t.bits + l.length, sh := l.foldl (fun x i => shiftIn x (b.getLsbD i)) t.sh } := by
  induction l generalizing t with
  | nil => rfl
  | cons i l ih =>
    simp only [List.length_cons] at h
    rw [List.foldl_cons, Target.cell_receive t _ (by omega) hs hm,
      ih { t with bits := t.bits + 1, sh := shiftIn t.sh (b.getLsbD i) } (by simp only; omega) hs hm]
    simp only [List.length_cons, List.foldl_cons, Target.mk.injEq, and_true, true_and]
    omega

/-- A receiving target after the eight data cells of a sent byte (R90). -/
theorem Target.receives (t : Target) (b : Byte) (h : t.bits = 0) (hs : t.sda = true) (hn : t.nacks = [])
    (hm : t.mode = .addressed ∨ t.mode = .receiving) :
    ∃ ok n, (List.range 8).reverse.foldl (fun t i => t.cell (b.getLsbD i)) t =
        { t with bits := 8, sh := b, nbytes := n, acks := ok, sda := !ok } ∧
      ok = (t.mode == .receiving || addrOf b == t.addr) := by
  have e : (List.range 8).reverse = [7, 6, 5, 4, 3, 2, 1] ++ [0] := by decide
  rw [e, List.foldl_append, Target.cells_receive t b _ (by simp [h]) hs hm]
  obtain ⟨ok, n, e1, e2⟩ := Target.cell_eighth
    { t with
      bits := t.bits + [7, 6, 5, 4, 3, 2, 1].length
      sh := [7, 6, 5, 4, 3, 2, 1].foldl (fun x i => shiftIn x (b.getLsbD i)) t.sh } (b.getLsbD 0) (by simp [h]) hs hn hm
  simp only [List.foldl_cons, List.foldl_nil, shiftIn_bits] at e1 e2 ⊢
  exact ⟨ok, n, e1, e2⟩

/-- The acknowledge cell of a byte the target took (R90). -/
theorem Target.acknowledges (t : Target) (h : t.bits = 8) (ha : t.acks = true) (hs : t.sda = false)
    (hm : t.mode = .addressed ∨ t.mode = .receiving) :
    t.cell true =
      if t.mode = .addressed ∧ dirOf t.sh = .read then { t with bits := 9, acked := true }.loadByte
      else { t with bits := 0, acked := true, mode := .receiving, sda := true } := by
  rcases hm with hm | hm
  · cases hd : dirOf t.sh <;> simp [Target.cell, Target.rising, Target.falling, h, hs, hm, ha, hd]
  · simp [Target.cell, Target.rising, Target.falling, h, hs, hm]

/-- `TxByte` (R90) against a calm target that receives and acknowledges. -/
theorem txByte_calm (lim : Nat) (b : Byte) (s : State) (t : Target) (h : s.env = .ideal t) (c : t.Calm)
    (hs : s.sclDrv = false) (ha : s.att < lim) (hb : t.bits = 0) (hd : t.sda = true)
    (hm : t.mode = .receiving ∨ (t.mode = .addressed ∧ addrOf b = t.addr)) :
    ∃ w a t', txByte lim b s =
        ({ s with shreg := b, bitcnt := 0#4, sdaDrv := true, wire := w, asked := a, env := .ideal t' }, .ack) ∧
      t'.Calm ∧ t'.bits = 0 ∧ t'.addr = t.addr ∧
      if t.mode = .addressed ∧ dirOf b = .read then
        t'.mode = .sending ∧ t'.cur = t.tx.headD 0xFF#8 ∧ t'.tx = t.tx.tail ∧ t'.sda = t'.cur.getLsbD 7
      else t'.mode = .receiving ∧ t'.sda = true := by
  have hm' : t.mode = .addressed ∨ t.mode = .receiving := hm.elim .inr (fun h => .inl h.1)
  obtain ⟨w1, a1, t1, d, bc, e1, c1, k1⟩ := txBits_calm lim 8 { s with shreg := b } t h c hs ha
  obtain ⟨ok, n, r1, r2⟩ := Target.receives t b hb hd c.nacks hm'
  obtain rfl : ok = true := by
    rw [r2]
    rcases hm with hm | ⟨hm, hm2⟩ <;> simp_all
  rw [r1, Bool.not_true] at k1
  obtain ⟨w2, a2, t2, e2, c2, k2⟩ := txBit_calm lim .ack true
    { s with shreg := b, bitcnt := 8#4, sdaDrv := d, wire := w1, asked := a1, env := .ideal t1 } t1 rfl c1 hs ha
  have s1 : t1.sda = false := by simpa [Target.core] using congrArg TargetCore.sda k1
  have g := Target.cell_core t1 _ true k1 c1.nacks c.nacks
  rw [Target.acknowledges { t with bits := 8, sh := b, nbytes := n, acks := true, sda := false } rfl rfl rfl hm'] at g
  have k3 := k2.trans g
  refine ⟨w2, a2, t2, ?_, c2, ?_⟩
  · rw [txByte, e1]
    simp only [rxBit_eq]
    rw [e2]
    simp [s1, hs]
  · by_cases hc : t.mode = .addressed ∧ dirOf b = .read
    · rw [if_pos hc]
      rw [if_pos hc] at k3
      simp only [Target.core, TargetCore.mk.injEq, Target.loadByte] at k3
      cases htx : t.tx <;> simp only [htx] at k3 <;> obtain ⟨q1, q2, q3, q4, q5, q6, q7, q8, q9⟩ := k3 <;>
        simp [q1, q2, q3, q4, q6, q9]
    · rw [if_neg hc]
      rw [if_neg hc] at k3
      simp only [Target.core, TargetCore.mk.injEq] at k3
      obtain ⟨q1, q2, q3, q4, q5, q6, q7, q8, q9⟩ := k3
      exact ⟨q4, q1, q3, q9⟩

/-- The data cells of a received byte (R91) against a calm target that sends: its bits, most significant first. -/
theorem rxBits_calm (lim k : Nat) (s : State) (t : Target) (h : s.env = .ideal t) (c : t.Calm) (hs : s.sclDrv = false)
    (ha : s.att < lim) (hk : t.bits + k = 8) (hm : t.mode = .sending) (hd : 0 < k → t.sda = t.cur.getLsbD (k - 1))
    (h0 : k = 0 → t.sda = true) :
    ∃ w a t' d bc, rxBits lim k s =
        ({ s with
            shreg := (List.range k).reverse.foldl (fun x i => shiftIn x (t.cur.getLsbD i)) s.shreg,
            bitcnt := bc, sdaDrv := d, wire := w, asked := a, env := .ideal t' }, true) ∧
      t'.Calm ∧ t'.bits = 8 ∧ t'.mode = .sending ∧ t'.cur = t.cur ∧ t'.tx = t.tx ∧ t'.addr = t.addr ∧ t'.sda = true := by
  induction k generalizing s t with
  | zero => exact ⟨s.wire, s.asked, t, s.sdaDrv, s.bitcnt, by rw [rxBits, ← h]; rfl, c, hk, hm, rfl, rfl, rfl, h0 rfl⟩
  | succ k ih =>
    obtain ⟨w, a, t1, e1, c1, k1⟩ := txBit_calm lim .rx true { s with bitcnt := BitVec.ofNat 4 (7 - k) } t h c hs ha
    have hd' : t.sda = t.cur.getLsbD k := hd (Nat.succ_pos k)
    have hb : t.bits < 8 := by omega
    have hc : (t.rising (true && t.sda)).falling.core =
        { t with
          bits := t.bits + 1
          sh := shiftIn t.sh t.sda
          sda := if k = 0 then true else t.cur.getLsbD (k - 1) }.core := by
      by_cases hk0 : k = 0
      · have : t.bits = 7 := by omega
        simp [Target.rising, Target.falling, hm, hk0, this, Target.core, shiftIn]
      · have hb' : t.bits + 1 < 8 := by omega
        have : 7 - (t.bits + 1) = k - 1 := by omega
        simp [Target.rising, Target.falling, hm, hk0, hb, hb', this, Target.core, shiftIn]
    have g := k1.trans hc
    simp only [Target.core, TargetCore.mk.injEq] at g
    obtain ⟨q1, q2, q3, q4, q5, q6, q7, q8, q9⟩ := g
    obtain ⟨w', a', t2, d, bc, e2, c2, r1, r2, r3, r4, r5, r6⟩ := ih
      { s with
        bitcnt := BitVec.ofNat 4 (7 - k)
        sdaDrv := true
        sclDrv := false
        wire := w
        asked := a
        env := .ideal t1
        shreg := shiftIn s.shreg t.sda } t1 rfl c1 rfl ha (by omega) (q3.trans hm)
      (fun hp => by rw [q9, if_neg (by omega), q6]) (fun hz => by rw [q9, if_pos hz])
    refine ⟨w', a', t2, d, bc, ?_, c2, r1, r2, r3.trans q6, r4.trans q2, r5.trans q1, r6⟩
    rw [rxBits, rxBit_eq, e1]
    simp only [Bool.true_and]
    rw [e2, List.range_succ, List.reverse_append, List.reverse_singleton, List.singleton_append, List.foldl_cons, q6, ← hd', hs]

/-- `RxByte` (R91) against a calm target that sends: its byte, and after an acknowledge it sends the next one. -/
theorem rxByte_calm (lim : Nat) (nak : Bool) (s : State) (t : Target) (h : s.env = .ideal t) (c : t.Calm)
    (hs : s.sclDrv = false) (ha : s.att < lim) (hb : t.bits = 0) (hm : t.mode = .sending) (hd : t.sda = t.cur.getLsbD 7) :
    ∃ w a t', rxByte lim nak s =
        ({ s with shreg := t.cur, bitcnt := 0#4, sdaDrv := nak, wire := w, asked := a, env := .ideal t' }, some t.cur) ∧
      t'.Calm ∧ t'.bits = 0 ∧
      (nak = false → t'.mode = .sending ∧ t'.cur = t.tx.headD 0xFF#8 ∧ t'.tx = t.tx.tail ∧ t'.sda = t'.cur.getLsbD 7) := by
  obtain ⟨w1, a1, t1, d, bc, e1, c1, r1, r2, r3, r4, r5, r6⟩ := rxBits_calm lim 8 { s with shreg := 0#8 } t h c hs ha
    (by omega) hm (fun _ => hd) (fun h => by cases h)
  have hsh : (List.range 8).reverse.foldl (fun x i => shiftIn x (t.cur.getLsbD i)) 0#8 = t.cur := shiftIn_bits 0#8 t.cur
  rw [hsh] at e1
  obtain ⟨w2, a2, t2, e2, c2, k2⟩ := txBit_calm lim .tx nak
    { s with shreg := t.cur, bitcnt := 8#4, sdaDrv := d, wire := w1, asked := a1, env := .ideal t1 } t1 rfl c1 hs ha
  have hc : (t1.rising (nak && t1.sda)).falling.core =
      (if nak then { t1 with bits := 0, acked := false, mode := .off, sda := true }
        else { t1 with bits := 9, acked := true }.loadByte).core := by
    cases nak <;> simp [Target.rising, Target.falling, r1, r2, r6]
  have g := k2.trans hc
  refine ⟨w2, a2, t2, ?_, c2, ?_, ?_⟩
  · rw [rxByte, e1]
    simp only
    rw [e2]
    simp [hs]
  · cases nak
    · simp only [Target.core, Target.loadByte, TargetCore.mk.injEq] at g
      cases ht : t1.tx <;> simp only [ht, Bool.false_eq_true, if_false] at g <;> exact g.2.2.2.1
    · exact congrArg TargetCore.bits g
  · rintro rfl
    simp only [Target.core, Target.loadByte, TargetCore.mk.injEq, Bool.false_eq_true, if_false] at g
    rw [← r4]
    cases ht : t1.tx <;> simp only [ht] at g <;> obtain ⟨q1, q2, q3, q4, q5, q6, q7, q8, q9⟩ := g <;>
      simp [q2, q3, q6, q9]

/-! ### Commands -/

/-- `do START` (R81) against a plain target at rest: it is addressed next. -/
theorem doStart_plain (lim : Nat) (s : State) (t : Target) (h : s.st = .idle) (hs : s.sclDrv = true)
    (hd : s.sdaDrv = true) (he : s.env = .ideal t) (r : TargetAtRest t) :
    ∃ w a t', doStart lim s =
        ({ s with st := .start, sclDrv := false, sdaDrv := false, att := 0, wire := w, asked := a, env := .ideal t' }, true) ∧
      t'.Calm ∧ t'.mode = .addressed ∧ t'.bits = 0 ∧ t'.sda = true ∧ t'.addr = t.addr ∧ t'.tx = t.tx := by
  have p : t.Plain := ⟨r.nacks, r.stretch, r.stuck, r.hold⟩
  obtain ⟨w1, a1, e1⟩ := emit_plain .idleBus false {s with att := 0} t he p
  simp only [drivers, hs, hd, wiredAnd, r.sda, Bool.true_and] at e1
  have r1 : t.react ⟨true, true⟩ = t := by simp [Target.react, r.prev]
  have g1 : (t.next ⟨true, true⟩ ⟨true, true⟩).Plain ∧ (t.next ⟨true, true⟩ ⟨true, true⟩).prev = ⟨true, true⟩ ∧ (t.next ⟨true, true⟩ ⟨true, true⟩).core = t.core := by
    refine ⟨p.next _ _ (by rw [r1]; exact p), rfl, by simp [Target.next, r1, Target.core]⟩
  generalize t.next ⟨true, true⟩ ⟨true, true⟩ = t1 at e1 g1
  obtain ⟨p1, q1, k1⟩ := g1
  obtain ⟨w2, a2, e2⟩ := emit_plain .framing false {s with att := 0, sdaDrv := false, wire := w1, asked := a1, env := .ideal t1} t1 rfl p1
  simp only [drivers, hs, wiredAnd, Bool.true_and, Bool.false_and] at e2
  have r2 : t1.react ⟨true, false⟩ = { t1 with mode := .addressed, bits := 0, sda := true } := by simp [Target.react, q1]
  have g2 : (t1.next ⟨true, false⟩ ⟨true, false⟩).Plain ∧ (t1.next ⟨true, false⟩ ⟨true, false⟩).prev = ⟨true, false⟩ ∧ (t1.next ⟨true, false⟩ ⟨true, false⟩).core = { t1.core with mode := .addressed, bits := 0, sda := true } := by
    refine ⟨p1.next _ _ (by rw [r2]; exact ⟨p1.nacks, p1.stretch, p1.stuck, p1.hold⟩), rfl, by simp [Target.next, r2, Target.core]⟩
  generalize t1.next ⟨true, false⟩ ⟨true, false⟩ = t2 at e2 g2
  obtain ⟨p2, q2, k2⟩ := g2
  obtain ⟨w3, a3, e3⟩ := emit_plain .framing false {s with att := 0, sclDrv := false, sdaDrv := false, wire := w2, asked := a2, env := .ideal t2} t2 rfl p2
  simp only [drivers, wiredAnd, Bool.false_and] at e3
  rw [k1] at k2
  simp only [Target.core, TargetCore.mk.injEq] at k2
  obtain ⟨c1, c2, c3, c4, c5, c6, c7, c8, c9⟩ := k2
  have r3 : t2.react ⟨false, false⟩ = t2 := by simp [Target.react, q2, Target.falling, c3, c4]
  refine ⟨w3, a3, t2.next ⟨false, false⟩ ⟨false, false⟩, ?_, ⟨p2.next _ _ (by rw [r3]; exact p2), rfl, rfl⟩, ?_⟩
  · simp only [doStart, h, driveSda, pullScl, hs]
    rw [if_neg (by simp), if_neg (by simp)]
    simp only [hd, h] at e1 e2 e3 ⊢
    rw [e1]; simp only; rw [e2]; simp only; rw [e3]
  · simp [Target.next, r3, c1, c2, c3, c4, c9]

/-- `do STOP` (R82) against a plain target: the clock rises at once. -/
theorem doStop_plain (lim : Nat) (s : State) (t : Target) (h : s.st = .data) (he : s.env = .ideal t) (p : t.Plain) (hl : 0 < lim) :
   ∃ u, doStop lim s = (u, true) ∧ u.st = .idle ∧ u.err = s.err ∧ u.mem = s.mem := by
  obtain ⟨f, hf⟩ : ∃ f, lim = f + 1 := ⟨lim - 1, by omega⟩
  have key : ∀ (sl : Slot) (po : Bool) (s : State) (t : Target), s.env = .ideal t → t.Plain → ∃ u t', emit sl po s = (u, wiredAnd (drivers s) ⟨true, t.sda⟩) ∧ u.env = .ideal t' ∧ t'.Plain ∧ u.st = s.st ∧ u.err = s.err ∧ u.mem = s.mem ∧ u.att = s.att := by
    intro sl po s t he p
    obtain ⟨w, a, e⟩ := emit_plain sl po s t he p
    refine ⟨_, _, e, rfl, p.next _ _ ?_, rfl, rfl, rfl, rfl⟩
    generalize wiredAnd (drivers s) ⟨true, t.sda⟩ = smp
    unfold Target.react
    split
    · exact ⟨p.nacks, p.stretch, p.stuck, p.hold⟩
    · split
      · exact ⟨p.nacks, p.stretch, p.stuck, p.hold⟩
      · split
        · exact p.rising _
        · split
          · exact p.falling
          · exact p
  obtain ⟨u1, t1, e1, f1, p1, x1, y1, z1, a1⟩ := key .framing false {s with att := 0, st := .stop, sdaDrv := false} t he p
  obtain ⟨u2, t2, e2, f2, p2, x2, y2, z2, a2⟩ := key .framing true {u1 with sclDrv := true} t1 f1 p1
  obtain ⟨u3, t3, e3, f3, p3, x3, y3, z3, a3⟩ := key .framing false {u2 with sdaDrv := true} t2 f2 p2
  refine ⟨{u3 with st := .idle, dir := .write}, ?_, rfl, y3.trans (y2.trans y1), z3.trans (z2.trans z1)⟩
  unfold doStop
  rw [if_neg (by simp [h]), if_neg (by simp [h])]
  have ha : u1.att = 0 := a1
  simp only [driveSda, releaseScl]
  rw [e1]
  simp only [ha, Nat.sub_zero, hf, pollScl]
  rw [ha] at e2
  rw [e2]
  simp only [wiredAnd, drivers, Bool.and_self, if_true]
  rw [e3]

/-- The loop of WRITEB (R110) against a calm target that receives: every byte is acknowledged. -/
theorem writeLoop_calm (lim k n : Nat) (s : State) (t : Target) (hst : s.st = .data) (hd : s.dir = .write) (hs : s.sclDrv = false) (he : s.env = .ideal t) (c : t.Calm) (hl : 0 < lim) (hb : t.bits = 0) (hm : t.mode = .receiving) (hsd : t.sda = true) :
   ∃ u t', writeLoop lim k n s = ⟨u, n + k, 0#8, true⟩ ∧ u.st = .data ∧ u.err = s.err ∧ u.env = .ideal t' ∧ t'.Plain := by
  induction k generalizing n s t with
  | zero => exact ⟨s, t, rfl, hst, rfl, he, c.toPlain⟩
  | succ k ih =>
    rw [writeLoop]
    obtain ⟨d, hu⟩ := loadByte_state (bufAddr s n).toNat s
    have hu : (memRead (bufAddr s n) s).1 = {s with draws := d} := hu
    generalize memRead (bufAddr s n) s = p at hu
    obtain ⟨v, b⟩ := p
    simp only at hu ⊢
    subst hu
    rw [doPut_allowed _ _ _ (by simp [allowed, hst, hd])]
    rw [if_pos hst]
    obtain ⟨w, a, t', e, c', b', ad, m⟩ := txByte_calm lim b {s with draws := d, att := 0} t he c hs hl hb hsd (.inl hm)
    rw [if_neg (by simp [hm])] at m
    rw [transfer, e]
    simp only
    obtain ⟨u, t2, e2, q1, q2, q3, q4⟩ := ih (n + 1) { s with draws := d, att := 0, shreg := b, bitcnt := 0#4, sdaDrv := true, wire := w, asked := a, env := .ideal t', st := .data } t' rfl hd hs rfl c' b' m.1 m.2
    refine ⟨u, t2, ?_, q1, q2, q3, q4⟩
    rw [e2]; congr 1; omega

/-- The loop of READB (R111) against a calm target that sends: its bytes are stored in order. -/
theorem readLoop_calm (lim k n : Nat) (last : Byte) (s : State) (t : Target) (hst : s.st = .data) (hd : s.dir = .read) (hs : s.sclDrv = false) (he : s.env = .ideal t) (c : t.Calm) (hl : 0 < lim) (hb : t.bits = 0) (hm : t.mode = .sending) (hsd : t.sda = t.cur.getLsbD 7) (hk : n + k < 65536) :
   ∃ u t' l, readLoop lim k n last s = ⟨u, n + k, l, true⟩ ∧ u.st = .data ∧ u.err = s.err ∧ u.env = .ideal t' ∧ t'.Plain ∧
     (∀ i < k, Memory.read u.mem (bufAddr s (n + i)).toNat = some ((t.cur :: t.tx).getD i 0xFF#8)) ∧
     (∀ x, (∀ i < k, x ≠ (bufAddr s (n + i)).toNat) → Memory.read u.mem x = Memory.read s.mem x) := by
  induction k generalizing n last s t with
  | zero => exact ⟨s, t, last, rfl, hst, rfl, he, c.toPlain, by simp, fun _ _ => rfl⟩
  | succ k ih =>
    rw [readLoop, doGet, if_neg (by simp [hst]), if_pos ⟨hst, hd⟩]
    obtain ⟨w, a, t', e, c', b', m⟩ := rxByte_calm lim (k == 0) {s with att := 0} t he c hs hl hb hm hsd
    rw [e]
    simp only
    have ba : ∀ i, (bufAddr s i).toNat = (s.ptr.toNat + i % 65536) % 65536 := fun i => by simp [bufAddr, BitVec.toNat_add]
    cases k with
    | zero =>
      refine ⟨_, t', _, rfl, hst, rfl, rfl, c'.toPlain, ?_, ?_⟩
      · intro i hi
        obtain rfl : i = 0 := by omega
        exact Memory.read_write_same _ _ _
      · intro x hx
        exact Memory.read_write_other _ _ _ _ (hx 0 (by omega))
    | succ k =>
      obtain ⟨m1, m2, m3, m4⟩ := m (by simp)
      obtain ⟨u, t2, l, e2, q1, q2, q3, q4, q5, q6⟩ := ih (n + 1) t.cur (memWrite (bufAddr s n) t.cur { s with att := 0, shreg := t.cur, bitcnt := 0#4, sdaDrv := (k + 1 == 0), wire := w, asked := a, env := .ideal t' }) t' hst hd hs rfl c' b' m1 m4 (by omega)
      have bb : ∀ i, bufAddr (memWrite (bufAddr s n) t.cur { s with att := 0, shreg := t.cur, bitcnt := 0#4, sdaDrv := (k + 1 == 0), wire := w, asked := a, env := .ideal t' }) i = bufAddr s i := fun _ => rfl
      simp only [bb] at q5 q6
      refine ⟨u, t2, l, ?_, q1, q2, q3, q4, ?_, ?_⟩
      · refine e2.trans ?_; congr 1; omega
      · intro i hi
        cases i with
        | zero =>
          rw [Nat.add_zero, q6 _ (fun i hi => by rw [ba, ba]; omega)]
          exact Memory.read_write_same _ _ _
        | succ i =>
          have := q5 i (by omega)
          rw [show n + (i + 1) = n + 1 + i by omega, this, m2, m3]
          cases htx : t.tx <;> cases i <;> simp [List.getD]
      · intro x hx
        rw [q6 x (fun i hi => by rw [show n + 1 + i = n + (i + 1) by omega]; exact hx (i + 1) (by omega))]
        exact Memory.read_write_other _ _ _ _ (hx 0 (by omega))

theorem addrOf_addrByte (a : DevAddr) (d : Dir) : addrOf (addrByte a d) = a := by
  revert a; cases d <;> decide +kernel

end Sys2Proof.Machine
end

