-- ==== Sys2Proof/Tests/Slice0.lean ====
section
/-! SUPPORT. The model's own tests: words written out from the spec, ill-formed words, single commands against
the spec's examples and vectors, and for every statement with hypotheses a state and operands that meet them. -/

namespace Sys2Proof.Tests

open Sys2Proof Sys2Proof.Machine Sys2Proof.Safety

/-! ### Decoding: words from R61 to R65 and 95 V0.1 -/

theorem test_decode_start : decode 0x00001000#32 = .ok .start := rfl
theorem test_decode_stop : decode 0x00002000#32 = .ok .stop := rfl
theorem test_decode_rstart : decode 0x00003000#32 = .ok .rstart := rfl
theorem test_decode_put : decode 0x00004078#32 = .ok (.put 0x78#8) := rfl
theorem test_decode_put_top : decode 0x000040FF#32 = .ok (.put 0xFF#8) := rfl
theorem test_decode_get_ack : decode 0x00005000#32 = .ok (.get false) := rfl
theorem test_decode_get_nak : decode 0x00005001#32 = .ok (.get true) := rfl
theorem test_decode_chkerr : decode 0x00006000#32 = .ok .chkerr := rfl
theorem test_decode_resume : decode 0x00007000#32 = .ok .resume := rfl
theorem test_decode_writeb : decode 0x0000803C#32 = .ok (.writeb 0x3C#7) := rfl
theorem test_decode_writeb_top : decode 0x0000807F#32 = .ok (.writeb 0x7F#7) := rfl
theorem test_decode_readb : decode 0x0000903C#32 = .ok (.readb 0x3C#7) := rfl

theorem test_reject_zero : decode 0x00000000#32 = .error .reservedOp := rfl
theorem test_reject_opA : decode 0x0000A000#32 = .error .reservedOp := rfl
theorem test_reject_start_operand : decode 0x00001001#32 = .error .operandNotZero := rfl
theorem test_reject_resume_operand : decode 0x00007010#32 = .error .operandNotZero := rfl
theorem test_reject_get : decode 0x00005002#32 = .error .nakOutOfRange := rfl
theorem test_reject_writeb : decode 0x000080BC#32 = .error .addressOutOfRange := rfl
theorem test_reject_readb : decode 0x000090FF#32 = .error .addressOutOfRange := rfl
theorem test_reject_mid : decode 0x00001100#32 = .error .midBits := rfl
theorem test_reject_high : decode 0x00011000#32 = .error .highBits := rfl

/-- 95 V0.1: `PUTADDR 0x3C, R` is the word 0x00004079 (R78). -/
theorem test_putAddr : putAddr 0x3C#7 .read = cmdw 0x00004079#32 := by decide

/-! ### WellFormed: one ill-formed command word for each check (R66) -/

theorem test_illFormed_z1 : (RawCmd.mk 0x0001#16 0x1#4 0x0#4 0x00#8).wellFormed = false := by decide
theorem test_illFormed_z0 : (RawCmd.mk 0x0000#16 0x4#4 0x8#4 0x78#8).wellFormed = false := by decide
theorem test_illFormed_op0 : (RawCmd.mk 0x0000#16 0x0#4 0x0#4 0x00#8).wellFormed = false := by decide
theorem test_illFormed_opA : (RawCmd.mk 0x0000#16 0xA#4 0x0#4 0x00#8).wellFormed = false := by decide
theorem test_illFormed_noOperand :
    ∀ op ∈ [0x1#4, 0x2#4, 0x3#4, 0x6#4, 0x7#4], (RawCmd.mk 0x0000#16 op 0x0#4 0x01#8).wellFormed = false := by decide
theorem test_illFormed_get : (RawCmd.mk 0x0000#16 0x5#4 0x0#4 0x02#8).wellFormed = false := by decide
theorem test_illFormed_writeb : (RawCmd.mk 0x0000#16 0x8#4 0x0#4 0x80#8).wellFormed = false := by decide
theorem test_illFormed_readb : (RawCmd.mk 0x0000#16 0x9#4 0x0#4 0x80#8).wellFormed = false := by decide
theorem test_wellFormed_top : (RawCmd.mk 0x0000#16 0x9#4 0x0#4 0x7F#8).wellFormed = true := by decide

/-! ### Single commands against the ideal target (the examples of R81 to R111, 95 Conventions) -/

/-- Reset state with the ideal target at 0x3C, which sends 0xC3 and 0x5A, and two bytes in the buffer. -/
def rig : State :=
  { State.reset with env := .ideal (Target.ideal 0x3C#7 [0xC3#8, 0x5A#8]), mem := [(0x100, 0xA5#8), (0x101, 0x0F#8)] }

/-- Commands one after another; nothing where one of them does not answer a next state. -/
def after (s : State) (l : List Instr) : Option State :=
  l.foldl (fun o i => o.bind (fun s => match exec i s with | .next t => some t | _ => none)) (some s)

/-- What a host sees after the commands: STATUS and RSP. -/
def seen (s : State) (l : List Instr) : Option (Word × Word) := (after s l).map (fun t => (statusWord t, t.rsp))

/-- The framed trace (R51, R52). -/
def framed (s : State) (l : List Instr) : Option (List Item) := (after s l).map (fun t => frame (observe t.wire))

theorem test_start : (after rig [.start]).map (fun t => (statusWord t, t.rsp, t.wire)) =
    some (0x00000001#32, 0x00000100#32, [⟨true, true⟩, ⟨true, false⟩, ⟨false, false⟩]) := by decide +kernel
theorem test_start_twice : seen rig [.start, .start] = some (0x000003CE#32, 0x00000000#32) := by decide +kernel

theorem test_stop : (after rig [.start, .put 0x78#8, .stop]).map (fun t => (statusWord t, t.rsp, t.wire.drop 30)) =
    some (0x00000300#32, 0x00000100#32, [⟨false, false⟩, ⟨true, false⟩, ⟨true, true⟩]) := by decide +kernel
theorem test_stop_after_start : framed rig [.start, .stop] = some [.s, .p] := by decide +kernel

theorem test_rstart : (after rig [.start, .put 0x78#8, .rstart]).map (fun t => (statusWord t, t.rsp, t.wire.drop 30)) =
    some (0x00000004#32, 0x00000100#32, [⟨false, true⟩, ⟨true, true⟩, ⟨true, false⟩, ⟨false, false⟩]) := by
  decide +kernel
theorem test_rstart_idle : seen rig [.rstart] = some (0x000003CE#32, 0x00000000#32) := by decide +kernel

theorem test_put : seen rig [.start, .put 0x78#8] = some (0x00000203#32, 0x00000100#32) := by decide +kernel
theorem test_put_nack : (after rig [.start, .put 0x7A#8]).map (fun t => (statusWord t, t.rsp, frame (observe t.wire))) =
    some (0x0000034E#32, 0x00000000#32, [.s, .byte 0x7A#8 false, .p]) := by decide +kernel

theorem test_get_ack : seen rig [.start, .put 0x79#8, .get false] = some (0x00000013#32, 0x000001C3#32) := by
  decide +kernel
theorem test_get_nak : seen rig [.start, .put 0x79#8, .get true] = some (0x00000213#32, 0x000001C3#32) := by
  decide +kernel

theorem test_chkerr : seen rig [.chkerr] = some (0x00000300#32, 0x00000100#32) := by decide +kernel
theorem test_chkerr_err : seen rig [.stop, .chkerr] = some (0x000003CE#32, 0x00000101#32) := by decide +kernel

theorem test_resume_idle : seen rig [.resume] = some (0x00000300#32, 0x00000100#32) := by decide +kernel
theorem test_resume_open : framed rig [.start, .put 0x78#8, .resume] = some [.s, .byte 0x78#8 true, .p] := by
  decide +kernel

theorem test_writeb : (after { rig with ptr := 0x0100#16, len := 2#15 } [.writeb 0x3C#7]).map
      (fun t => (statusWord t, t.rsp, frame (observe t.wire), t.wire.length)) =
    some (0x00000300#32, 0x00020100#32,
      [.s, .byte 0x78#8 true, .byte 0xA5#8 true, .byte 0x0F#8 true, .p], 87) := by decide +kernel
theorem test_writeb_empty : framed rig [.writeb 0x3C#7] = some [.s, .byte 0x78#8 true, .p] := by decide +kernel

theorem test_readb : (after { rig with ptr := 0xFFFF#16, len := 2#15 } [.readb 0x3C#7]).map
      (fun t => (statusWord t, t.rsp, frame (observe t.wire), Memory.read t.mem 0xFFFF, Memory.read t.mem 0x0000)) =
    some (0x00000300#32, 0x0002015A#32,
      [.s, .byte 0x79#8 true, .byte 0xC3#8 true, .byte 0x5A#8 false, .p], some 0xC3#8, some 0x5A#8) := by decide +kernel
theorem test_readb_nack : seen { rig with len := 1#15 } [.readb 0x3D#7] = some (0x0000035E#32, 0xFFFF0000#32) := by
  decide +kernel

/-- R53 E4 with R112: three failed polls in the frame and three in the stop condition of its fault entry are six in one
primitive command, too many for a limit of four; the polls of the frame alone are not. -/
theorem test_dutyE4_counts_the_fault_entry :
    let slow : Cell := ⟨⟨true, true⟩, List.replicate 3 ⟨false, true⟩, ⟨true, true⟩, ⟨true, true⟩⟩
    let free : Cell := ⟨⟨true, true⟩, [], ⟨true, true⟩, ⟨true, true⟩⟩
    let frame := answersOf (slow :: List.replicate 8 free)
    let asks (stop : Cell) := (doPut 4 0x7A#8
      { State.reset with st := .start, sclDrv := false, env := .script (frame ++ stop.answers) }).1.asked
    (asks slow).any (fun a => a.poll && !a.ans.scl && !(failedPolls a + 1 < 4)) = true ∧
      (asks free).any (fun a => a.poll && !a.ans.scl && !(failedPolls a + 1 < 4)) = false := by decide +kernel

/-- A program word comes to run by the host's write to CMD (log 2). -/
theorem test_fetch : decodeTableWord 32 0x1000 = some .start ∧
    step (State.reset.withFetchWord 32 0x1000) = exec .start State.reset := ⟨rfl, rfl⟩

/-! ### Witnesses: the hypotheses of every statement met by a concrete state and operands -/

theorem quiet_reset : Quiet State.reset := by constructor <;> decide

/-- Reset state with one host operation. -/
def hosted (op : HostOp) : State := { State.reset with host := [op] }

theorem quiet_hosted (op : HostOp) : Quiet (hosted op) := by constructor <;> simp [hosted, State.reset, St.stable]

theorem witness_EncodeOfDecode : decode 0x00008001#32 = .ok (.writeb 0x01#7) := rfl

theorem witness_LegalWordsAreTheNineSets : decode 0x0000907F#32 = .ok (.readb 0x7F#7) ∧
    EncRow.mk "READB" 0x00009000#32 0xFFFFFF80#32 ∈ encTable := ⟨rfl, by decide⟩

theorem witness_IllegalWordRefused : (hosted (cmdw 0#32)).host = cmdw 0#32 :: [] ∧ (hosted (cmdw 0#32)).rst = false ∧
    (hosted (cmdw 0#32)).busy = false ∧ (RawCmd.ofWord 0#32).wellFormed = false := by decide

theorem witness_StepRunsDecodedCommand : (hosted (cmdw 0x4078#32)).host = cmdw 0x4078#32 :: [] ∧
    (hosted (cmdw 0x4078#32)).rst = false ∧ (hosted (cmdw 0x4078#32)).busy = false ∧
    decode 0x4078#32 = .ok (.put 0x78#8) := ⟨rfl, rfl, rfl, rfl⟩

theorem witness_FetchWordRunsFirst : decodeTableWord 32 0x907F = some (.readb 0x7F#7) := rfl

theorem witness_HostReadsRegisters : ∀ off ∈ [0x00, 0x04, 0x08, 0x0C, 0x10, 0x14],
    (hosted (.read off .word)).host = .read off .word :: [] ∧ off % 4 = 0 ∧ (hosted (.read off .word)).rst = false := by
  decide

/-- The reset input is 1 and the host does one operation. -/
def inReset (op : HostOp) : State := { hosted op with rst := true }

theorem witness_StatusLayout : (hosted (.read 0x04 .word)).host = .read 0x04 .word :: [] ∧
    (hosted (.read 0x04 .word)).rst = false ∧
    (hosted (.write 0x04 .word 1#32)).host = .write 0x04 .word 1#32 :: [] := by decide

theorem witness_ResetState : (inReset (.setRst false)).rst = true := rfl

theorem witness_ResponseLayout : ∀ c ∈ [(-32768 : Int), -1, 0, 32767], -32768 ≤ c ∧ c < 32768 := by decide

theorem witness_HostWritesOperands : ∀ off ∈ [0x04, 0x08, 0x0C, 0x10, 0x14],
    (hosted (.write off .word 0xFFFFFFFF#32)).host = .write off .word 0xFFFFFFFF#32 :: [] ∧ off % 4 = 0 ∧ off ≠ 0x00 ∧
    (hosted (.write off .word 0xFFFFFFFF#32)).rst = false ∧ (hosted (.write off .word 0xFFFFFFFF#32)).busy = false := by
  decide

theorem witness_HostAccessRefused :
    (Width.half ≠ .word ∨ 0 % 4 ≠ 0) ∧ (Width.word ≠ .word ∨ 2 % 4 ≠ 0) ∧
    (hosted (.write 0 .half 0#32)).host = .write 0 .half 0#32 :: [] ∧
    (hosted (.read 2 .word)).host = .read 2 .word :: [] := by decide

/-- The host loads the buffer byte at `a`, which holds 0x5A. -/
def loads (a : Nat) : State := { hosted (.memLoad a) with mem := [(a, 0x5A#8)] }

theorem witness_HostBufferPort :
    65535 < 65536 ∧ (hosted (.memStore 65535 0x5A#8)).host = .memStore 65535 0x5A#8 :: [] ∧
    (loads 65535).host = .memLoad 65535 :: [] ∧ Memory.read (loads 65535).mem 65535 = some 0x5A#8 ∧
    65536 ≤ 65536 ∧ (hosted (.memLoad 65536)).host = .memLoad 65536 :: [] ∧
    (hosted (.memStore 65536 0#8)).host = .memStore 65536 0#8 :: [] :=
  ⟨by omega, rfl, rfl, List.lookup_cons_self, Nat.le_refl _, rfl, rfl⟩

theorem held_inReset (op : HostOp) : HeldInReset (inReset op) := fun _ => rfl

theorem witness_ResetInputHolds :
    (hosted (.setRst true)).host = .setRst true :: [] ∧
    (inReset (.write 0x08 .word 1#32)).rst = true ∧ 0x08 % 4 = 0 ∧
    (inReset (.write 0x08 .word 1#32)).host = .write 0x08 .word 1#32 :: [] ∧
    (inReset (.read 0x04 .word)).host = .read 0x04 .word :: [] ∧
    (inReset (.setRst false)).rst = true ∧
    (inReset (.setRst false)).host = .setRst false :: [] := ⟨rfl, rfl, rfl, rfl, rfl, rfl, rfl⟩

theorem witness_BusyDropsWrites : ∀ off ∈ [0x00, 0x08, 0x0C],
    ({ hosted (.write off .word 1#32) with busy := true } : State).busy = true ∧
    (off = 0x00 ∨ off = 0x08 ∨ off = 0x0C) ∧
    ({ hosted (.write off .word 1#32) with busy := true } : State).host = .write off .word 1#32 :: [] := by decide

theorem witness_RecoverResumesOnError : ∀ r ∈ [0x00000101#32, 0x00000100#32],
    ({ hosted .resumeIfErr with rsp := r } : State).host = .resumeIfErr :: [] ∧
    ({ hosted .resumeIfErr with rsp := r } : State).rst = false ∧
    ({ hosted .resumeIfErr with rsp := r } : State).busy = false := fun _ _ => ⟨rfl, rfl, rfl⟩

theorem witness_StartOpensTransaction : State.reset.st = .idle := rfl

/-- An open transaction, the BTE holding the clock, the environment's answers fixed. -/
def opened (st : St) (d : Dir) (l : List Levels) : State :=
  { State.reset with st := st, dir := d, sclDrv := false, env := .script l }

theorem quiet_opened (d : Dir) (l : List Levels) : Quiet (opened .data d l) := by
  constructor <;> simp [opened, State.reset, St.stable]

/-- A bit cell in which the environment drives nothing. -/
def freeCell : Cell := ⟨⟨true, true⟩, [], ⟨true, true⟩, ⟨true, true⟩⟩

/-- A bit cell in which the environment holds SDA low. -/
def lowCell : Cell := ⟨⟨true, false⟩, [], ⟨true, false⟩, ⟨true, false⟩⟩

/-- A frame in which the target acknowledges. -/
def ackFrame : FrameCells := ⟨List.replicate 8 freeCell, lowCell⟩

/-- A frame in which nobody answers. -/
def nackFrame : FrameCells := ⟨List.replicate 8 freeCell, freeCell⟩

theorem good_freeCell : freeCell.Good := ⟨by simp [freeCell], rfl⟩

theorem good_lowCell : lowCell.Good := ⟨by simp [lowCell], rfl⟩

theorem short_freeCell : freeCell.lows.length < Config.attemptLimit := attemptLimit_pos

theorem good_ackFrame : ackFrame.Good Config.attemptLimit := by
  refine ⟨rfl, fun c h => ?_, attemptLimit_pos⟩
  simp only [ackFrame, FrameCells.cells, List.mem_append, List.mem_replicate, List.mem_singleton] at h
  obtain ⟨-, rfl⟩ | rfl := h
  · exact good_freeCell
  · exact good_lowCell

theorem good_nackFrame : nackFrame.Good Config.attemptLimit := by
  refine ⟨rfl, fun c h => ?_, attemptLimit_pos⟩
  simp only [nackFrame, FrameCells.cells, List.mem_append, List.mem_replicate, List.mem_singleton] at h
  obtain ⟨-, rfl⟩ | rfl := h <;> exact good_freeCell

/-- Failed clock polls up to the limit. -/
def held : List Levels := List.replicate Config.attemptLimit ⟨false, true⟩

theorem held_low : ∀ x ∈ held, x.scl = false := fun _ h => (List.mem_replicate.1 h).2 ▸ rfl

theorem held_length : held.length = Config.attemptLimit := List.length_replicate

theorem held_nonempty : held ≠ [] := by simp [held, Config.attemptLimit]

theorem witness_StopClosesTransaction : (opened .data .write freeCell.answers).st = .data ∧
    (opened .data .write freeCell.answers).sclDrv = false ∧ freeCell.Good ∧
    freeCell.lows.length < Config.attemptLimit ∧
    (opened .data .write freeCell.answers).env = .script (freeCell.answers ++ []) :=
  ⟨rfl, rfl, good_freeCell, short_freeCell, rfl⟩

theorem witness_StopStalls (e e' : Levels) :
    (opened .data .read (e :: (held ++ [e']))).st = .data ∧ (opened .data .read (e :: (held ++ [e']))).sclDrv = false ∧
    (∀ x ∈ held, x.scl = false) ∧ held.length = Config.attemptLimit ∧
    (opened .data .read (e :: (held ++ [e']))).env = .script (e :: (held ++ e' :: [])) :=
  ⟨rfl, rfl, held_low, held_length, rfl⟩

theorem witness_RstartRepeatsStart (e : Levels) : (opened .data .read (freeCell.answers ++ [e])).st = .data ∧
    (opened .data .read (freeCell.answers ++ [e])).sclDrv = false ∧ freeCell.Good ∧
    freeCell.lows.length < Config.attemptLimit ∧
    (opened .data .read (freeCell.answers ++ [e])).env = .script (freeCell.answers ++ e :: []) :=
  ⟨rfl, rfl, good_freeCell, short_freeCell, rfl⟩

theorem witness_RstartStalls (e : Levels) :
    (opened .data .write (e :: held)).st = .data ∧ (opened .data .write (e :: held)).sclDrv = false ∧
    (∀ x ∈ held, x.scl = false) ∧ held.length = Config.attemptLimit ∧
    (opened .data .write (e :: held)).env = .script (e :: (held ++ [])) :=
  ⟨rfl, rfl, held_low, held_length, congrArg (fun l => Env.script (e :: l)) (List.append_nil held).symm⟩

/-- An address byte and a data byte. -/
theorem witness_PutAcknowledged : ackFrame.Good Config.attemptLimit ∧ ∀ st ∈ [St.start, .rstart, .data],
    allowed (.put 0x79#8) (opened st .write ackFrame.answers).st (opened st .write ackFrame.answers).dir = true ∧
    (opened st .write ackFrame.answers).sclDrv = false ∧ ackFrame.acked = true ∧
    (opened st .write ackFrame.answers).env = .script (ackFrame.answers ++ []) := ⟨good_ackFrame, by decide⟩

theorem witness_PutNotAcknowledged : nackFrame.Good Config.attemptLimit ∧ freeCell.Good ∧
    freeCell.lows.length < Config.attemptLimit ∧ ∀ st ∈ [St.start, .rstart, .data],
    allowed (.put 0x79#8) (opened st .write (nackFrame.answers ++ freeCell.answers)).st
      (opened st .write (nackFrame.answers ++ freeCell.answers)).dir = true ∧
    (opened st .write (nackFrame.answers ++ freeCell.answers)).sclDrv = false ∧ nackFrame.acked = false ∧
    (opened st .write (nackFrame.answers ++ freeCell.answers)).env =
      .script (nackFrame.answers ++ (freeCell.answers ++ [])) :=
  ⟨good_nackFrame, good_freeCell, short_freeCell, by decide⟩

/-- An open transaction whose environment holds the clock low after `n` cells, until the limit. -/
def stalling (n : Nat) (st : St) (d : Dir) (e e' : Levels) : State :=
  opened st d (answersOf (List.replicate n freeCell) ++ e :: (held ++ e' :: []))

theorem polls_free (n : Nat) : polls (List.replicate n freeCell) = 0 := by simp [polls, freeCell]

/-- Stalled in the first cell of 0x79, which sends a 0, and in the ninth, where SDA is released. -/
theorem witness_PutStalls (e e' : Levels) : ∀ p ∈ [(0, false), (8, true)],
    allowed (.put 0x79#8) (stalling p.1 .start .write e e').st (stalling p.1 .start .write e e').dir = true ∧
    (stalling p.1 .start .write e e').sclDrv = false ∧ (∀ c ∈ List.replicate p.1 freeCell, c.Good) ∧
    (bitsOf 0x79#8 ++ [true])[(List.replicate p.1 freeCell).length]? = some p.2 ∧
    (∀ x ∈ held, x.scl = false) ∧ held ≠ [] ∧
    polls (List.replicate p.1 freeCell) + held.length = Config.attemptLimit ∧
    (stalling p.1 .start .write e e').env =
      .script (answersOf (List.replicate p.1 freeCell) ++ e :: (held ++ e' :: [])) := by
  intro p h
  refine ⟨rfl, rfl, fun c h => (List.mem_replicate.1 h).2 ▸ good_freeCell, ?_, held_low, held_nonempty,
    by rw [polls_free, Nat.zero_add, held_length], rfl⟩
  simp only [List.mem_cons, List.not_mem_nil, or_false] at h
  obtain rfl | rfl := h <;> rfl

theorem witness_GetReceives : (opened .data .read ackFrame.answers).st = .data ∧
    (opened .data .read ackFrame.answers).dir = .read ∧ (opened .data .read ackFrame.answers).sclDrv = false ∧
    ackFrame.Good Config.attemptLimit ∧
    (opened .data .read ackFrame.answers).env = .script (ackFrame.answers ++ []) :=
  ⟨rfl, rfl, rfl, good_ackFrame, rfl⟩

/-- Stalled in the first cell, and in the ninth, where the BTE acknowledges. -/
theorem witness_GetStalls (e e' : Levels) : ∀ p ∈ [(0, true), (8, false)],
    (stalling p.1 .data .read e e').st = .data ∧ (stalling p.1 .data .read e e').dir = .read ∧
    (stalling p.1 .data .read e e').sclDrv = false ∧ (∀ c ∈ List.replicate p.1 freeCell, c.Good) ∧
    (List.replicate 8 true ++ [false])[(List.replicate p.1 freeCell).length]? = some p.2 ∧
    (∀ x ∈ held, x.scl = false) ∧ held ≠ [] ∧
    polls (List.replicate p.1 freeCell) + held.length = Config.attemptLimit ∧
    (stalling p.1 .data .read e e').env =
      .script (answersOf (List.replicate p.1 freeCell) ++ e :: (held ++ e' :: [])) := by
  intro p h
  refine ⟨rfl, rfl, rfl, fun c h => (List.mem_replicate.1 h).2 ▸ good_freeCell, ?_, held_low, held_nonempty,
    by rw [polls_free, Nat.zero_add, held_length], rfl⟩
  simp only [List.mem_cons, List.not_mem_nil, or_false] at h
  obtain rfl | rfl := h <;> rfl

/-- The three cases of the drivers, and the free clock. -/
theorem witness_ResumeClears : State.reset.sclDrv = true ∧ State.reset.sdaDrv = true ∧
    ({ State.reset with sdaDrv := false } : State).sclDrv = true ∧
    ({ State.reset with sdaDrv := false } : State).sdaDrv = false ∧
    (opened .data .write freeCell.answers).sclDrv = false ∧ freeCell.Good ∧
    freeCell.lows.length < Config.attemptLimit ∧
    (opened .data .write freeCell.answers).env = .script (freeCell.answers ++ []) :=
  ⟨rfl, rfl, rfl, rfl, rfl, good_freeCell, short_freeCell, rfl⟩

/-- Idle, LEN and the buffer placed at the top of the address space so that it wraps, the answers fixed. -/
def idleWith (n : BitVec 15) (l : List Levels) : State :=
  { State.reset with ptr := 0xFFFF#16, len := n, mem := [(0, 0x0F#8), (65535, 0xA5#8)], env := .script l }

/-- The environment's answers to a START on a free bus. -/
def startAnswers : List Levels := [⟨true, true⟩, ⟨true, true⟩, ⟨true, true⟩]

/-- The buffer holds the two bytes from PTR = 0xFFFF on. -/
theorem buffer_wraps (n : BitVec 15) (l : List Levels) : ∀ k (h : k < [0xA5#8, 0x0F#8].length),
    Memory.read (idleWith n l).mem (bufAddr (idleWith n l) k).toNat = some [0xA5#8, 0x0F#8][k]
  | 0, _ => by simp [idleWith, Memory.read, bufAddr, List.lookup]
  | 1, _ => by simp [idleWith, Memory.read, bufAddr]

theorem acked_frames (n : Nat) : ∀ f ∈ List.replicate n ackFrame, f.Good Config.attemptLimit ∧ f.acked = true :=
  fun _ h => (List.mem_replicate.1 h).2 ▸ ⟨good_ackFrame, rfl⟩

theorem witness_WritebSendsAll : ∃ l, (idleWith 2#15 l).st = .idle ∧ (idleWith 2#15 l).sclDrv = true ∧
    (idleWith 2#15 l).sdaDrv = true ∧ ackFrame.Good Config.attemptLimit ∧ ackFrame.acked = true ∧
    [ackFrame, ackFrame].length = (idleWith 2#15 l).len.toNat ∧
    (∀ f ∈ [ackFrame, ackFrame], f.Good Config.attemptLimit ∧ f.acked = true) ∧ freeCell.Good ∧
    freeCell.lows.length < Config.attemptLimit ∧ [0xA5#8, 0x0F#8].length = (idleWith 2#15 l).len.toNat ∧
    (∀ n (h : n < [0xA5#8, 0x0F#8].length),
      Memory.read (idleWith 2#15 l).mem (bufAddr (idleWith 2#15 l) n).toNat = some [0xA5#8, 0x0F#8][n]) ∧
    (idleWith 2#15 l).env = .script (⟨true, true⟩ :: ⟨true, true⟩ :: ⟨true, true⟩ ::
      (ackFrame.answers ++ ([ackFrame, ackFrame].flatMap FrameCells.answers ++ (freeCell.answers ++ [])))) :=
  ⟨_, rfl, rfl, rfl, good_ackFrame, rfl, rfl, acked_frames 2, good_freeCell, short_freeCell, rfl,
    buffer_wraps _ _, rfl⟩

theorem witness_WritebShortCount : ∃ l, (idleWith 2#15 l).st = .idle ∧ (idleWith 2#15 l).sclDrv = true ∧
    (idleWith 2#15 l).sdaDrv = true ∧ ackFrame.Good Config.attemptLimit ∧ ackFrame.acked = true ∧
    [ackFrame].length < (idleWith 2#15 l).len.toNat ∧
    (∀ f ∈ [ackFrame], f.Good Config.attemptLimit ∧ f.acked = true) ∧ nackFrame.Good Config.attemptLimit ∧
    nackFrame.acked = false ∧ freeCell.Good ∧ freeCell.lows.length < Config.attemptLimit ∧
    [0xA5#8, 0x0F#8].length = [ackFrame].length + 1 ∧
    (∀ n (h : n < [0xA5#8, 0x0F#8].length),
      Memory.read (idleWith 2#15 l).mem (bufAddr (idleWith 2#15 l) n).toNat = some [0xA5#8, 0x0F#8][n]) ∧
    (idleWith 2#15 l).env = .script (⟨true, true⟩ :: ⟨true, true⟩ :: ⟨true, true⟩ ::
      (ackFrame.answers ++ ([ackFrame].flatMap FrameCells.answers ++
        (nackFrame.answers ++ (freeCell.answers ++ []))))) :=
  ⟨_, rfl, rfl, rfl, good_ackFrame, rfl, by decide, acked_frames 1, good_nackFrame, rfl, good_freeCell,
    short_freeCell, rfl, buffer_wraps _ _, rfl⟩

theorem witness_BlockAddressNotAcknowledged : ∃ l, (idleWith 0#15 l).st = .idle ∧ (idleWith 0#15 l).sclDrv = true ∧
    (idleWith 0#15 l).sdaDrv = true ∧ nackFrame.Good Config.attemptLimit ∧ nackFrame.acked = false ∧ freeCell.Good ∧
    freeCell.lows.length < Config.attemptLimit ∧
    (idleWith 0#15 l).env = .script (⟨true, true⟩ :: ⟨true, true⟩ :: ⟨true, true⟩ ::
      (nackFrame.answers ++ (freeCell.answers ++ []))) :=
  ⟨_, rfl, rfl, rfl, good_nackFrame, rfl, good_freeCell, short_freeCell, rfl⟩

/-- LEN = 2, and LEN = 0 where nothing is received. -/
theorem witness_ReadbReceivesAll : ∀ n ∈ [0, 2], ∃ l, (idleWith (.ofNat 15 n) l).st = .idle ∧
    (idleWith (.ofNat 15 n) l).sclDrv = true ∧ (idleWith (.ofNat 15 n) l).sdaDrv = true ∧
    ackFrame.Good Config.attemptLimit ∧ ackFrame.acked = true ∧
    (List.replicate n ackFrame).length = (idleWith (.ofNat 15 n) l).len.toNat ∧
    (∀ f ∈ List.replicate n ackFrame, f.Good Config.attemptLimit) ∧ freeCell.Good ∧
    freeCell.lows.length < Config.attemptLimit ∧
    (idleWith (.ofNat 15 n) l).env = .script (⟨true, true⟩ :: ⟨true, true⟩ :: ⟨true, true⟩ ::
      (ackFrame.answers ++ ((List.replicate n ackFrame).flatMap FrameCells.answers ++ (freeCell.answers ++ [])))) := by
  intro n h
  refine ⟨_, rfl, rfl, rfl, good_ackFrame, rfl, ?_, fun f m => (acked_frames n f m).1, good_freeCell,
    short_freeCell, rfl⟩
  simp only [List.mem_cons, List.not_mem_nil, or_false] at h
  obtain rfl | rfl := h <;> rfl

theorem witness_ReadbShortCount (e : Levels) : ∃ l, (idleWith 2#15 l).st = .idle ∧ (idleWith 2#15 l).sclDrv = true ∧
    (idleWith 2#15 l).sdaDrv = true ∧ ackFrame.Good Config.attemptLimit ∧ ackFrame.acked = true ∧
    [ackFrame].length < (idleWith 2#15 l).len.toNat ∧ (∀ f ∈ [ackFrame], f.Good Config.attemptLimit) ∧
    (∀ x ∈ held, x.scl = false) ∧ held.length = Config.attemptLimit ∧
    (idleWith 2#15 l).env = .script (⟨true, true⟩ :: ⟨true, true⟩ :: ⟨true, true⟩ ::
      (ackFrame.answers ++ ([ackFrame].flatMap FrameCells.answers ++ e :: (held ++ [])))) :=
  ⟨_, rfl, rfl, rfl, good_ackFrame, rfl, Nat.one_lt_two, fun f m => (acked_frames 1 f m).1, held_low, held_length, rfl⟩

theorem witness_ErrorRefusesBusCommands : ∀ i ∈ [Instr.start, .stop, .rstart, .put 0#8, .get true, .writeb 0#7, .readb 0x7F#7],
    ({ State.reset with st := .error } : State).st = .error ∧ busCommand i = true := by decide

theorem witness_ViolationFaults : ∀ p ∈ [(Instr.start, St.data), (.stop, .start), (.rstart, .idle), (.put 0#8, .idle),
      (.get false, .rstart), (.writeb 0#7, .data), (.readb 0x7F#7, .start)],
    busCommand p.1 = true ∧ (opened p.2 .write []).st ≠ .error ∧
      allowed p.1 (opened p.2 .write []).st (opened p.2 .write []).dir = false := by decide

/-- The three cases of the drivers at entry, and the free clock. -/
theorem witness_FaultEntry : State.reset.sclDrv = true ∧ State.reset.sdaDrv = true ∧
    ({ State.reset with sdaDrv := false } : State).sclDrv = true ∧
    ({ State.reset with sdaDrv := false } : State).sdaDrv = false ∧
    (opened .data .write freeCell.answers).sclDrv = false ∧ freeCell.Good ∧
    freeCell.lows.length < Config.attemptLimit ∧
    (opened .data .write freeCell.answers).env = .script (freeCell.answers ++ []) := witness_ResumeClears

theorem witness_StepKeepsQuiet : Quiet (hosted (cmd .start)) ∧ ∃ t, step (hosted (cmd .start)) = .next t :=
  ⟨quiet_hosted _, _, rfl⟩

theorem witness_StepKeepsMemoryCanonical : Quiet (hosted (.memStore 65535 1#8)) ∧
    Memory.wf (hosted (.memStore 65535 1#8)).mem = true ∧ ∃ t, step (hosted (.memStore 65535 1#8)) = .next t :=
  ⟨quiet_hosted _, rfl, _, rfl⟩

theorem witness_StepKeepsTraceRecorded : Quiet (hosted (cmd .start)) ∧ TraceRecorded (hosted (cmd .start)) ∧
    ∃ t, step (hosted (cmd .start)) = .next t := ⟨quiet_hosted _, rfl, _, rfl⟩

theorem witness_StepKeepsDriversOrderly : Quiet (hosted (cmd .start)) ∧ Orderly (hosted (cmd .start)) ∧
    ∃ t, step (hosted (cmd .start)) = .next t := ⟨quiet_hosted _, ⟨trivial, rfl⟩, _, rfl⟩

theorem witness_StepKeepsCounters : Quiet (hosted (cmd .start)) ∧ Counters (hosted (cmd .start)) ∧
    ∃ t, step (hosted (cmd .start)) = .next t := ⟨quiet_hosted _, ⟨fun _ => rfl, Nat.zero_le _⟩, _, rfl⟩

theorem witness_StepKeepsHeldInReset : Quiet (inReset (cmd .start)) ∧ HeldInReset (inReset (cmd .start)) ∧
    (inReset (cmd .start)).rst = true ∧ ∃ t, step (inReset (cmd .start)) = .next t :=
  ⟨by constructor <;> simp [inReset, hosted, State.reset, St.stable], held_inReset _, rfl, _, rfl⟩

/-- CHKERR keeps the fault flag, a STOP in IDLE sets it, RESUME clears it. -/
theorem witness_ErrSetByFaultsClearedByResume : Quiet State.reset ∧
    ∀ i ∈ [Instr.chkerr, .stop, .resume], ∃ t, exec i State.reset = .next t := by
  refine ⟨quiet_reset, fun i h => ?_⟩
  simp only [List.mem_cons, List.not_mem_nil, or_false] at h
  obtain rfl | rfl | rfl := h <;> exact ⟨_, rfl⟩

theorem witness_StateGraph : Quiet State.reset ∧ ∃ t, exec .start State.reset = .next t := ⟨quiet_reset, _, rfl⟩

theorem witness_CommandsKeepHostSide : Quiet State.reset ∧ ∃ t, exec .start State.reset = .next t :=
  witness_StateGraph

/-- With LEN = 2 at PTR = 0xFFFF, address 1 is outside the bytes a READB may write. -/
theorem witness_OnlyReadbWritesBuffer : Quiet (idleWith 2#15 []) ∧ (∃ t, exec (.readb 0x3C#7) (idleWith 2#15 []) = .next t) ∧
    ∀ a, Instr.readb 0x3C#7 = .readb a → ∀ n < (idleWith 2#15 []).len.toNat, 1 ≠ (bufAddr (idleWith 2#15 []) n).toNat :=
  ⟨by constructor <;> simp [idleWith, State.reset, St.stable], by simp [exec, execReadb], fun _ _ => by decide⟩

/-- A PUT of a data byte, CHKERR and STOP in an open write transaction: one for each clause. -/
theorem witness_RegisterFrames : Quiet (opened .data .write []) ∧
    (opened .data .write []).st ≠ .start ∧ (opened .data .write []).st ≠ .rstart ∧
    (∃ t, exec (.put 0x79#8) (opened .data .write []) = .next t) ∧
    (∃ t, exec .chkerr (opened .data .write []) = .next t) ∧
    ∃ t, exec .stop (opened .data .write []) = .next t :=
  ⟨quiet_opened _ _, by decide, by decide, by simp [exec, execPut], by simp [exec, execChkerr], by simp [exec, execStop]⟩

/-- A START asks for three samples, none of them a poll of the clock. -/
theorem witness_NoStallUnderDutyE4 : Quiet State.reset ∧ State.reset.st ≠ .error ∧ ∃ t, exec .start State.reset = .next t ∧
    DutyE4 Config.attemptLimit (newAsks State.reset t) := by
  refine ⟨quiet_reset, by decide, _, rfl, fun a h hp => absurd hp (Bool.eq_false_iff.1 (?_ : a.poll = false))⟩
  exact (by decide : ∀ a ∈ newAsks State.reset _, a.poll = false) a h

theorem witness_BufferReachedOnlyByBlocks : (∀ a, Instr.get true ≠ .writeb a) ∧ ∀ a, Instr.get true ≠ .readb a :=
  ⟨fun _ => nofun, fun _ => nofun⟩

theorem witness_BlockReturnLaws : Quiet State.reset ∧ ∃ a, Instr.readb 0#7 = .writeb a ∨ Instr.readb 0#7 = .readb a :=
  ⟨quiet_reset, 0#7, .inr rfl⟩

theorem witness_SamplesBounded : Quiet State.reset ∧ ∃ t, exec .start State.reset = .next t := witness_StateGraph

theorem undisturbed_ackFrame : ackFrame.Undisturbed :=
  fun _ h => (List.mem_replicate.1 h).2 ▸ rfl

theorem witness_WritebFramedTrace : ∃ l, (idleWith 2#15 l).st = .idle ∧ (idleWith 2#15 l).sclDrv = true ∧
    (idleWith 2#15 l).sdaDrv = true ∧ (Levels.mk true true).scl = true ∧ ackFrame.Good Config.attemptLimit ∧
    ackFrame.acked = true ∧ ackFrame.Undisturbed ∧ [ackFrame, ackFrame].length = (idleWith 2#15 l).len.toNat ∧
    (∀ f ∈ List.replicate 2 ackFrame, f.Good Config.attemptLimit ∧ f.acked = true ∧ f.Undisturbed) ∧ freeCell.Good ∧
    freeCell.lows.length < Config.attemptLimit ∧ freeCell.low = ⟨true, true⟩ ∧
    [0xA5#8, 0x0F#8].length = (idleWith 2#15 l).len.toNat ∧
    (∀ n (h : n < [0xA5#8, 0x0F#8].length),
      Memory.read (idleWith 2#15 l).mem (bufAddr (idleWith 2#15 l) n).toNat = some [0xA5#8, 0x0F#8][n]) ∧
    (idleWith 2#15 l).env = .script (⟨true, true⟩ :: ⟨true, true⟩ :: ⟨true, true⟩ ::
      (ackFrame.answers ++ ([ackFrame, ackFrame].flatMap FrameCells.answers ++ (freeCell.answers ++ [])))) :=
  ⟨_, rfl, rfl, rfl, rfl, good_ackFrame, rfl, undisturbed_ackFrame, rfl,
    fun f m => ⟨(acked_frames 2 f m).1, (acked_frames 2 f m).2, (List.mem_replicate.1 m).2 ▸ undisturbed_ackFrame⟩,
    good_freeCell, short_freeCell, rfl, rfl, buffer_wraps _ _, rfl⟩

theorem witness_ReadbFramedTrace : ∃ l, (idleWith 2#15 l).st = .idle ∧ (idleWith 2#15 l).sclDrv = true ∧
    (idleWith 2#15 l).sdaDrv = true ∧ (Levels.mk true true).scl = true ∧ ackFrame.Good Config.attemptLimit ∧
    ackFrame.acked = true ∧ ackFrame.Undisturbed ∧ [nackFrame, nackFrame].length = (idleWith 2#15 l).len.toNat ∧
    (∀ f ∈ List.replicate 2 nackFrame, f.Good Config.attemptLimit ∧ f.ninth.high.sda = true) ∧ freeCell.Good ∧
    freeCell.lows.length < Config.attemptLimit ∧ freeCell.low = ⟨true, true⟩ ∧
    (idleWith 2#15 l).env = .script (⟨true, true⟩ :: ⟨true, true⟩ :: ⟨true, true⟩ ::
      (ackFrame.answers ++ ([nackFrame, nackFrame].flatMap FrameCells.answers ++ (freeCell.answers ++ [])))) :=
  ⟨_, rfl, rfl, rfl, rfl, good_ackFrame, rfl, undisturbed_ackFrame, rfl,
    fun _ m => (List.mem_replicate.1 m).2 ▸ ⟨good_nackFrame, rfl⟩, good_freeCell, short_freeCell, rfl, rfl⟩

theorem witness_IdealTargetTransfers : Quiet { rig with len := 3#15 } ∧ ({ rig with len := 3#15 } : State).st = .idle ∧
    ({ rig with len := 3#15 } : State).env = .ideal (Target.ideal 0x3C#7 [0xC3#8, 0x5A#8]) ∧
    TargetAtRest (Target.ideal 0x3C#7 [0xC3#8, 0x5A#8]) :=
  ⟨by constructor <;> simp [rig, State.reset, St.stable], rfl, rfl, ⟨rfl, rfl, rfl, rfl, rfl, rfl, rfl, rfl⟩⟩

end Sys2Proof.Tests
end

section
/-! What every step keeps of the state between commands (R27), the reset values (R28) and the STATUS word (R22). -/

namespace Sys2Proof.Safety

open Sys2Proof.Machine

/-! ### The reset values (R28) -/

/-- The reset values are a quiet state (R27: "after reset"). -/
theorem ResetValues.quiet {s : State} (h : ResetValues s) : Quiet s where
  errIffError := by simp [h.err, h.st]
  errorIffCause := by simp [h.st, h.cause]
  stable := by rw [h.st]; rfl
  released := fun _ => ⟨h.sclDrv, h.sdaDrv⟩
  owned := by simp [h.st]
  idleDir := fun _ => h.dir
  notBusy := h.busy

/-- The table of R28 leaves the level of the reset input and the host's list open. -/
theorem resetValues_resetRegs (s : State) (rest : List HostOp) (level : Bool) :
    ResetValues { resetRegs s with host := rest, rst := level } := by
  constructor <;> simp [statusWord, St.code, Cause.code, Dir.bit]

theorem resetValues_reset : ResetValues State.reset := by constructor <;> rfl

/-! ### The invariant between commands (R27) -/

/-- The invariant speaks neither of what belongs to the host nor of PTR, LEN, RSP, the buffer memory and the count of
draws. -/
theorem Quiet.withHostSide {s : State} (q : Quiet s) (rest : List HostOp) (p : BufAddr) (l : BitVec 15) (w : Word)
    (m : Memory) (d : Nat) (r : List Word) :
    Quiet { s with host := rest, ptr := p, len := l, rsp := w, mem := m, draws := d, reads := r } :=
  ⟨q.errIffError, q.errorIffCause, q.stable, q.released, q.owned, q.idleDir, q.notBusy⟩

end Sys2Proof.Safety

namespace Sys2Proof.Machine

open Sys2Proof.Safety

/-! ### Every command and every step keeps the invariant (R27) -/

theorem doneSt_stable (i : Instr) : (doneSt i).stable = true := by cases i <;> rfl

theorem doneSt_ne_error (i : Instr) : doneSt i ≠ .error := by cases i <;> nofun

/-- A command that succeeded outside ERROR: `err` and `cause` stand as they were, which is cleared. -/
theorem Done.quiet {i : Instr} {s t : State} (d : Done i s t) (q : Quiet s) (he : s.st ≠ .error)
    (hb : t.busy = false) : Quiet t := by
  have herr : t.err ≠ true := by rw [d.err, ne_eq, q.errIffError]; exact he
  have hcause : ¬ t.cause ≠ .none := by rw [d.cause, ← q.errorIffCause]; exact he
  have hst : t.st ≠ .error := by rw [d.st]; exact doneSt_ne_error i
  exact {
    errIffError := iff_of_false herr hst
    errorIffCause := iff_of_false hst hcause
    stable := by rw [d.st]; exact doneSt_stable i
    released := fun h => d.released (h.resolve_right hst)
    owned := fun h => d.owned (fun hi => by simp [hi] at h)
    idleDir := d.idleDir
    notBusy := hb }

theorem Faulted.cause_ne_none {lim : Nat} {t : State} {l : List Ask} (f : Faulted lim t l) : t.cause ≠ .none := by
  rcases f.cause with h | h | ⟨h, -⟩ <;> rw [h] <;> decide

/-- A command that faulted: ERROR, its cause recorded, the bus given up (R124). -/
theorem Faulted.quiet {lim : Nat} {t : State} {l : List Ask} (f : Faulted lim t l) (hb : t.busy = false) :
    Quiet t where
  errIffError := by simp [f.err, f.st]
  errorIffCause := iff_of_true f.st f.cause_ne_none
  stable := by rw [f.st]; rfl
  released := fun _ => ⟨f.scl, f.sda⟩
  owned := by simp [f.st]
  idleDir := by simp [f.st]
  notBusy := hb

/-- Every command keeps the invariant, by the four ways a command can end. -/
theorem Ran.quiet {i : Instr} {s t : State} {l : List Ask} (r : Ran i s t l) (q : Quiet s) : Quiet t := by
  have hb := r.notBusy
  rcases r.ends with ⟨ht, -, -⟩ | ⟨-, hst, herr, hcause, hdir, hscl, hsda, -, -⟩ | ⟨-, -, -, f⟩ | ⟨-, he, -, d⟩
  case inl =>
    rw [ht]
    exact ⟨q.errIffError, q.errorIffCause, q.stable, q.released, q.owned, q.idleDir, rfl⟩
  case inr.inl =>
    exact ⟨by simp [herr, hst], by simp [hst, hcause], by rw [hst]; rfl, fun _ => ⟨hscl, hsda⟩, by simp [hst],
      fun _ => hdir, hb⟩
  case inr.inr.inl => exact f.quiet hb
  case inr.inr.inr => exact d.quiet q he hb

theorem exec_quiet {i : Instr} {s t : State} (q : Quiet s) (h : exec i s = .next t) : Quiet t := by
  obtain ⟨u, l, hu, r⟩ := exec_cases i s q
  cases hu.symm.trans h
  exact r.quiet q

/-- A step runs a command, or leaves alone what the invariant speaks of, or resets. -/
theorem step_quiet {s t : State} (q : Quiet s) (h : step s = .next t) : Quiet t := by
  rcases step_cases h with ⟨rest, i, -, -, hx⟩ | ⟨rest, p, l, w, m, d, r, rfl, -, -⟩ | ⟨rest, level, rfl⟩
  · exact exec_quiet (q.withHostSide rest s.ptr s.len s.rsp s.mem s.draws s.reads) hx
  · exact q.withHostSide rest p l w m d r
  · exact (resetValues_resetRegs s rest level).quiet

/-- Settles O41: reset is a quiet state, and every step keeps it quiet. -/
theorem stepKeepsQuiet : Obligations.StepKeepsQuiet :=
  ⟨resetValues_reset.quiet, fun _ _ => step_quiet⟩

/-! ### The STATUS word (R22) -/

/-- R22's table: STATUS is its fields appended, so that each bit range is one of them. -/
theorem statusWord_fields (s : State) :
    (statusWord s).extractLsb' 0 3 = s.st.code ∧ (statusWord s).getLsbD 3 = s.err ∧
      (statusWord s).extractLsb' 4 1 = s.dir.bit ∧ (statusWord s).getLsbD 5 = s.busy ∧
      (statusWord s).extractLsb' 6 2 = s.cause.code ∧ (statusWord s).getLsbD 8 = s.sclDrv ∧
      (statusWord s).getLsbD 9 = s.sdaDrv ∧ (statusWord s).extractLsb' 10 22 = 0#22 := by
  unfold statusWord
  simp only [BitVec.extractLsb'_append_eq_ite, BitVec.getLsbD_append]
  simp

/-! ### A register access as a step (R32) -/

/-- A step does the host's next operation. -/
theorem step_cons {s : State} {op : HostOp} {rest : List HostOp} (h : s.host = op :: rest) :
    step s = hostStep op { s with host := rest } := by
  simp only [step, h]

theorem hostStep_read {off : Nat} {s : State} (ha : off % 4 = 0) (hr : s.rst = false) :
    hostStep (.read off .word) s = .next (note (readReg off s) s) := by
  simp [hostStep, accessOk, ha, hostRead, hr]

theorem hostStep_write {off : Nat} (v : Word) (s : State) (ha : off % 4 = 0) :
    hostStep (.write off .word v) s = hostWrite off v s := by
  simp [hostStep, accessOk, ha]

theorem readReg_offStatus (s : State) : readReg offStatus s = statusWord s := rfl

/-- Ignored in reset and while a command runs, as every write is; and otherwise no register takes it (R22). -/
theorem hostWrite_offStatus (v : Word) (s : State) : hostWrite offStatus v s = .next s := by
  unfold hostWrite
  split <;> rfl

/-- Settles O10: the layout of the word, then the read of 0x04, then the write to it. -/
theorem statusLayout : Obligations.StatusLayout := by
  intro s
  refine ⟨statusWord_fields s, fun rest hs hr => ?read, fun v rest hs => ?write⟩
  case read =>
    calc step s = .next (note (readReg offStatus { s with host := rest }) { s with host := rest }) :=
          (step_cons hs).trans (hostStep_read rfl hr)
      _ = .next { s with host := rest, reads := s.reads ++ [statusWord s] } := by
          rw [readReg_offStatus]; rfl
  case write =>
    calc step s = hostWrite offStatus v { s with host := rest } := (step_cons hs).trans (hostStep_write v _ rfl)
      _ = .next { s with host := rest } := hostWrite_offStatus v _

/-! ### The reset input (R28, R140) -/

/-- Driving the reset input to 1, or releasing it, forces the table of R28. -/
theorem setRst_eq_resetRegs (s : State) (level : Bool) (h : s.rst = true ∨ level = true) :
    setRst level s = { resetRegs s with rst := level } := by
  simp [setRst, h]

theorem resetValues_setRst (s : State) (level : Bool) (h : s.rst = true ∨ level = true) :
    ResetValues (setRst level s) ∧ (setRst level s).mem = s.mem := by
  rw [setRst_eq_resetRegs s level h]
  exact ⟨resetValues_resetRegs s s.host level, rfl⟩

/-- Settles O15: every row of R28's table at power-up, in reset, and at its release. -/
theorem resetState : Obligations.ResetState :=
  ⟨resetValues_reset, fun _ => rfl, fun s => resetValues_setRst s true (.inr rfl),
    fun s h => resetValues_setRst s false (.inl h)⟩

end Sys2Proof.Machine
end

section
/-! R50: the drivers change one at a time, and SDA's under a released clock only where a start or stop condition is
meant, along everything asked since reset. -/

namespace Sys2Proof.Safety

open Sys2Proof.Machine

/-- The start of the chain, at power-up and in reset: nothing asked yet, the bus released. -/
theorem orderly_of_unasked {s : State} (ha : s.asked = []) (hd : drivers s = ⟨true, true⟩) : Orderly s where
  changes := by rw [ha]; trivial
  last := by rw [ha, hd]; rfl

/-- The chain up to `s` ends at the drivers of `s`, where the trail to `t` begins: the two join. -/
theorem Orderly.trail {s t : State} {l : List Ask} (o : Orderly s) (r : Trail s t l) : Orderly t where
  changes := by
    rw [r.emits.asked, driversOrderly_append, o.last]
    exact ⟨o.changes, r.orderly⟩
  last := by rw [r.emits.asked, lastDrivers_append, o.last, r.last]

/-- R50 speaks of the questions asked and of the drivers, and of nothing else. -/
theorem Orderly.of_eq {s t : State} (o : Orderly s) (ha : t.asked = s.asked) (hd : drivers t = drivers s) :
    Orderly t where
  changes := by rw [ha]; exact o.changes
  last := by rw [ha, hd]; exact o.last

end Sys2Proof.Safety

namespace Sys2Proof.Machine

open Sys2Proof.Safety

theorem exec_orderly {i : Instr} {s t : State} (q : Quiet s) (o : Orderly s) (h : exec i s = .next t) :
    Orderly t := by
  obtain ⟨u, l, hu, r⟩ := exec_cases i s q
  cases hu.symm.trans h
  exact o.trail r.trail

/-- A step runs a command, or asks nothing and leaves the drivers alone, or resets, which begins the chain anew. -/
theorem step_orderly {s t : State} (q : Quiet s) (o : Orderly s) (h : step s = .next t) : Orderly t := by
  rcases step_cases h with ⟨rest, i, -, -, hx⟩ | ⟨rest, p, l, w, m, d, r, rfl, -, -⟩ | ⟨rest, level, rfl⟩
  · exact exec_orderly (q.withHostSide rest s.ptr s.len s.rsp s.mem s.draws s.reads) (o.of_eq rfl rfl) hx
  · exact o.of_eq rfl rfl
  · exact orderly_of_unasked rfl rfl

/-- Settles O44: the chain begins at reset, and every step from a state between commands extends it or begins it anew. -/
theorem stepKeepsDriversOrderly : Obligations.StepKeepsDriversOrderly :=
  ⟨orderly_of_unasked rfl rfl, fun _ _ => step_orderly⟩

end Sys2Proof.Machine
end

section
/-! Which command words the decoder accepts (R63, R65), and what a write of any other word to CMD does (R66). -/

namespace Sys2Proof

/-! ### The decoder accepts a word exactly if its fields pass the checks (R63, R66) -/

/-- Every test of an operand has this form. -/
theorem isOk_ite (c : Prop) [Decidable c] (i : Instr) (e : Reject) :
    (if c then .ok i else .error e : Except Reject Instr).isOk = decide c := by
  split
  case isTrue h => exact (decide_eq_true h).symm
  case isFalse h => exact (decide_eq_false h).symm

theorem decodeNoOperand_isOk (i : Instr) (imm8 : Byte) :
    (decodeNoOperand i imm8).isOk = (imm8.toNat == 0) := by
  have key : imm8 = 0#8 ↔ imm8.toNat = 0 := by bv_omega
  exact (isOk_ite _ _ _).trans (decide_eq_decide.2 key)

theorem decodeGet_isOk (imm8 : Byte) : (decodeGet imm8).isOk = decide (imm8.toNat ≤ 0x01) := by
  have key : imm8.extractLsb' 1 7 = 0#7 ↔ imm8.toNat ≤ 0x01 := by
    rw [← BitVec.toNat_inj, BitVec.extractLsb'_toNat, Nat.shiftRight_eq_div_pow, BitVec.toNat_ofNat]
    omega
  exact (isOk_ite _ _ _).trans (decide_eq_decide.2 key)

theorem decodeAddressed_isOk (mk : DevAddr → Instr) (imm8 : Byte) :
    (decodeAddressed mk imm8).isOk = decide (imm8.toNat ≤ 0x7F) := by
  have key : imm8.getLsbD 7 = false ↔ imm8.toNat ≤ 0x7F := by
    rw [← BitVec.msb_eq_getLsbD_last, BitVec.msb_eq_false_iff_two_mul_lt]
    omega
  exact (isOk_ite _ _ _).trans (decide_eq_decide.2 key)

/-- The decoder's tests, in the order R65 makes them, are the four checks of R66: the two zero fields first, then for
each operation code of R62 the legal operands of R63. -/
theorem decode_isOk (w : Word) : (decode w).isOk = (RawCmd.ofWord w).wellFormed := by
  unfold decode RawCmd.wellFormed
  generalize RawCmd.ofWord w = r
  by_cases h1 : r.z1 = 0#16
  case neg => simp [h1, Except.isOk, Except.toBool]
  by_cases h0 : r.z0 = 0#4
  case neg => simp [h1, h0, Except.isOk, Except.toBool]
  simp only [h1, h0, ne_eq, not_true_eq_false, if_false, beq_self_eq_true, Bool.true_and, RawCmd.opDefined,
    RawCmd.immLegal]
  split
  -- PUT takes every operand, a reserved code none: the decoder does not look at `imm8`.
  case h_4 | h_10 => simp [*, Except.isOk, Except.toBool]
  case h_5 => simp [*, decodeGet_isOk]
  case h_8 | h_9 => simp [*, decodeAddressed_isOk]
  all_goals simp [*, decodeNoOperand_isOk]

theorem decode_error_of_illFormed {w : Word} (h : (RawCmd.ofWord w).wellFormed = false) :
    ∃ e, decode w = .error e := by
  rw [← decode_isOk] at h
  cases hd : decode w with
  | ok i => rw [hd] at h; cases h
  | error e => exact ⟨e, rfl⟩

end Sys2Proof

namespace Sys2Proof.Machine

/-! ### A write to CMD as a step (R33) -/

/-- Reset released and no command running: a word written to CMD goes to the decoder. -/
theorem hostWrite_offCmd (w : Word) {s : State} (hr : s.rst = false) (hb : s.busy = false) :
    hostWrite offCmd w s = writeCmd w s := by
  simp [hostWrite, hr, hb]

/-- R66: `ill` is bit 9 of RSP, and every other bit of the answer is 0. -/
theorem refuseIllegal_eq (s : State) : refuseIllegal s = { s with rsp := 0x00000200#32 } :=
  congrArg (fun v => { s with rsp := v }) (by decide : rspWord false 0#8 true 0 = 0x00000200#32)

theorem writeCmd_of_error {w : Word} {e : Reject} (h : decode w = .error e) (s : State) :
    writeCmd w s = .next { s with rsp := 0x00000200#32 } := by
  simp only [writeCmd, h, refuseIllegal_eq]

theorem step_cmdw {s : State} {w : Word} {rest : List HostOp} (hs : s.host = cmdw w :: rest) (hr : s.rst = false)
    (hb : s.busy = false) : step s = writeCmd w { s with host := rest } :=
  calc step s = hostWrite offCmd w { s with host := rest } := (step_cons hs).trans (hostStep_write w _ rfl)
    _ = writeCmd w { s with host := rest } := hostWrite_offCmd w hr hb

/-- Settles O6: the word goes to the decoder, which accepts no word that fails a check. -/
theorem illegalWordRefused : Obligations.IllegalWordRefused := by
  intro s w rest hs hr hb hw
  obtain ⟨e, he⟩ := decode_error_of_illFormed hw
  exact (step_cmdw hs hr hb).trans (writeCmd_of_error he _)

end Sys2Proof.Machine
end

section
/-! What CHKERR answers: the fault flag in RSP, and the rest of the state as it was (R100). -/

namespace Sys2Proof.Machine

/-! ### CHKERR (R100) -/

/-- R21, R100: `ok` is bit 8 of RSP and the fault flag bit 0; `ill` and `count` are 0. -/
theorem rspWord_errByte (err : Bool) :
    rspWord true (errByte err) false 0 = if err then 0x00000101#32 else 0x00000100#32 := by
  cases err with
  | false => decide
  | true => decide

/-- `busy` is raised by the acceptance (R25) and lowered by the answer, and nothing runs between the two. -/
theorem exec_chkerr (s : State) :
    exec .chkerr s = .next { s with rsp := rspWord true (errByte s.err) false 0, busy := false } := rfl

/-- Settles O29: the answer to CHKERR is the one update of the state, and its RSP word depends on `err` alone. -/
theorem chkerrReports : Obligations.ChkerrReports := by
  refine ⟨by decide, fun s => ?_⟩
  rw [exec_chkerr, rspWord_errByte]

end Sys2Proof.Machine
end

section
/-! The refusal in ERROR (R125): each command's first test is for ERROR, so nothing runs between acceptance and answer. -/

namespace Sys2Proof.Machine

open Sys2Proof.Safety

/-! ### The commands without their `Respond`, in ERROR (R80, R112) -/

theorem doStart_of_error (lim : Nat) {s : State} (h : s.st = .error) : doStart lim s = (s, false) := if_pos h

theorem doStop_of_error (lim : Nat) {s : State} (h : s.st = .error) : doStop lim s = (s, false) := if_pos h

theorem doRstart_of_error (lim : Nat) {s : State} (h : s.st = .error) : doRstart lim s = (s, false) := if_pos h

theorem doPut_of_error (lim : Nat) (b : Byte) {s : State} (h : s.st = .error) : doPut lim b s = (s, false) := if_pos h

theorem doGet_of_error (lim : Nat) (nak : Bool) {s : State} (h : s.st = .error) : doGet lim nak s = (s, none) := if_pos h

theorem blockTransfer_of_error (lim : Nat) (b : Byte) (loop : State → LoopResult) {s : State} (h : s.st = .error) :
    blockTransfer lim b loop s = respond false 0#8 false Config.errIndicator s := if_pos h

/-! ### The commands in ERROR (R125) -/

/-- A bus command in ERROR is accepted and answered, with no state in between. -/
theorem exec_busCommand_of_error {i : Instr} {s : State} (h : s.st = .error) (hb : busCommand i = true) :
    exec i s = .next (respond false 0#8 false (failCount i) (accept s)) := by
  have ha : (accept s).st = .error := h
  cases i with
  | start => simp only [exec, execStart, doStart_of_error _ ha, respondOk, failCount]
  | stop => simp only [exec, execStop, doStop_of_error _ ha, respondOk, failCount]
  | rstart => simp only [exec, execRstart, doRstart_of_error _ ha, respondOk, failCount]
  | put b => simp only [exec, execPut, doPut_of_error _ _ ha, respondOk, failCount]
  | get nak => simp only [exec, execGet, doGet_of_error _ _ ha, respondByte, failCount]
  | writeb a => simp only [exec, execWriteb, writeBlock, blockTransfer_of_error _ _ _ ha, failCount]
  | readb a => simp only [exec, execReadb, readBlock, blockTransfer_of_error _ _ _ ha, failCount]
  | chkerr => cases hb
  | resume => cases hb

/-- `busy`, raised by the acceptance (R25), is overwritten by the answer. -/
theorem respond_accept (ok : Bool) (data : Byte) (ill : Bool) (n : Int) (s : State) :
    respond ok data ill n (accept s) = { s with rsp := rspWord ok data ill n, busy := false } := rfl

/-- R101: RESUME answers `ok` with `data` and `count` 0, and leaves by the return from ERROR (R129). -/
theorem exec_resume (s : State) :
    exec .resume s = .next (respond true 0#8 false 0 (leaveError Config.attemptLimit (accept s))) := rfl

theorem leaveError_st (lim : Nat) (s : State) : (leaveError lim s).st = .idle := rfl

theorem leaveError_err (lim : Nat) (s : State) : (leaveError lim s).err = false := rfl

/-- Settles O36: the bus commands are answered without running; CHKERR changes RSP and `busy` alone, so `st` stays;
RESUME returns from ERROR in every state. -/
theorem errorRefusesBusCommands : Obligations.ErrorRefusesBusCommands := by
  intro s he
  refine ⟨fun i hb => ?bus, ⟨_, exec_chkerr s, rspWord_errByte s.err, he⟩, ⟨_, exec_resume s, ?rsp, ?st, ?err⟩⟩
  case bus => rw [exec_busCommand_of_error he hb, respond_accept]
  case rsp => exact rspWord_errByte false
  case st => exact leaveError_st Config.attemptLimit (accept s)
  case err => exact leaveError_err Config.attemptLimit (accept s)

end Sys2Proof.Machine
end

section
/-! The command words (R61 to R66): one characterisation of the decoder, from which every statement about encoding
follows. -/

namespace Sys2Proof

/-! ### The fields of a word (R61) -/

theorem RawCmd.ofWord_toWord (r : RawCmd) : RawCmd.ofWord r.toWord = r := by
  obtain ⟨z1, op, z0, imm8⟩ := r
  simp only [RawCmd.ofWord, RawCmd.toWord, BitVec.extractLsb'_append_eq_ite]
  simp

theorem RawCmd.toWord_ofWord (w : Word) : (RawCmd.ofWord w).toWord = w := by
  apply BitVec.eq_of_getLsbD_eq
  intro i hi
  simp only [RawCmd.ofWord, RawCmd.toWord, BitVec.getLsbD_append, BitVec.getLsbD_extractLsb']
  grind

theorem ofWord_encode (i : Instr) : RawCmd.ofWord (encode i) = ⟨0#16, opcodeOf i, 0#4, imm8Of i⟩ :=
  RawCmd.ofWord_toWord _

/-- The fields determine the word. -/
theorem encode_eq_iff (i : Instr) (w : Word) :
    encode i = w ↔ RawCmd.ofWord w = ⟨0#16, opcodeOf i, 0#4, imm8Of i⟩ := by
  refine ⟨fun h => h ▸ ofWord_encode i, fun h => ?_⟩
  rw [← RawCmd.toWord_ofWord w, h]; rfl

/-! ### The decoder (R65) is the inverse of the encoder -/

theorem decodeNoOperand_eq_ok_iff (i j : Instr) (imm8 : Byte) :
    decodeNoOperand i imm8 = .ok j ↔ i = j ∧ imm8 = 0#8 := by
  unfold decodeNoOperand
  split <;> simp [*]

theorem decodeGet_eq_ok_iff (imm8 : Byte) (j : Instr) :
    decodeGet imm8 = .ok j ↔ ∃ nak, .get nak = j ∧ imm8 = imm8Of (.get nak) := by
  have key : ∀ imm8 : Byte, ∀ nak, imm8 = imm8Of (.get nak) ↔ imm8.extractLsb' 1 7 = 0#7 ∧ imm8.getLsbD 0 = nak := by
    decide +kernel
  unfold decodeGet
  split <;> simp [*]

theorem decodeAddressed_eq_ok_iff (mk : DevAddr → Instr) (imm8 : Byte) (j : Instr) :
    decodeAddressed mk imm8 = .ok j ↔ ∃ a, mk a = j ∧ imm8 = a.zeroExtend 8 := by
  have key (a : DevAddr) : imm8 = a.zeroExtend 8 ↔ imm8.getLsbD 7 = false ∧ imm8.extractLsb' 0 7 = a := by
    constructor
    · rintro rfl
      refine ⟨by simp, ?_⟩
      ext i hi
      simp [show i < 8 by omega, BitVec.getLsbD_eq_getElem hi]
    · rintro ⟨h, rfl⟩
      ext i hi
      rcases Nat.lt_or_ge i 7 with h7 | h7
      · simp [h7, BitVec.getLsbD_eq_getElem hi]
      · obtain rfl : i = 7 := by omega
        simpa using h
  unfold decodeAddressed
  simp only [key]
  split <;> simp_all

/-- The decoder accepts exactly the words whose fields are those of a command. -/
theorem decode_eq_ok_iff (w : Word) (i : Instr) :
    decode w = .ok i ↔ RawCmd.ofWord w = ⟨0#16, opcodeOf i, 0#4, imm8Of i⟩ := by
  unfold decode
  generalize RawCmd.ofWord w = r
  obtain ⟨z1, op, z0, imm8⟩ := r
  by_cases h1 : z1 = 0#16
  case neg => simp [h1]
  by_cases h0 : z0 = 0#4
  case neg => simp [h1, h0]
  subst h1 h0
  simp only [ne_eq, not_true_eq_false, if_false, RawCmd.mk.injEq, true_and, ← BitVec.toNat_inj (x := op)]
  generalize op.toNat = n
  split
  case h_10 => exact iff_of_false nofun (fun ⟨hn, _⟩ => by cases i <;> simp_all [opcodeOf])
  all_goals
    cases i <;>
      simp [decodeNoOperand_eq_ok_iff, decodeGet_eq_ok_iff, decodeAddressed_eq_ok_iff, opcodeOf, imm8Of]

/-- Settles O1: the word of a command has the fields of that command. -/
theorem decodeOfEncode : Obligations.DecodeOfEncode :=
  fun i => (decode_eq_ok_iff _ i).2 (ofWord_encode i)

/-- Settles O2: a word the decoder accepts has the fields of its command, and the fields determine the word. -/
theorem encodeOfDecode : Obligations.EncodeOfDecode :=
  fun w i h => (encode_eq_iff i w).2 ((decode_eq_ok_iff w i).1 h)

/-- Settles O4: `decode_isOk` is the statement, read as an existence. -/
theorem legalIffFieldsWellFormed : Obligations.LegalIffFieldsWellFormed := by
  intro w
  rw [← decode_isOk]
  cases decode w <;> simp [Except.isOk, Except.toBool]

/-! ### The nine sets of words given by match and mask (R65) -/

theorem RawCmd.toWord_inj (r r' : RawCmd) : r.toWord = r'.toWord ↔ r = r' :=
  ⟨fun h => by rw [← RawCmd.ofWord_toWord r, h, RawCmd.ofWord_toWord], fun h => h ▸ rfl⟩

/-- A row tests the four fields of the word one by one. -/
theorem covers_iff (row : EncRow) (w : Word) :
    row.covers w = true ↔
      (RawCmd.ofWord w).z1 &&& (RawCmd.ofWord row.mask).z1 = (RawCmd.ofWord row.pattern).z1 ∧
      (RawCmd.ofWord w).op &&& (RawCmd.ofWord row.mask).op = (RawCmd.ofWord row.pattern).op ∧
      (RawCmd.ofWord w).z0 &&& (RawCmd.ofWord row.mask).z0 = (RawCmd.ofWord row.pattern).z0 ∧
      (RawCmd.ofWord w).imm8 &&& (RawCmd.ofWord row.mask).imm8 = (RawCmd.ofWord row.pattern).imm8 := by
  have hand (r m : RawCmd) :
      r.toWord &&& m.toWord = (RawCmd.mk (r.z1 &&& m.z1) (r.op &&& m.op) (r.z0 &&& m.z0) (r.imm8 &&& m.imm8)).toWord := by
    have h : (r.z1 ++ r.op ++ r.z0 ++ r.imm8 : BitVec (16 + 4 + 4 + 8)) &&& (m.z1 ++ m.op ++ m.z0 ++ m.imm8) =
        (r.z1 &&& m.z1) ++ (r.op &&& m.op) ++ (r.z0 &&& m.z0) ++ (r.imm8 &&& m.imm8) := by
      simp only [BitVec.and_append]
    exact h
  have h := hand (RawCmd.ofWord w) (RawCmd.ofWord row.mask)
  rw [RawCmd.toWord_ofWord, RawCmd.toWord_ofWord] at h
  rw [EncRow.covers, beq_iff_eq, h, ← RawCmd.toWord_ofWord row.pattern, RawCmd.toWord_inj, RawCmd.ofWord_toWord,
    ← RawCmd.mk.injEq]

/-- The table of R65 and the checks of R66 accept the same words. -/
theorem legalWord_eq_wellFormed (w : Word) : legalWord w = (RawCmd.ofWord w).wellFormed := by
  rw [Bool.eq_iff_iff]
  unfold legalWord
  simp only [encTable, List.any_cons, List.any_nil, Bool.or_eq_true, covers_iff]
  generalize RawCmd.ofWord w = r
  obtain ⟨z1, op, z0, imm8⟩ := r
  have hz1 : z1 &&& 65535#16 = z1 := BitVec.and_allOnes
  have hz0 : z0 &&& 15#4 = z0 := BitVec.and_allOnes
  have hop : op &&& 15#4 = op := BitVec.and_allOnes
  have himm : imm8 &&& 255#8 = imm8 := BitVec.and_allOnes
  have hnak : ∀ b : Byte, b &&& 254#8 = 0#8 ↔ b.toNat ≤ 0x01 := by decide +kernel
  have haddr : ∀ b : Byte, b &&& 128#8 = 0#8 ↔ b.toNat ≤ 0x7F := by decide +kernel
  by_cases h1 : z1 = 0#16
  case neg => simp [RawCmd.ofWord, RawCmd.wellFormed, hz1, h1]
  by_cases h0 : z0 = 0#4
  case neg => simp [RawCmd.ofWord, RawCmd.wellFormed, hz0, h0]
  simp only [RawCmd.wellFormed, RawCmd.opDefined, RawCmd.immLegal, h1, h0]
  simp [RawCmd.ofWord, hop, himm, hnak, haddr, ← BitVec.toNat_inj]
  generalize op.toNat = n
  split <;> simp_all

/-- The set of each row holds the words of the command it names, and no other command's. -/
theorem covers_encode (i : Instr) : ∀ row ∈ encTable, row.covers (encode i) = true ↔ row.mnemonic = i.mnemonic := by
  have hbit7 : ∀ a : DevAddr, a.setWidth 8 &&& 128#8 = 0#8 := by decide +kernel
  simp only [covers_iff, ofWord_encode]
  cases i with
  | put b => simp [encTable, RawCmd.ofWord, opcodeOf, imm8Of, Instr.mnemonic]
  | get nak => cases nak <;> decide
  | writeb a => simp [encTable, RawCmd.ofWord, opcodeOf, imm8Of, Instr.mnemonic, hbit7]
  | readb a => simp [encTable, RawCmd.ofWord, opcodeOf, imm8Of, Instr.mnemonic, hbit7]
  | _ => decide

/-- Settles O3: the sets accept what the checks of R66 accept, which is what the decoder accepts; and a word that
decodes is the word of its command. -/
theorem legalWordsAreTheNineSets : Obligations.LegalWordsAreTheNineSets := by
  refine fun w => ⟨?_, fun i h => ?_⟩
  · rw [legalWord_eq_wellFormed]
    exact (legalIffFieldsWellFormed w).symm
  · rw [← encodeOfDecode w i h]
    exact covers_encode i

/-- Settles O5: each word is decoded. -/
theorem wordsDecodeAsListed : Obligations.WordsDecodeAsListed := by
  unfold Obligations.WordsDecodeAsListed
  and_intros <;> rfl

end Sys2Proof
end

section
/-! The remaining invariants of the step: the canonical buffer (R35 to R37), the record of the wire trace (R43), the
counters of R24 and R46, and the hold in reset (R140). Each is three facts: what changes of the host's side keep it,
that reset establishes it, and that a command keeps it by the way it ended. -/

namespace Sys2Proof.Machine

open Sys2Proof.Safety

/-- `exec_cases`, of a command whose next state is given. -/
theorem exec_ran {i : Instr} {s t : State} (q : Quiet s) (h : exec i s = .next t) : ∃ l, Ran i s t l := by
  obtain ⟨u, l, hu, r⟩ := exec_cases i s q
  cases hu.symm.trans h
  exact ⟨l, r⟩

/-- To be kept by every step is to be kept by a change of the host's side, by reset, and by every command. -/
theorem step_keeps (P : State → Prop)
    (host : ∀ s rest p l w m d r, (Memory.wf s.mem = true → Memory.wf m = true) →
      (s.rst = true → p = s.ptr ∧ l = s.len ∧ w = s.rsp) → P s →
      P { s with host := rest, ptr := p, len := l, rsp := w, mem := m, draws := d, reads := r })
    (reset : ∀ s rest level, P s → P { resetRegs s with host := rest, rst := level })
    (command : ∀ i s t l, Quiet s → s.rst = false → Ran i s t l → P s → P t)
    (s t : State) (q : Quiet s) (hp : P s) (h : step s = .next t) : P t := by
  rcases step_cases h with ⟨rest, i, hr, -, hx⟩ | ⟨rest, p, l, w, m, d, r, rfl, hm, hrst⟩ | ⟨rest, level, rfl⟩
  · have q' := q.withHostSide rest s.ptr s.len s.rsp s.mem s.draws s.reads
    obtain ⟨l, r⟩ := exec_ran q' hx
    exact command i _ t l q' hr r (host s rest s.ptr s.len s.rsp s.mem s.draws s.reads id (fun _ => ⟨rfl, rfl, rfl⟩) hp)
  · exact host s rest p l w m d r hm hrst hp
  · exact reset s rest level hp

/-- Settles O42: the host's stores keep the canonical form, reset does not touch the buffer, and a command keeps it
by the law of what it may write. -/
theorem stepKeepsMemoryCanonical : Obligations.StepKeepsMemoryCanonical :=
  step_keeps (fun s => Memory.wf s.mem = true)
    (host := fun _ _ _ _ _ _ _ _ hm _ hp => hm hp)
    (reset := fun _ _ _ hp => hp)
    (command := fun _ _ _ _ _ _ r hp => r.memory.wf hp)

theorem Emits.traceRecorded {s t : State} {l : List Ask} (e : Emits s t l) (h : TraceRecorded s) : TraceRecorded t := by
  rw [TraceRecorded, e.wire, e.asked, h, List.map_append]

/-- Settles O43: a command extends the trace by the samples of its own questions. -/
theorem stepKeepsTraceRecorded : Obligations.StepKeepsTraceRecorded :=
  step_keeps TraceRecorded
    (host := fun _ _ _ _ _ _ _ _ _ _ hp => hp)
    (reset := fun _ _ _ _ => rfl)
    (command := fun _ _ _ _ _ _ r hp => r.trail.emits.traceRecorded hp)

/-- By the four ways a command can end: the counters stand, are cleared, are free (in ERROR), or are those of a
success. -/
theorem Ran.counters {i : Instr} {s t : State} {l : List Ask} (r : Ran i s t l) (c : Counters s) : Counters t := by
  rcases r.ends with ⟨ht, -, -⟩ | ⟨-, -, -, -, -, -, -, hbit, hatt⟩ | ⟨-, -, -, f⟩ | ⟨-, he, -, d⟩
  case inl => rw [ht]; exact ⟨c.bitcnt, c.att⟩
  case inr.inl => exact ⟨fun _ => hbit, by rw [hatt]; exact Nat.zero_le _⟩
  case inr.inr.inl => exact ⟨fun h => absurd f.st h, f.att⟩
  case inr.inr.inr => exact ⟨fun _ => d.bitcnt.elim id (fun h => h.trans (c.bitcnt he)), Nat.le_of_lt d.att⟩

/-- Settles O45: the host's side holds neither counter, reset clears both, and a command keeps the rule. -/
theorem stepKeepsCounters : Obligations.StepKeepsCounters :=
  step_keeps Counters
    (host := fun _ _ _ _ _ _ _ _ _ _ c => ⟨c.bitcnt, c.att⟩)
    (reset := fun _ _ _ _ => ⟨fun _ => rfl, Nat.zero_le _⟩)
    (command := fun _ _ _ _ _ _ r c => r.counters c)

/-- Settles O46: in reset no command runs, and the host's side can change no register of R28's table. -/
theorem stepKeepsHeldInReset : Obligations.StepKeepsHeldInReset :=
  step_keeps HeldInReset
    (host := fun s rest p l w m d r _ hrst hp hr => by
      obtain ⟨rfl, rfl, rfl⟩ := hrst hr
      have h := hp hr
      rw [h]; rfl)
    (reset := fun _ _ _ _ _ => rfl)
    (command := fun i s t l _ hr r _ ht => by rw [r.host.rst, hr] at ht; cases ht)

/-- Settles O40: power-up has the reset values, nothing asked, and an empty buffer. -/
theorem invariantsAtReset : Obligations.InvariantsAtReset :=
  ⟨resetValues_reset.quiet, ⟨fun _ => rfl, Nat.zero_le _⟩, rfl, orderly_of_unasked rfl rfl, fun _ => rfl, reset_mem_wf⟩

end Sys2Proof.Machine
end

section
/-! The response word (R21), and the rules over all commands that follow from `exec_cases`, which says everything one
command can do. -/

namespace Sys2Proof.Safety

open Sys2Proof.Machine

/-- R27: outside ERROR no cause is recorded. -/
theorem Quiet.cause_eq_none {s : State} (q : Quiet s) (h : s.st ≠ .error) : s.cause = .none :=
  Decidable.not_not.1 (fun hc => h (q.errorIffCause.2 hc))

end Sys2Proof.Safety

namespace Sys2Proof.Machine

open Sys2Proof.Safety

/-! ### The response word (R21) -/

@[simp] theorem rspData_rspWord (ok : Bool) (data : Byte) (ill : Bool) (n : Int) : rspData (rspWord ok data ill n) = data := by
  simp only [rspData, rspWord, BitVec.extractLsb'_append_eq_ite]
  simp

@[simp] theorem rspOk_rspWord (ok : Bool) (data : Byte) (ill : Bool) (n : Int) : rspOk (rspWord ok data ill n) = ok := by
  simp only [rspOk, rspWord, BitVec.getLsbD_append]
  simp

@[simp] theorem rspIll_rspWord (ok : Bool) (data : Byte) (ill : Bool) (n : Int) : rspIll (rspWord ok data ill n) = ill := by
  simp only [rspIll, rspWord, BitVec.getLsbD_append]
  simp

@[simp] theorem rspWord_reserved (ok : Bool) (data : Byte) (ill : Bool) (n : Int) :
    (rspWord ok data ill n).extractLsb' 10 6 = 0#6 := by
  simp only [rspWord, BitVec.extractLsb'_append_eq_ite]
  simp

theorem rspCount_rspWord (ok : Bool) (data : Byte) (ill : Bool) {n : Int} (h1 : -32768 ≤ n) (h2 : n < 32768) :
    rspCount (rspWord ok data ill n) = n := by
  have field : (rspWord ok data ill n).extractLsb' 16 16 = BitVec.ofInt 16 n := by
    simp only [rspWord, BitVec.extractLsb'_append_eq_ite]
    simp
  rw [rspCount, field, BitVec.toInt_ofInt]
  exact Int.bmod_eq_of_le (by omega) (by omega)

/-- Settles O11: `Respond` appends the fields, and each is read from its own bits. -/
theorem responseLayout : Obligations.ResponseLayout := by
  intro ok data ill n h1 h2
  exact ⟨by simp, by simp, by simp, by simp, rspCount_rspWord ok data ill h1 h2⟩

/-! ### Every command ends with a response (R33, R25) -/

theorem exec_responds (i : Instr) (s : State) : ∃ ok data n u, exec i s = .next (respond ok data false n u) := by
  have block (b : Byte) (loop : State → LoopResult) :
      ∃ ok data n u, blockTransfer Config.attemptLimit b loop (accept s) = respond ok data false n u := by
    unfold blockTransfer finish
    dsimp only
    repeat' split
    all_goals exact ⟨_, _, _, _, rfl⟩
  cases i with
  | start | stop | rstart | put | chkerr | resume => exact ⟨_, _, _, _, rfl⟩
  | get nak =>
    unfold exec execGet respondByte
    dsimp only
    split <;> exact ⟨_, _, _, _, rfl⟩
  | writeb a =>
    obtain ⟨ok, data, n, u, h⟩ := block (addrByte a .write) (fun s => writeLoop Config.attemptLimit s.len.toNat 0 s)
    exact ⟨ok, data, n, u, congrArg _ h⟩
  | readb a =>
    obtain ⟨ok, data, n, u, h⟩ := block (addrByte a .read) (fun s => readLoop Config.attemptLimit s.len.toNat 0 0#8 s)
    exact ⟨ok, data, n, u, congrArg _ h⟩

/-- Settles O39: the last act of every command is its response. -/
theorem everyCommandEnds : Obligations.EveryCommandEnds := by
  intro i s
  obtain ⟨ok, data, n, u, h⟩ := exec_responds i s
  exact ⟨_, h, rfl, rspIll_rspWord ok data false n, rspWord_reserved ok data false n⟩

/-! ### The return value of the block transfers (R113) -/

theorem BlockResponse.laws {s t : State} {ok : Bool} {data : Byte} {n : Int} (b : BlockResponse s t ok data n)
    (q : Quiet s) :
    (rspCount t.rsp = -1 ∨ (0 ≤ rspCount t.rsp ∧ rspCount t.rsp ≤ s.len.toNat)) ∧
    (rspOk t.rsp = true → s.st = .idle ∧ t.err = false ∧ t.st = .idle ∧ rspCount t.rsp = s.len.toNat) ∧
    (rspOk t.rsp = false ↔ t.st = .error) ∧
    (rspCount t.rsp = -1 → t.mem = s.mem) := by
  have hlen : s.len.toNat < 32768 := s.len.isLt
  have range := b.range
  simp only [Config.errIndicator] at range
  have hc : rspCount t.rsp = n := by
    rw [b.rsp]
    exact rspCount_rspWord ok data false (by omega) (by omega)
  have hok : rspOk t.rsp = ok := by rw [b.rsp, rspOk_rspWord]
  rw [hc, hok]
  refine ⟨range, fun h => ?_, ⟨b.failure, fun h => ?_⟩, b.untouched⟩
  · obtain ⟨hs, ht, he, hn⟩ := b.success h
    have herr : s.err ≠ true := by rw [ne_eq, q.errIffError, hs]; decide
    exact ⟨hs, by rw [he]; exact eq_false_of_ne_true herr, ht, hn⟩
  · cases ok with
    | false => rfl
    | true => rw [(b.success rfl).2.1] at h; cases h

/-- Settles O56: the laws hold of every response of a block transfer. -/
theorem blockReturnLaws : Obligations.BlockReturnLaws := by
  rintro i s q ⟨a, rfl | rfl⟩
  · obtain ⟨t, l, e, -, ok, data, n, b⟩ := execWriteb_ran a s
    exact ⟨t, e, b.laws q⟩
  · obtain ⟨t, l, e, -, ok, data, n, b⟩ := execReadb_ran a s
    exact ⟨t, e, b.laws q⟩

/-! ### What a command from a quiet state may do -/

/-- Settles O49: PTR, LEN and the host's fields are in `Ran`. -/
theorem commandsKeepHostSide : Obligations.CommandsKeepHostSide := by
  intro i s t q h
  obtain ⟨l, r⟩ := exec_ran q h
  exact r.host

/-- Settles O50: what a command leaves of the buffer is in `Ran`. -/
theorem onlyReadbWritesBuffer : Obligations.OnlyReadbWritesBuffer := by
  intro i s t q h
  obtain ⟨l, r⟩ := exec_ran q h
  exact r.memory.read

/-- Settles O57: the samples taken are those of the questions asked. -/
theorem samplesBounded : Obligations.SamplesBounded := by
  intro i s t q h
  obtain ⟨l, r⟩ := exec_ran q h
  rw [newSamples, r.trail.emits.wire, List.drop_left, List.length_map]
  exact r.length

/-- Settles O47, by the four ways a command can end. -/
theorem errSetByFaultsClearedByResume : Obligations.ErrSetByFaultsClearedByResume := by
  intro i s t q h
  obtain ⟨l, r⟩ := exec_ran q h
  rcases r.ends with ⟨ht, -, -⟩ | ⟨hi, -, herr, hcause, -⟩ | ⟨-, -, -, f⟩ | ⟨-, -, -, d⟩
  case inl => exact .inl (by rw [ht]; exact ⟨rfl, rfl⟩)
  case inr.inl => exact .inr (.inr ⟨hi, herr, hcause⟩)
  case inr.inr.inl =>
    refine .inr (.inl ⟨f.err, f.st, ?_⟩)
    rcases f.cause with h | h | ⟨h, -⟩ <;> simp [h]
  case inr.inr.inr => exact .inl ⟨d.err, d.cause⟩

/-- Settles O52: outside ERROR the cause was none, and only a fault sets it; a stall breaks E4. -/
theorem noStallUnderDutyE4 : Obligations.NoStallUnderDutyE4 := by
  intro i s t q hne h hduty
  obtain ⟨l, r⟩ := exec_ran q h
  have hnew : newAsks s t = l := by rw [newAsks, r.trail.emits.asked, List.drop_left]
  rw [hnew] at hduty
  rcases r.ends with ⟨ht, -, -⟩ | ⟨-, -, -, hcause, -⟩ | ⟨-, -, -, f⟩ | ⟨-, -, -, d⟩
  case inl => rw [ht]; simp [q.cause_eq_none hne]
  case inr.inl => simp [hcause]
  case inr.inr.inl =>
    rcases f.cause with h | h | ⟨-, hbreak⟩
    · simp [h]
    · simp [h]
    · exact absurd hduty hbreak
  case inr.inr.inr => rw [d.cause, q.cause_eq_none hne]; simp

/-! ### The state graph (R84) -/

theorem successors_of_busCommand {i : Instr} (hb : busCommand i = true) (st : St) (dir : Dir) :
    successors i st dir = if st = .error || !allowed i st dir then [.error] else destinations i := by
  cases i with
  | chkerr | resume => cases hb
  | _ => rfl

theorem doneSt_mem_destinations {i : Instr} (hb : busCommand i = true) : doneSt i ∈ destinations i := by
  cases i with
  | chkerr | resume => cases hb
  | _ => simp [doneSt, destinations]

/-- START takes no wait for the clock, and so cannot fault where it is allowed (R81). -/
theorem error_mem_destinations {i : Instr} (hb : busCommand i = true) (hi : i ≠ .start) : .error ∈ destinations i := by
  cases i with
  | chkerr | resume => cases hb
  | start => exact absurd rfl hi
  | _ => simp [destinations]

/-- Settles O48, by the four ways a command can end. -/
theorem stateGraph : Obligations.StateGraph := by
  intro i s t q h
  obtain ⟨l, r⟩ := exec_ran q h
  rcases r.ends with ⟨ht, -, rfl | ⟨he, hb⟩⟩ | ⟨rfl, hst, -⟩ | ⟨hb, he, hi, f⟩ | ⟨hb, he, ha, d⟩
  · rw [ht]; exact List.mem_singleton_self _
  · rw [ht, successors_of_busCommand hb, he]; exact List.mem_singleton_self _
  · rw [hst]; exact List.mem_singleton_self _
  · rw [successors_of_busCommand hb, f.st]
    split
    case isTrue => exact List.mem_singleton_self _
    case isFalse hc => exact error_mem_destinations hb (hi (by simp_all))
  · rw [successors_of_busCommand hb, d.st, if_neg (by simp [he, ha])]
    exact doneSt_mem_destinations hb

end Sys2Proof.Machine
end

section
/-! The fault entry (R124), RESUME (R101) and the protocol violation (R122) in every state, and what each primitive
command leaves of the engine's registers. -/

namespace Sys2Proof.Machine

open Sys2Proof.Safety

/-! ### The samples of `AbortRelease` (R49) -/

/-- The samples `AbortRelease` takes, by the drivers before it: none with the bus released, one to release SDA, and with
the clock held a bounded number, which form a stop condition where the clock rises in time. -/
structure ReleaseSamples (lim : Nat) (s : State) (new : List Levels) : Prop where
  released : s.sclDrv = true → s.sdaDrv = true → new = []
  pulled : s.sclDrv = true → s.sdaDrv = false → new.length = 1
  held : s.sclDrv = false → 3 ≤ new.length ∧ new.length ≤ 2 + lim
  rises : ∀ (c : Cell) (rest : List Levels), s.sclDrv = false → c.Good → c.lows.length < lim →
    s.env = .script (c.answers ++ rest) → new = stopSamples c

theorem abortRelease_samples (lim before : Nat) (s : State) (hl : 0 < lim) :
    ∃ new, (abortRelease lim before s).wire = s.wire ++ new ∧ ReleaseSamples lim s new := by
  obtain ⟨l, k, r, -, -, held, -, pulled, released⟩ := abortRelease_runs lim before s hl
  refine ⟨l.map sampleOf, r.emits.wire, ?_, ?_, ?_, ?_⟩
  · intro h1 h2
    rw [released h1 h2, List.map_nil]
  · intro h1 h2
    rw [List.length_map, pulled h1 h2]
  · intro h
    have := held h
    rw [List.length_map]
    omega
  · intro c rest hs hc hk he
    have hw : (abortRelease lim before s).wire = s.wire ++ stopSamples c := by
      rw [abortRelease_script lim before c rest s hs hc hk he, ← stopAsks_samples (.release before) c hc]
      rfl
    exact List.append_cancel_left (r.emits.wire.symm.trans hw)

/-- Settles O38: the entry writes `err`, `cause` and `st`, and runs `AbortRelease`. -/
theorem faultEntry : Obligations.FaultEntry := by
  intro c s
  obtain ⟨l, k, r, -, g, -⟩ := enterError_spec Config.attemptLimit c s attemptLimit_pos
  obtain ⟨new, hw, h⟩ := abortRelease_samples Config.attemptLimit (if c = .proto then 0 else s.att)
    { s with err := true, cause := c, st := .error } attemptLimit_pos
  exact ⟨_, new, rfl, r.kept.err, r.kept.cause, r.kept.st, congrArg LineRegs.scl g, congrArg LineRegs.sda g, r.kept.dir,
    congrArg LineRegs.shreg g, congrArg LineRegs.bitcnt g, r.kept.ptr, r.kept.len, r.kept.mem, r.kept.rsp, hw,
    h.released, h.pulled, h.held, h.rises⟩

/-- Settles O30: RESUME runs `AbortRelease` and then writes the rest of its result, whatever the state was. -/
theorem resumeClears : Obligations.ResumeClears := by
  intro s
  obtain ⟨l, k, r, -, g, -⟩ := abortRelease_runs Config.attemptLimit 0 (accept s) attemptLimit_pos
  obtain ⟨new, hw, h⟩ := abortRelease_samples Config.attemptLimit 0 (accept s) attemptLimit_pos
  exact ⟨_, new, exec_resume s, rfl, rfl, rfl, rfl, rfl, rfl, rfl, congrArg LineRegs.scl g, congrArg LineRegs.sda g, rfl,
    rspWord_errByte false, r.kept.ptr, r.kept.len, r.kept.mem, hw, h.released, h.pulled, h.held, h.rises⟩

/-! ### Protocol violations (R122) -/

theorem doStart_of_violation (lim : Nat) {s : State} (he : s.st ≠ .error) (h : s.st ≠ .idle) :
    doStart lim s = (enterError lim .proto s, false) := by
  rw [doStart, if_neg he, if_pos h]

theorem doStop_of_violation (lim : Nat) {s : State} (he : s.st ≠ .error) (h : s.st ≠ .data) :
    doStop lim s = (enterError lim .proto s, false) := by
  rw [doStop, if_neg he, if_pos h]

theorem doRstart_of_violation (lim : Nat) {s : State} (he : s.st ≠ .error) (h : s.st ≠ .data) :
    doRstart lim s = (enterError lim .proto s, false) := by
  rw [doRstart, if_neg he, if_pos h]

theorem doPut_of_violation (lim : Nat) (b : Byte) {s : State} (he : s.st ≠ .error)
    (h : ¬ (s.st = .start ∨ s.st = .rstart)) (h' : ¬ (s.st = .data ∧ s.dir = .write)) :
    doPut lim b s = (enterError lim .proto s, false) := by
  rw [doPut, if_neg he, if_neg h, if_neg h']

theorem doGet_of_violation (lim : Nat) (nak : Bool) {s : State} (he : s.st ≠ .error)
    (h : ¬ (s.st = .data ∧ s.dir = .read)) : doGet lim nak s = (enterError lim .proto s, none) := by
  rw [doGet, if_neg he, if_neg h]

theorem blockTransfer_of_violation (lim : Nat) (b : Byte) (loop : State → LoopResult) {s : State} (he : s.st ≠ .error)
    (h : s.st ≠ .idle) :
    blockTransfer lim b loop s = respond false 0#8 false Config.errIndicator (enterError lim .proto s) := by
  rw [blockTransfer, if_neg he, if_pos h]

/-- A bus command outside the table of R122 is the fault entry and the answer. -/
theorem exec_of_violation {i : Instr} {s : State} (hb : busCommand i = true) (he : s.st ≠ .error)
    (ha : allowed i s.st s.dir = false) :
    exec i s = .next (respond false 0#8 false (failCount i) (enterError Config.attemptLimit .proto (accept s))) := by
  have he' : (accept s).st ≠ .error := he
  cases i with
  | chkerr | resume => cases hb
  | start =>
    have h : (accept s).st ≠ .idle := by simpa [allowed] using ha
    simp only [exec, execStart, doStart_of_violation _ he' h, respondOk, failCount]
  | stop =>
    have h : (accept s).st ≠ .data := by simpa [allowed] using ha
    simp only [exec, execStop, doStop_of_violation _ he' h, respondOk, failCount]
  | rstart =>
    have h : (accept s).st ≠ .data := by simpa [allowed] using ha
    simp only [exec, execRstart, doRstart_of_violation _ he' h, respondOk, failCount]
  | put b =>
    obtain ⟨h, h'⟩ : ¬ ((accept s).st = .start ∨ (accept s).st = .rstart) ∧ ¬ ((accept s).st = .data ∧ (accept s).dir = .write) := by
      simpa [allowed] using ha
    simp only [exec, execPut, doPut_of_violation _ _ he' h h', respondOk, failCount]
  | get nak =>
    have h : ¬ ((accept s).st = .data ∧ (accept s).dir = .read) := by simpa [allowed] using ha
    simp only [exec, execGet, doGet_of_violation _ _ he' h, respondByte, failCount]
  | writeb a =>
    have h : (accept s).st ≠ .idle := by simpa [allowed] using ha
    simp only [exec, execWriteb, writeBlock, blockTransfer_of_violation _ _ _ he' h, failCount]
  | readb a =>
    have h : (accept s).st ≠ .idle := by simpa [allowed] using ha
    simp only [exec, execReadb, readBlock, blockTransfer_of_violation _ _ _ he' h, failCount]

/-- Settles O37: the command is the fault entry and the answer, and `faultEntry` says what the entry does. -/
theorem violationFaults : Obligations.ViolationFaults := by
  intro i s hb he ha
  obtain ⟨t, new, rfl, herr, hcause, hst, hscl, hsda, hdir, hshreg, hbitcnt, -, -, hmem, -, hw, released, -⟩ :=
    faultEntry .proto (accept s)
  refine ⟨_, exec_of_violation hb he ha, hst, herr, hcause, rfl, rfl, hscl, hsda, hdir, hshreg, hbitcnt, hmem, ?_⟩
  intro h1 h2
  rw [respond_wire, hw, released h1 h2, List.append_nil, accept_wire]

/-! ### What the primitive commands leave of the engine's registers (R12, R17, R24) -/

/-- `dir`, `shreg` and `bitcnt` stand as they were. -/
structure RegsKept (s t : State) : Prop where
  dir : t.dir = s.dir
  shreg : t.shreg = s.shreg
  bitcnt : t.bitcnt = s.bitcnt

theorem enterError_regsKept (c : Cause) (s : State) : RegsKept s (enterError Config.attemptLimit c s) := by
  obtain ⟨t, new, rfl, -, -, -, -, -, hdir, hshreg, hbitcnt, -⟩ := faultEntry c s
  exact ⟨hdir, hshreg, hbitcnt⟩

theorem doStart_regsKept (s : State) : RegsKept s (doStart Config.attemptLimit s).1 := by
  rcases doStart_cases Config.attemptLimit s with ⟨-, e⟩ | ⟨-, -, e⟩ | ⟨-, t, l, e, -, -, -, -, -, hdir, g⟩ <;> rw [e]
  · exact ⟨rfl, rfl, rfl⟩
  · exact enterError_regsKept .proto s
  · exact ⟨hdir, congrArg LineRegs.shreg g, congrArg LineRegs.bitcnt g⟩

/-- STOP closes the transaction, and so writes `dir` (R82). -/
theorem doStop_regs (s : State) : (doStop Config.attemptLimit s).1.shreg = s.shreg ∧
    (doStop Config.attemptLimit s).1.bitcnt = s.bitcnt := by
  rcases doStop_cases Config.attemptLimit s attemptLimit_pos with
    ⟨-, e⟩ | ⟨-, -, e⟩ | ⟨-, t, l, -, ⟨e, -, -, -, -, k, -, -, g⟩ | ⟨e, -, -, -, hshreg, hbitcnt, -⟩⟩ <;> rw [e]
  · exact ⟨rfl, rfl⟩
  · exact ⟨(enterError_regsKept .proto s).shreg, (enterError_regsKept .proto s).bitcnt⟩
  · exact ⟨congrArg LineRegs.shreg g, congrArg LineRegs.bitcnt g⟩
  · exact ⟨hshreg, hbitcnt⟩

theorem doRstart_regsKept (s : State) : RegsKept s (doRstart Config.attemptLimit s).1 := by
  rcases doRstart_cases Config.attemptLimit s attemptLimit_pos with
    ⟨-, e⟩ | ⟨-, -, e⟩ | ⟨-, t, l, -, ⟨e, -, -, -, hdir, k, -, -, g⟩ | ⟨e, -, -, hdir, hshreg, hbitcnt, -⟩⟩ <;> rw [e]
  · exact ⟨rfl, rfl, rfl⟩
  · exact enterError_regsKept .proto s
  · exact ⟨hdir, congrArg LineRegs.shreg g, congrArg LineRegs.bitcnt g⟩
  · exact ⟨hdir, hshreg, hbitcnt⟩

/-- Only the PUT of an address byte writes `dir` (R17). -/
theorem doPut_dir (b : Byte) (s : State) (hs : s.st = .start ∨ s.st = .data ∨ s.st = .rstart → s.sclDrv = false)
    (h1 : s.st ≠ .start) (h2 : s.st ≠ .rstart) : (doPut Config.attemptLimit b s).1.dir = s.dir := by
  rcases doPut_cases Config.attemptLimit b s attemptLimit_pos hs with
    ⟨-, e⟩ | ⟨-, -, -, e⟩ | ⟨h, t, l, -, -, hdir, ⟨e, -⟩ | ⟨e, -⟩⟩ <;> rw [e]
  · exact (enterError_regsKept .proto s).dir
  all_goals
    have hd : s.st = .data := h.elim (fun h => absurd h (not_or.2 ⟨h1, h2⟩)) And.left
    rw [hdir, if_pos hd]

theorem doGet_dir (nak : Bool) (s : State) (hs : s.st = .data → s.sclDrv = false) :
    (doGet Config.attemptLimit nak s).1.dir = s.dir := by
  rcases doGet_cases Config.attemptLimit nak s attemptLimit_pos hs with
    ⟨-, e⟩ | ⟨-, -, e⟩ | ⟨-, -, t, l, -, hdir, ⟨b, e, -⟩ | ⟨e, -⟩⟩ <;> rw [e]
  · exact (enterError_regsKept .proto s).dir
  · exact hdir
  · exact hdir

theorem respondByte_dir (r : State × Option Byte) : (respondByte r).dir = r.1.dir := by
  obtain ⟨s, b⟩ := r
  cases b <;> rfl

theorem respondByte_mem (r : State × Option Byte) : (respondByte r).mem = r.1.mem := by
  obtain ⟨s, b⟩ := r
  cases b <;> rfl

/-- Settles O51: one lemma a command for the registers; the trace by the trail of the command. -/
theorem registerFrames : Obligations.RegisterFrames := by
  intro i s t q h
  obtain ⟨l, r⟩ := exec_ran q h
  refine ⟨?dir, ?regs, ?chkerr, ⟨l.map sampleOf, r.trail.emits.wire⟩⟩
  case dir =>
    rintro (rfl | rfl | ⟨nak, rfl⟩ | rfl | ⟨⟨b, rfl⟩, h1, h2⟩) <;> cases h
    · exact (doStart_regsKept (accept s)).dir
    · exact (doRstart_regsKept (accept s)).dir
    · rw [respondByte_dir]
      exact doGet_dir nak (accept s) (fun h => q.owned (.inr (.inl h)))
    · rfl
    · exact doPut_dir b (accept s) q.owned h1 h2
  case regs =>
    rintro (rfl | rfl | rfl | rfl) <;> cases h
    · exact ⟨(doStart_regsKept (accept s)).shreg, (doStart_regsKept (accept s)).bitcnt⟩
    · exact doStop_regs (accept s)
    · exact ⟨(doRstart_regsKept (accept s)).shreg, (doRstart_regsKept (accept s)).bitcnt⟩
    · exact ⟨rfl, rfl⟩
  case chkerr =>
    rintro rfl
    cases h
    exact ⟨rfl, rfl, rfl, rfl, rfl⟩

end Sys2Proof.Machine
end

section
/-! The host's operations as steps (R31 to R35, R77, R78, R140): register accesses, the buffer port, the reset input and
the second half of RECOVER. -/

namespace Sys2Proof.Machine

open Sys2Proof.Safety

/-! ### A legal word written to CMD (R33, R65) -/

theorem writeCmd_of_ok {w : Word} {i : Instr} (h : decode w = .ok i) (s : State) : writeCmd w s = exec i s := by
  simp only [writeCmd, h]

/-- Settles O7: the word goes to the decoder, and what it decodes to is executed. -/
theorem stepRunsDecodedCommand : Obligations.StepRunsDecodedCommand :=
  fun _ _ _ _ hs hr hb hd => (step_cmdw hs hr hb).trans (writeCmd_of_ok hd _)

theorem decode_of_decodeTableWord {nbits w : Nat} {i : Instr} (h : decodeTableWord nbits w = some i) :
    decode (BitVec.ofNat 32 (w % 2 ^ nbits)) = .ok i := by
  unfold decodeTableWord at h
  split at h
  case h_1 j hj => rw [hj, Option.some.inj h]
  case h_2 => cases h

/-- Settles O8: the placed word is the host's next write to CMD. -/
theorem fetchWordRunsFirst : Obligations.FetchWordRunsFirst :=
  fun s nbits w i h => stepRunsDecodedCommand (s.withFetchWord nbits w) _ i s.host rfl rfl rfl (decode_of_decodeTableWord h)

/-! ### Register accesses (R31, R32, R34) -/

/-- Settles O9: a read is `note` of the register, and `readReg` tries the offsets in this order. -/
theorem hostReadsRegisters : Obligations.HostReadsRegisters :=
  fun _ _ _ hs ha hr => (step_cons hs).trans (hostStep_read ha hr)

/-- Settles O12: reset released, no command running and not CMD: what is left of `HostWrite` are PTR and LEN. -/
theorem hostWritesOperands : Obligations.HostWritesOperands := by
  intro s off v rest hs ha hoff hr hb
  have hcmd : off ≠ offCmd := hoff
  rw [step_cons hs, hostStep_write v _ ha]
  simp only [hostWrite, hr, hb, hcmd, Bool.or_self, Bool.false_eq_true, if_false, offPtr, offLen]
  split
  · rfl
  · split <;> rfl

/-- Settles O13: both accesses test the width and the offset first. -/
theorem hostAccessRefused : Obligations.HostAccessRefused := by
  intro s off width v rest h
  have hbad : accessOk off width = false := by
    rcases h with h | h <;> simp [accessOk, h]
  refine ⟨fun hs => ?_, fun hs => ?_⟩ <;> rw [step_cons hs] <;> simp [hostStep, hbad]

/-- A write is ignored in reset (R140) and dropped while a command runs (R34). -/
theorem hostWrite_ignored (off : Nat) (v : Word) {s : State} (h : s.rst = true ∨ s.busy = true) :
    hostWrite off v s = .next s := by
  rw [hostWrite, if_pos (by simpa using h)]

/-- Settles O17: the three offsets are multiples of 4, so the access is defined and then dropped. -/
theorem busyDropsWrites : Obligations.BusyDropsWrites := by
  intro s off v rest hb hoff hs
  have ha : off % 4 = 0 := by rcases hoff with rfl | rfl | rfl <;> rfl
  rw [step_cons hs, hostStep_write v _ ha]
  exact hostWrite_ignored off v (.inr hb)

/-! ### The buffer port (R35, R77) -/

theorem loadByte_of_read {a : Nat} {s : State} {v : Byte} (h : Memory.read s.mem a = some v) : loadByte a s = (s, v) := by
  simp only [loadByte, h]

/-- Settles O14: store, load and the stop above 0xFFFF. -/
theorem hostBufferPort : Obligations.HostBufferPort := by
  intro s a v rest
  refine ⟨fun ha hs => ?store, fun ha hs hv => ?load, fun ha hs => ?stop⟩
  case store =>
    refine ⟨{ s with host := rest, mem := Memory.write s.mem a v }, ?_, rfl, Memory.read_write_same _ _ _,
      fun b hb => Memory.read_write_other _ _ _ _ hb⟩
    rw [step_cons hs]
    exact if_pos ha
  case load =>
    have hl : loadByte a { s with host := rest } = ({ s with host := rest }, v) := loadByte_of_read hv
    rw [step_cons hs, hostStep, hostLoad, if_pos ha, hl]
    rfl
  case stop =>
    rcases hs with hs | hs <;> rw [step_cons hs] <;> exact if_neg (Nat.not_lt.2 ha)

/-! ### The reset input (R140) -/

theorem step_setRst {s : State} {level : Bool} {rest : List HostOp} (hs : s.host = .setRst level :: rest)
    (h : s.rst = true ∨ level = true) :
    ∃ t, step s = .next t ∧ t.rst = level ∧ ResetValues t ∧ t.mem = s.mem := by
  obtain ⟨hv, hm⟩ := resetValues_setRst { s with host := rest } level h
  exact ⟨_, step_cons hs, rfl, hv, hm⟩

/-- The registers at their reset values: STATUS shows the released bus, and everything else reads 0 (R28). -/
theorem readReg_resetRegs (off : Nat) (s : State) :
    readReg off (resetRegs s) = if off = 0x04 then 0x00000300#32 else 0#32 := by
  have hstatus : statusWord (resetRegs s) = 0x00000300#32 := (resetValues_resetRegs s s.host s.rst).status
  simp [readReg, hstatus, offStatus]

/-- Settles O16: the input driven to 1, a write and a read in reset, the release, and power-up. -/
theorem resetInputHolds : Obligations.ResetInputHolds := by
  refine ⟨fun s rest hs => step_setRst hs (.inr rfl), fun s off v rest hr ha hs => ?write,
    fun s off rest hr ha hs => ?read, fun s rest hr hs => step_setRst hs (.inl hr), resetValues_reset⟩
  case write =>
    rw [step_cons hs, hostStep_write v _ ha]
    exact hostWrite_ignored off v (.inl hr)
  case read =>
    rw [step_cons hs]
    simp [hostStep, accessOk, ha, hostRead, hr, readReg_resetRegs, note]

/-! ### The second half of RECOVER (R78) -/

/-- Settles O18: the host reads RSP, and either writes the word of RESUME, which decodes to RESUME, or does nothing. -/
theorem recoverResumesOnError : Obligations.RecoverResumesOnError := by
  intro s rest hs hr hb
  have hread : (rspData (hostRead offRsp { s with host := rest })).getLsbD 0 = s.rsp.getLsbD 0 := by
    simp [hostRead, hr, readReg, offRsp, offStatus, offPtr, offLen, rspData]
  have hwrite : hostWrite offCmd (encode .resume) { s with host := rest } = exec .resume { s with host := rest } :=
    (hostWrite_offCmd (s := { s with host := rest }) _ hr hb).trans (writeCmd_of_ok (decodeOfEncode .resume) _)
  rw [step_cons hs, hostStep, hread, hwrite]

end Sys2Proof.Machine
end

section
/-! The framing commands and the byte transfers (R81 to R83, R90 to R93) where the environment's answers are given: the
exact result and the samples taken. -/

namespace Sys2Proof.Machine

open Sys2Proof.Safety

/-! ### The two responses of a command that reports only success or failure (R80) -/

theorem rspWord_success : rspWord true 0#8 false 0 = 0x00000100#32 := by decide

theorem rspWord_failure : rspWord false 0#8 false 0 = 0#32 := by decide

/-! ### A command is its `do X` (R112) and its response -/

section
variable {s t : State} {ok : Bool}

theorem exec_start_of (h : doStart Config.attemptLimit (accept s) = (t, ok)) :
    exec .start s = .next (respond ok 0#8 false 0 t) := by
  simp only [exec, execStart, h, respondOk]

theorem exec_stop_of (h : doStop Config.attemptLimit (accept s) = (t, ok)) :
    exec .stop s = .next (respond ok 0#8 false 0 t) := by
  simp only [exec, execStop, h, respondOk]

theorem exec_rstart_of (h : doRstart Config.attemptLimit (accept s) = (t, ok)) :
    exec .rstart s = .next (respond ok 0#8 false 0 t) := by
  simp only [exec, execRstart, h, respondOk]

theorem exec_get_of_some {nak : Bool} {b : Byte} (h : doGet Config.attemptLimit nak (accept s) = (t, some b)) :
    exec (.get nak) s = .next (respond true b false 0 t) := by
  simp only [exec, execGet, h, respondByte]

theorem exec_get_of_none {nak : Bool} (h : doGet Config.attemptLimit nak (accept s) = (t, none)) :
    exec (.get nak) s = .next (respond false 0#8 false 0 t) := by
  simp only [exec, execGet, h, respondByte]

end

/-! ### START (R81) -/

/-- Settles O19: three samples, whatever the answers to the first two; the third has both wires pulled low. -/
theorem startOpensTransaction : Obligations.StartOpensTransaction := by
  intro s hs
  obtain ⟨e0, -, w0, k0, g0⟩ := emit_spec .idleBus false { accept s with att := 0 }
  generalize hu0 : (emit .idleBus false { accept s with att := 0 }).1 = u0 at w0 k0 g0
  obtain ⟨e1, -, w1, k1, g1⟩ := driveSda_spec .framing false u0
  generalize hu1 : (driveSda .framing false u0).1 = u1 at w1 k1 g1
  obtain ⟨e2, -, w2, k2, g2⟩ := pullScl_spec .framing u1
  generalize hu2 : (pullScl .framing u1).1 = u2 at w2 k2 g2
  have hdo : doStart Config.attemptLimit (accept s) = ({ u2 with st := .start }, true) := by
    rw [doStart, if_neg (by simp [hs]), if_neg (by simp [hs])]
    simp only [hu0, hu1, hu2]
  have g : lineRegs u2 = ⟨false, false, s.shreg, s.bitcnt, 0⟩ := by rw [g2, g1, g0]; rfl
  have k := (k0.trans k1).trans k2
  refine ⟨_, e0, e1, exec_start_of hdo, rfl, congrArg LineRegs.scl g, congrArg LineRegs.sda g, rspWord_success, rfl,
    congrArg LineRegs.att g, k.err, k.cause, k.dir, congrArg LineRegs.shreg g, congrArg LineRegs.bitcnt g, ?_⟩
  have hscl : u0.sclDrv = s.sclDrv := congrArg LineRegs.scl g0
  have hsda : u1.sdaDrv = false := congrArg LineRegs.sda g1
  rw [respond_wire]
  simp [w2.wire, w1.wire, w0.wire, sampleOf, wiredAnd, drivers, hscl, hsda]

/-! ### STOP and RSTART (R82, R83) -/

/-- Settles O20: the samples are those of the stop condition. -/
theorem stopClosesTransaction : Obligations.StopClosesTransaction := by
  intro s c rest hst hs hc hk he
  have hdo := doStop_script Config.attemptLimit c rest (accept s) hst hs hc hk he
  refine ⟨_, exec_stop_of hdo, rfl, rfl, rfl, rfl, rspWord_success, rfl, rfl, rfl, rfl, rfl,
    rfl, ?_, rfl⟩
  exact congrArg (s.wire ++ ·) (stopAsks_samples .framing c hc)

/-- Settles O21: the wait is given up, and the fault entry releases SDA. -/
theorem stopStalls : Obligations.StopStalls := by
  intro s e e' lows rest hst hs hlow hk he
  obtain ⟨l, hdo, hl⟩ :=
    doStop_script_stall Config.attemptLimit e e' lows rest (accept s) hst hs hlow attemptLimit_pos hk he
  exact ⟨_, exec_stop_of hdo, rfl, rfl, rfl, rspWord_failure, rfl, rfl, rfl, rfl, rfl,
    congrArg (s.wire ++ ·) hl⟩

/-- Settles O22: the wait ends in time, then SDA and SCL are pulled. -/
theorem rstartRepeatsStart : Obligations.RstartRepeatsStart := by
  intro s c e rest hst hs hc hk he
  obtain ⟨l, hdo, hl⟩ := doRstart_script Config.attemptLimit c e rest (accept s) hst hs hc hk he
  exact ⟨_, exec_rstart_of hdo, rfl, rfl, rfl, rspWord_success, rfl, rfl, rfl, rfl, rfl, rfl, rfl,
    rfl, congrArg (s.wire ++ ·) hl⟩

/-- Settles O23: the wait is given up with both drivers released, so the fault entry samples nothing. -/
theorem rstartStalls : Obligations.RstartStalls := by
  intro s e lows rest hst hs hlow hk he
  obtain ⟨l, hdo, hl⟩ :=
    doRstart_script_stall Config.attemptLimit e lows rest (accept s) hst hs hlow attemptLimit_pos hk he
  exact ⟨_, exec_rstart_of hdo, rfl, rfl, rfl, rspWord_failure, rfl, rfl, rfl, rfl, rfl,
    congrArg (s.wire ++ ·) hl⟩

/-! ### PUT (R90, R92) -/

/-- The state in which PUT begins its transfer: an address byte moves to ADDRESS and sets `dir`, a data byte changes
nothing. -/
def putBegun (b : Byte) (s : State) : State :=
  { s with st := if s.st = .data then .data else .address, dir := if s.st = .data then s.dir else dirOf b }

theorem doPut_eq_transfer (lim : Nat) (b : Byte) (s : State) (h : allowed (.put b) s.st s.dir = true) :
    doPut lim b s = transfer lim b (putBegun b s) := by
  rw [doPut_allowed lim b s h, putBegun]
  split
  case isTrue hd => rw [← hd]
  case isFalse => rfl

theorem exec_put_of {b : Byte} {s t : State} {ok : Bool} (ha : allowed (.put b) s.st s.dir = true)
    (h : transfer Config.attemptLimit b (putBegun b (accept s)) = (t, ok)) :
    exec (.put b) s = .next (respond ok 0#8 false 0 t) := by
  simp only [exec, execPut, doPut_eq_transfer _ b (accept s) ha, h, respondOk]

/-- Settles O24: the transfer ends in DATA. -/
theorem putAcknowledged : Obligations.PutAcknowledged := by
  intro s b f rest ha hs hf hack he
  obtain ⟨l, hdo, hl⟩ := transfer_script_ack Config.attemptLimit b f rest (putBegun b (accept s)) hs hf hack he
  exact ⟨_, exec_put_of ha hdo, rfl, rfl, rspWord_success, rfl, rfl, rfl, hs, rfl, rfl, rfl, rfl,
    rfl, congrArg (s.wire ++ ·) hl⟩

/-- Settles O25: the frame, and then the stop condition of the fault entry. -/
theorem putNotAcknowledged : Obligations.PutNotAcknowledged := by
  intro s b f c rest ha hs hf hack hc hk he
  obtain ⟨l, hdo, hl⟩ := transfer_script_nack Config.attemptLimit b f c rest (putBegun b (accept s)) hs hf hack hc hk he
  refine ⟨_, exec_put_of ha hdo, rfl, rfl, rfl, rfl, rspWord_failure, rfl, rfl, rfl, rfl, rfl,
    rfl, ?_⟩
  rw [List.append_assoc]
  exact congrArg (s.wire ++ ·) hl

/-- Settles O26: the transfer stalls in the cell after `cells`. -/
theorem putStalls : Obligations.PutStalls := by
  intro s b cells v e e' lows rest ha hs hc hv hlow hne hk he
  obtain ⟨l, bc, hdo, hl⟩ :=
    transfer_script_stall Config.attemptLimit b cells v e e' lows rest (putBegun b (accept s)) hs hc hv hlow hne hk he
  refine ⟨_, exec_put_of ha hdo, rfl, rfl, rfl, rfl, rspWord_failure, rfl, rfl, rfl, rfl, ?_⟩
  simp only [List.append_assoc, List.cons_append, List.nil_append]
  exact congrArg (s.wire ++ ·) hl

/-! ### GET (R91, R93) -/

/-- Settles O27: the frame, its byte in RSP. -/
theorem getReceives : Obligations.GetReceives := by
  intro s nak f rest hst hd hs hf he
  obtain ⟨l, hdo, hl⟩ := doGet_script Config.attemptLimit nak f rest (accept s) hst hd hs hf he
  exact ⟨_, exec_get_of_some hdo, hst, hd, rfl, rfl, rfl, rfl, hs, rfl, rfl, rfl, rfl, rfl,
    congrArg (s.wire ++ ·) hl⟩

/-- Settles O28: where SDA was released the fault entry takes no sample, and the answer `e'` is still to come. -/
theorem getStalls : Obligations.GetStalls := by
  intro s nak cells v e e' lows rest hst hd hs hc hv hlow hne hk he
  have he' : s.env = .script (answersOf cells ++ e :: (lows ++
      (if v then (if v then e' :: rest else rest) else e' :: (if v then e' :: rest else rest)))) := by
    rw [he]; cases v <;> rfl
  obtain ⟨l, a, bc, hdo, hl⟩ :=
    doGet_script_stall Config.attemptLimit nak cells v e e' lows _ (accept s) hst hd hs hc hv hlow hne hk he'
  refine ⟨_, exec_get_of_none hdo, rfl, rfl, rfl, hd, rspWord_failure, rfl, rfl, rfl, ?_⟩
  simp only [List.append_assoc, List.cons_append, List.nil_append]
  exact congrArg (s.wire ++ ·) hl

end Sys2Proof.Machine
end

section
/-! The block transfers (R110, R111) where the environment's answers are given: the exact result, the samples taken and
the bytes stored. Each begins as a transaction in which the address and the first bytes have passed, and then ends in
its own way. -/

namespace Sys2Proof.Machine

open Sys2Proof.Safety

/-! ### A block transfer is its data phase and its end -/

theorem exec_writeb (a : DevAddr) (s : State) : exec (.writeb a) s = .next (blockTransfer Config.attemptLimit
    (addrByte a .write) (fun s => writeLoop Config.attemptLimit s.len.toNat 0 s) (accept s)) := rfl

theorem exec_readb (a : DevAddr) (s : State) : exec (.readb a) s = .next (blockTransfer Config.attemptLimit
    (addrByte a .read) (fun s => readLoop Config.attemptLimit s.len.toNat 0 0#8 s) (accept s)) := rfl

/-- The end of a block transfer (R110, R111) whose data phase failed. -/
theorem finish_failed (lim : Nat) (s : State) (n : Nat) (last : Byte) :
    finish lim ⟨s, n, last, false⟩ = respond false 0#8 false n s := rfl

section
variable {s : State} {e0 e1 e2 : Levels} {addr : FrameCells} (a : DevAddr)

/-- WRITEB (R110) after the address byte and the bytes of `frames` were acknowledged, with `k` bytes left. -/
theorem exec_writeb_sent (frames : List FrameCells) (bs : List Byte) (k : Nat) (rest : List Levels)
    (hst : s.st = .idle) (hscl : s.sclDrv = true) (hsda : s.sdaDrv = true) (haddr : addr.Good Config.attemptLimit)
    (hack : addr.acked = true) (hlen : frames.length + k = s.len.toNat)
    (hf : ∀ f ∈ frames, f.Good Config.attemptLimit ∧ f.acked = true) (hbs : bs.length = frames.length)
    (hm : ∀ n (h : n < bs.length), Memory.read s.mem (bufAddr s n).toNat = some bs[n])
    (he : s.env = .script (e0 :: e1 :: e2 :: (addr.answers ++ (frames.flatMap FrameCells.answers ++ rest)))) :
    ∃ l sh bit att sda,
      l.map sampleOf = startSamples e0 e1 ++ addr.sent (addrByte a .write) ++
        (frames.zip bs).flatMap (fun p => p.1.sent p.2) ∧
      exec (.writeb a) s = .next (finish Config.attemptLimit (writeLoop Config.attemptLimit k frames.length
        { told l rest (accept s) with
          st := .data, dir := .write, sclDrv := false, shreg := sh, bitcnt := bit, att := att, sdaDrv := sda })) := by
  obtain ⟨l, hb, hl⟩ := blockTransfer_script_ack Config.attemptLimit (addrByte a .write)
    (fun s => writeLoop Config.attemptLimit s.len.toNat 0 s) e0 e1 e2 addr _ (accept s) hst hscl hsda haddr hack he
  obtain ⟨l', sh, bit, att, hl', sda, hloop⟩ := writeLoop_script Config.attemptLimit frames bs rest 0 k
    (opened (addrByte a .write) (polls addr.cells) l _ (accept s)) rfl (dirOf_addrByte a .write) rfl hbs
    hf (fun i hi => by rw [Nat.zero_add]; exact hm i hi) rfl
  refine ⟨l ++ l', sh, bit, att, sda, by rw [List.map_append, hl, hl'], ?_⟩
  rw [exec_writeb, hb]
  simp only [opened, told, accept_len, Nat.zero_add, ← hlen, dirOf_addrByte] at hloop ⊢
  rw [hloop]
  simp

/-- READB (R111) after the address byte was acknowledged and the bytes of `frames` received, with `k` bytes left; `m` is
the buffer then. -/
theorem exec_readb_received (frames : List FrameCells) (k : Nat) (rest : List Levels)
    (hst : s.st = .idle) (hscl : s.sclDrv = true) (hsda : s.sdaDrv = true) (haddr : addr.Good Config.attemptLimit)
    (hack : addr.acked = true) (hlen : frames.length + k = s.len.toNat) (hf : ∀ f ∈ frames, f.Good Config.attemptLimit)
    (he : s.env = .script (e0 :: e1 :: e2 :: (addr.answers ++ (frames.flatMap FrameCells.answers ++ rest)))) :
    ∃ l sh bit att sda m,
      l.map sampleOf = startSamples e0 e1 ++ addr.sent (addrByte a .read) ++
        (if k = 0 then receivedAll frames else frames.flatMap (fun f => f.received false)) ∧
      (∀ n (h : n < frames.length), Memory.read m (bufAddr s n).toNat = some (byteShown frames[n].data)) ∧
      (∀ x, (∀ n < frames.length, x ≠ (bufAddr s n).toNat) → Memory.read m x = Memory.read s.mem x) ∧
      exec (.readb a) s = .next (finish Config.attemptLimit (readLoop Config.attemptLimit k frames.length
        ((frames.getLast?.map (fun f => byteShown f.data)).getD 0#8)
        { told l rest (accept s) with
          st := .data, dir := .read, sclDrv := false, shreg := sh, bitcnt := bit, att := att, sdaDrv := sda,
          mem := m })) := by
  obtain ⟨l, hb, hl⟩ := blockTransfer_script_ack Config.attemptLimit (addrByte a .read)
    (fun s => readLoop Config.attemptLimit s.len.toNat 0 0#8 s) e0 e1 e2 addr _ (accept s) hst hscl hsda haddr hack he
  have hsize : frames.length + k < 65536 := by
    have := s.len.isLt
    omega
  obtain ⟨l', sh, bit, att, sda, m, hl', hstored, hother, hloop⟩ := readLoop_script Config.attemptLimit frames rest 0 k
    0#8 (opened (addrByte a .read) (polls addr.cells) l _ (accept s)) rfl (dirOf_addrByte a .read) rfl hf hsize rfl
  simp only [Nat.zero_add] at hstored hother
  refine ⟨l ++ l', sh, bit, att, sda, m, by rw [List.map_append, hl, hl'], hstored, hother, ?_⟩
  rw [exec_readb, hb]
  simp only [opened, told, accept_len, Nat.zero_add, ← hlen, dirOf_addrByte] at hloop ⊢
  rw [hloop]
  simp

end

/-! ### WRITEB (R110) -/

/-- Settles O31: all bytes pass, and the stop condition ends the transaction. -/
theorem writebSendsAll : Obligations.WritebSendsAll := by
  intro s a e0 e1 e2 addr frames stop bs rest hst hscl hsda haddr hack hlen hf hstop hk hbs hm he
  obtain ⟨l, sh, bit, att, sda, hl, hexec⟩ := exec_writeb_sent a frames bs 0 (stop.answers ++ rest) hst hscl hsda haddr
    hack hlen hf (hbs.trans hlen.symm) hm he
  rw [writeLoop, finish_script _ stop rest _ rfl rfl rfl hstop hk rfl] at hexec
  refine ⟨_, hexec, rfl, by rw [respond_rsp, hlen], rfl, rfl, rfl, rfl, rfl, rfl, rfl, rfl, ?_⟩
  simp only [respond_wire, told, accept_wire, hl, stopAsks_samples .framing stop hstop, List.append_assoc]

/-- A byte of WRITEB's loop (R110) that is not acknowledged ends it. -/
theorem writeLoop_nack (lim k n : Nat) (b : Byte) (f : FrameCells) (c : Cell) (rest : List Levels) (s : State)
    (hst : s.st = .data) (hd : s.dir = .write) (hs : s.sclDrv = false) (hb : Memory.read s.mem (bufAddr s n).toNat = some b)
    (hf : f.Good lim) (hack : f.acked = false) (hc : c.Good) (hk : c.lows.length < lim)
    (he : s.env = .script (f.answers ++ (c.answers ++ rest))) :
    ∃ l, l.map sampleOf = f.sent b ++ stopSamples c ∧ writeLoop lim (k + 1) n s =
      ⟨{ told l rest s with
          err := true, cause := .nack, st := .error, shreg := b, bitcnt := 0#4, sclDrv := true, sdaDrv := true,
          att := c.lows.length }, n, 0#8, false⟩ := by
  obtain ⟨l, ht, hl⟩ := transfer_script_nack lim b f c rest s hs hf hack hc hk he
  refine ⟨l, hl, ?_⟩
  rw [writeLoop, memRead_known _ _ _ hb]
  simp only
  rw [doPut_allowed _ _ _ (by simp [allowed, hst, hd]), if_pos hst, ht]

/-- Settles O32: the bytes before pass, and the next one ends the loop. -/
theorem writebShortCount : Obligations.WritebShortCount := by
  intro s a e0 e1 e2 addr frames bad stop bs rest hst hscl hsda haddr hack hlen hf hbad hnack hstop hk hbs hm he
  obtain ⟨bs, b, rfl⟩ : ∃ known b, bs = known ++ [b] :=
    ⟨_, _, (List.dropLast_concat_getLast (List.ne_nil_of_length_eq_add_one hbs)).symm⟩
  have hbs' : bs.length = frames.length := by simpa using hbs
  obtain ⟨k, hk'⟩ : ∃ k, frames.length + (k + 1) = s.len.toNat := ⟨s.len.toNat - frames.length - 1, by omega⟩
  have hm' : ∀ n (h : n < bs.length), Memory.read s.mem (bufAddr s n).toNat = some bs[n] := fun n h => by
    rw [hm n (by rw [List.length_append]; omega), List.getElem_append_left h]
  have hb : Memory.read s.mem (bufAddr s frames.length).toNat = some b := by
    rw [hm frames.length (by rw [hbs]; omega)]
    simp [← hbs']
  obtain ⟨l, sh, bit, att, sda, hl, hexec⟩ := exec_writeb_sent a frames bs (k + 1) _ hst hscl hsda haddr hack hk' hf hbs'
    hm' he
  obtain ⟨l', hl', hloop⟩ := writeLoop_nack Config.attemptLimit k frames.length b bad stop rest
    { told l (bad.answers ++ (stop.answers ++ rest)) (accept s) with
      st := .data, dir := .write, sclDrv := false, shreg := sh, bitcnt := bit, att := att, sdaDrv := sda }
    rfl rfl rfl hb hbad hnack hstop hk rfl
  rw [hloop, finish_failed] at hexec
  refine ⟨_, hexec, rfl, rfl, rfl, rfl, rfl, rfl, rfl, rfl, rfl, rfl, ?_⟩
  simp [told, hl, hl', List.zip_append hbs'.symm]

/-! ### The address byte not acknowledged (R110, R111) -/

/-- The negative indicator as R21's word. -/
theorem rspWord_errIndicator : rspWord false 0#8 false Config.errIndicator = 0xFFFF0000#32 := by decide

/-- Settles O33: the two commands differ in the address byte alone, since the data phase does not begin. -/
theorem blockAddressNotAcknowledged : Obligations.BlockAddressNotAcknowledged := by
  intro s a d e0 e1 e2 addr stop rest hst hscl hsda haddr hnack hstop hk he
  have block (loop : State → LoopResult) := blockTransfer_script_nack Config.attemptLimit (addrByte a d) loop e0 e1 e2 addr
    stop rest (accept s) hst hscl hsda haddr hnack hstop hk he
  cases d with
  | write =>
    obtain ⟨l, hb, hl⟩ := block (fun s => writeLoop Config.attemptLimit s.len.toNat 0 s)
    refine ⟨_, (exec_writeb a s).trans (congrArg _ hb), rfl, rfl, rfl, rspWord_errIndicator, rfl,
      dirOf_addrByte a .write, rfl, rfl, rfl, rfl, rfl, ?_⟩
    simp [told, hl]
  | read =>
    obtain ⟨l, hb, hl⟩ := block (fun s => readLoop Config.attemptLimit s.len.toNat 0 0#8 s)
    refine ⟨_, (exec_readb a s).trans (congrArg _ hb), rfl, rfl, rfl, rspWord_errIndicator, rfl,
      dirOf_addrByte a .read, rfl, rfl, rfl, rfl, rfl, ?_⟩
    simp [told, hl]

/-! ### READB (R111) -/

/-- Settles O34: all bytes are received, and the stop condition ends the transaction. -/
theorem readbReceivesAll : Obligations.ReadbReceivesAll := by
  intro s a e0 e1 e2 addr frames stop rest hst hscl hsda haddr hack hlen hf hstop hk he
  obtain ⟨l, sh, bit, att, sda, m, hl, hstored, hother, hexec⟩ := exec_readb_received a frames 0 (stop.answers ++ rest)
    hst hscl hsda haddr hack hlen hf he
  rw [readLoop, finish_script _ stop rest _ rfl rfl rfl hstop hk rfl] at hexec
  refine ⟨_, hexec, rfl, by rw [respond_rsp, hlen], rfl, rfl, rfl, rfl, rfl, rfl, rfl, hstored, fun x hx => ?_, ?_⟩
  · exact hother x (fun n hn => hx n (hlen ▸ hn))
  · simp only [respond_wire, told, accept_wire, hl, if_true, stopAsks_samples .framing stop hstop, List.append_assoc]

/-- A byte of READB's loop (R111) that stalls in its first cell ends it; SDA is released there, so the fault entry takes
no sample. -/
theorem readLoop_stall (lim k n : Nat) (last : Byte) (e : Levels) (lows rest : List Levels) (s : State)
    (hst : s.st = .data) (hd : s.dir = .read) (hs : s.sclDrv = false) (hlow : ∀ x ∈ lows, x.scl = false)
    (hl : 0 < lim) (hk : lows.length = lim) (he : s.env = .script (e :: (lows ++ rest))) :
    ∃ l a bit, readLoop lim (k + 1) n last s =
      ⟨{ told l rest s with
          err := true, cause := .stall, st := .error, shreg := a, bitcnt := bit, sclDrv := true, sdaDrv := true,
          att := 0 }, n, last, false⟩ := by
  obtain ⟨l, a, bit, hget, -⟩ := doGet_script_stall lim (k == 0) [] true e e lows rest s hst hd hs (by simp) (by simp) hlow
    (List.ne_nil_of_length_pos (hk ▸ hl)) (by simpa [polls] using hk) he
  exact ⟨l, a, bit, by rw [readLoop, hget]⟩

/-- Settles O35: the bytes before are received and stored, and the next one ends the loop. -/
theorem readbShortCount : Obligations.ReadbShortCount := by
  intro s a e0 e1 e2 e addr frames lows rest hst hscl hsda haddr hack hlen hf hlow hk he
  obtain ⟨k, hk'⟩ : ∃ k, frames.length + (k + 1) = s.len.toNat := ⟨s.len.toNat - frames.length - 1, by omega⟩
  obtain ⟨l, sh, bit, att, sda, m, -, hstored, hother, hexec⟩ := exec_readb_received a frames (k + 1) _ hst hscl hsda haddr
    hack hk' hf he
  obtain ⟨l', sh', bit', hloop⟩ := readLoop_stall Config.attemptLimit k frames.length
    ((frames.getLast?.map (fun f => byteShown f.data)).getD 0#8) e lows rest
    { told l (e :: (lows ++ rest)) (accept s) with
      st := .data, dir := .read, sclDrv := false, shreg := sh, bitcnt := bit, att := att, sdaDrv := sda, mem := m }
    rfl rfl rfl hlow attemptLimit_pos hk rfl
  rw [hloop, finish_failed] at hexec
  exact ⟨_, hexec, rfl, rfl, rfl, rfl, rfl, rfl, rfl, rfl, rfl, hstored, hother⟩

end Sys2Proof.Machine
end

section
/-! What an observer of the bus sees of a successful block transfer (R51, R52, R69). -/

namespace Sys2Proof.Machine

open Sys2Proof.Safety

/-- The frames of WRITEB's data bytes, all acknowledged. -/
theorem observe_sentAll (lim : Nat) (prev : Levels) (frames : List FrameCells) (bs : List Byte) (rest : List Levels)
    (h : prev.scl = false) (hlen : bs.length = frames.length)
    (hf : ∀ f ∈ frames, f.Good lim ∧ f.acked = true ∧ f.Undisturbed) :
    ∃ q : Levels, q.scl = false ∧
      frameFrom [] (observeFrom prev ((frames.zip bs).flatMap (fun p => p.1.sent p.2) ++ rest)) =
        bs.map (fun b => .byte b true) ++ frameFrom [] (observeFrom q rest) := by
  induction frames generalizing prev bs with
  | nil =>
    obtain rfl := List.eq_nil_of_length_eq_zero hlen
    exact ⟨prev, h, rfl⟩
  | cons f frames ih =>
    obtain ⟨b, bs, rfl⟩ := List.exists_cons_of_length_eq_add_one hlen
    obtain ⟨hgood, hack, hu⟩ := hf f List.mem_cons_self
    obtain ⟨q, hq, e⟩ := observe_sent lim prev f b ((frames.zip bs).flatMap (fun p => p.1.sent p.2) ++ rest) h hgood hu
    obtain ⟨r, hr, e'⟩ := ih q bs hq (Nat.succ.inj hlen) (fun f' h' => hf f' (List.mem_cons_of_mem f h'))
    refine ⟨r, hr, ?_⟩
    rw [List.zip_cons_cons, List.flatMap_cons, List.append_assoc, e, e', hack, List.map_cons, List.cons_append]

/-- The frames of READB's data bytes, the last of them not acknowledged. -/
theorem observe_receivedAll (lim : Nat) (prev : Levels) (frames : List FrameCells) (rest : List Levels)
    (h : prev.scl = false) (hf : ∀ f ∈ frames, f.Good lim ∧ f.ninth.high.sda = true) :
    ∃ q : Levels, q.scl = false ∧
      frameFrom [] (observeFrom prev (receivedAll frames ++ rest)) =
        readItems (frames.map (fun f => byteShown f.data)) ++ frameFrom [] (observeFrom q rest) := by
  induction frames generalizing prev with
  | nil => exact ⟨prev, h, rfl⟩
  | cons f frames ih =>
    obtain ⟨hgood, hu⟩ := hf f List.mem_cons_self
    cases frames with
    | nil => exact observe_received lim prev f true rest h hgood hu
    | cons g frames =>
      obtain ⟨q, hq, e⟩ := observe_received lim prev f false (receivedAll (g :: frames) ++ rest) h hgood hu
      obtain ⟨r, hr, e'⟩ := ih q hq (fun f' h' => hf f' (List.mem_cons_of_mem f h'))
      refine ⟨r, hr, ?_⟩
      rw [receivedAll, List.append_assoc, e, e']
      rfl

/-- The stop condition at the end of the samples: the rising edge before it begins a frame that never fills. -/
theorem frame_stop (prev : Levels) (c : Cell) (h : prev.scl = false) (hl : c.low = ⟨true, true⟩) :
    frameFrom [] (observeFrom prev (stopSamples c)) = [.p] := by
  have e := observeFrom_stop prev c [] h hl
  rw [List.append_nil] at e
  rw [e]
  rfl

/-- Settles O58: the samples of `writebSendsAll`, observed part by part. -/
theorem writebFramedTrace : Obligations.WritebFramedTrace := by
  intro s a e1 e2 addr frames stop bs rest hst hscl hsda he1 haddr hack hu hlen hf hstop hk hlow hbs hm he
  obtain ⟨t, hexec, -, -, -, -, -, -, -, -, -, -, hwire⟩ := writebSendsAll s a ⟨true, true⟩ e1 e2 addr frames stop bs rest
    hst hscl hsda haddr hack hlen (fun f h => ⟨(hf f h).1, (hf f h).2.1⟩) hstop hk hbs hm he
  refine ⟨t, hexec, ?_⟩
  obtain ⟨q, hq, eaddr⟩ := observe_sent _ ⟨false, false⟩ addr (addrByte a .write)
    ((frames.zip bs).flatMap (fun p => p.1.sent p.2) ++ stopSamples stop) rfl haddr hu
  obtain ⟨r, hr, edata⟩ := observe_sentAll _ q frames bs (stopSamples stop) hq (hbs.trans hlen.symm) hf
  simp only [newSamples, hwire, List.append_assoc, List.drop_left]
  rw [observe, observe_start e1 _ he1, frame, frameFrom, eaddr, edata, hack, frame_stop r stop hr hlow]

/-- Settles O59: the samples of `readbReceivesAll`, observed part by part. -/
theorem readbFramedTrace : Obligations.ReadbFramedTrace := by
  intro s a e1 e2 addr frames stop rest hst hscl hsda he1 haddr hack hu hlen hf hstop hk hlow he
  obtain ⟨t, hexec, -, -, -, -, -, -, -, -, -, -, -, hwire⟩ := readbReceivesAll s a ⟨true, true⟩ e1 e2 addr frames stop rest
    hst hscl hsda haddr hack hlen (fun f h => (hf f h).1) hstop hk he
  refine ⟨t, hexec, ?_⟩
  obtain ⟨q, hq, eaddr⟩ := observe_sent _ ⟨false, false⟩ addr (addrByte a .read)
    (receivedAll frames ++ stopSamples stop) rfl haddr hu
  obtain ⟨r, hr, edata⟩ := observe_receivedAll _ q frames (stopSamples stop) hq hf
  simp only [newSamples, hwire, List.append_assoc, List.drop_left]
  rw [observe, observe_start e1 _ he1, frame, frameFrom, eaddr, edata, hack, frame_stop r stop hr hlow]

end Sys2Proof.Machine
end

section
/-! WRITEB and READB against the ideal target of R54 at rest. -/

namespace Sys2Proof.Safety

open Sys2Proof.Machine

/-- R27: outside ERROR no fault is pending. -/
theorem Quiet.err_eq_false {s : State} (q : Quiet s) (h : s.st ≠ .error) : s.err = false :=
  eq_false_of_ne_true (fun he => h (q.errIffError.1 he))

end Sys2Proof.Safety

namespace Sys2Proof.Machine

open Sys2Proof.Safety

/-- What the target does once it has acknowledged its address in direction `d`: it sends from the head of its list, or
it receives. -/
def Target.Serves (d : Dir) (g t : Target) : Prop :=
  match d with
  | .write => t.mode = .receiving ∧ t.sda = true
  | .read => t.mode = .sending ∧ t.sda = t.cur.getLsbD 7 ∧ t.cur = g.tx.headD 0xFF#8 ∧ t.tx = g.tx.tail

/-- The start and the address byte of a block transfer (R110, R111) to the target: it acknowledges. -/
theorem blockTransfer_calm (lim : Nat) (d : Dir) (loop : State → LoopResult) (s : State) (g : Target) (hst : s.st = .idle)
    (hscl : s.sclDrv = true) (hsda : s.sdaDrv = true) (he : s.env = .ideal g) (r : TargetAtRest g) (hl : 0 < lim) :
    ∃ u t, blockTransfer lim (addrByte g.addr d) loop s = finish lim (loop u) ∧ u.st = .data ∧ u.dir = d ∧
      u.sclDrv = false ∧ u.err = s.err ∧ u.ptr = s.ptr ∧ u.len = s.len ∧ u.env = .ideal t ∧ t.Calm ∧ t.bits = 0 ∧
      Target.Serves d g t := by
  obtain ⟨w, as, g', hstart, c, hmode, hbits, hline, haddr, htx⟩ := doStart_plain lim s g hst hscl hsda he r
  obtain ⟨w', as', t, hbyte, c', hbits', -, hserves⟩ := txByte_calm lim (addrByte g.addr d)
    { putBegun (addrByte g.addr d)
        { s with st := .start, sclDrv := false, sdaDrv := false, att := 0, wire := w, asked := as, env := .ideal g' } with
      att := 0 }
    g' rfl c rfl hl hbits hline (.inr ⟨hmode, by rw [addrOf_addrByte, haddr]⟩)
  have hput := doPut_eq_transfer lim (addrByte g.addr d)
    { s with st := .start, sclDrv := false, sdaDrv := false, att := 0, wire := w, asked := as, env := .ideal g' } rfl
  rw [transfer, hbyte] at hput
  rw [blockTransfer, if_neg (by simp [hst]), if_neg (by simp [hst]), hstart]
  simp only [hput]
  refine ⟨_, t, rfl, rfl, dirOf_addrByte g.addr d, rfl, rfl, rfl, rfl, rfl, c', hbits', ?_⟩
  simp only [hmode, dirOf_addrByte, true_and, htx] at hserves
  cases d with
  | write => simpa [Target.Serves] using hserves
  | read =>
    obtain ⟨h1, h2, h3, h4⟩ := hserves
    exact ⟨h1, h4, h2, h3⟩

/-- The end of a block transfer (R110, R111) that transferred everything: the clock rises at once. -/
theorem finish_plain (lim n : Nat) (s : State) (last : Byte) (t : Target) (hst : s.st = .data) (he : s.env = .ideal t)
    (p : t.Plain) (hl : 0 < lim) :
    ∃ u, finish lim ⟨s, n, last, true⟩ = respond true last false n u ∧ u.st = .idle ∧ u.err = s.err ∧ u.mem = s.mem := by
  obtain ⟨u, hstop, h⟩ := doStop_plain lim s t hst he p hl
  exact ⟨u, by rw [finish, if_pos rfl, hstop], h⟩

theorem getD_headD_tail (l : List Byte) (b : Byte) (n : Nat) : (l.headD b :: l.tail).getD n b = l.getD n b := by
  cases l with
  | nil => cases n <;> simp
  | cons c l => rfl

/-- Settles O60: the target acknowledges its address, then every byte passes, then the clock rises for the stop. -/
theorem idealTargetTransfers : Obligations.IdealTargetTransfers := by
  intro s g q hst he r
  obtain ⟨hscl, hsda⟩ := q.released (.inl hst)
  have herr : s.err = false := q.err_eq_false (by rw [hst]; decide)
  have hlen : s.len.toNat < 32768 := s.len.isLt
  constructor
  · obtain ⟨u, t, hb, h1, h2, h3, h4, -, h6, h7, c, h8, hm, hd⟩ := blockTransfer_calm Config.attemptLimit .write
      (fun s => writeLoop Config.attemptLimit s.len.toNat 0 s) (accept s) g hst hscl hsda he r attemptLimit_pos
    obtain ⟨v, t', hloop, k1, k2, k3, k4⟩ := writeLoop_calm Config.attemptLimit u.len.toNat 0 u t h1 h2 h3 h7 c
      attemptLimit_pos h8 hm hd
    obtain ⟨x, hfin, x1, x2, -⟩ := finish_plain Config.attemptLimit (0 + u.len.toNat) v 0#8 t' k1 k3 k4 attemptLimit_pos
    simp only [hloop] at hb
    refine ⟨_, (exec_writeb g.addr s).trans (congrArg _ (hb.trans hfin)), x1, ?_, ?_⟩
    · exact x2.trans (k2.trans (h4.trans herr))
    · rw [respond_rsp, h6, Nat.zero_add, accept_len]
  · obtain ⟨u, t, hb, h1, h2, h3, h4, h5, h6, h7, c, h8, hm, hd, hcur, htx⟩ := blockTransfer_calm Config.attemptLimit .read
      (fun s => readLoop Config.attemptLimit s.len.toNat 0 0#8 s) (accept s) g hst hscl hsda he r attemptLimit_pos
    rw [accept_len] at h6
    obtain ⟨v, t', last, hloop, k1, k2, k3, k4, hstored, -⟩ := readLoop_calm Config.attemptLimit u.len.toNat 0 0#8 u t h1 h2
      h3 h7 c attemptLimit_pos h8 hm hd (by rw [h6]; omega)
    obtain ⟨x, hfin, x1, x2, x3⟩ := finish_plain Config.attemptLimit (0 + u.len.toNat) v last t' k1 k3 k4 attemptLimit_pos
    simp only [hloop] at hb
    refine ⟨_, (exec_readb g.addr s).trans (congrArg _ (hb.trans hfin)), x1, ?_, ?_, ?_, fun n hn => ?_⟩
    · exact x2.trans (k2.trans (h4.trans herr))
    · rw [respond_rsp, rspOk_rspWord]
    · rw [respond_rsp, h6, Nat.zero_add]
      exact rspCount_rspWord true last false (by omega) (by omega)
    · have h := hstored n (by rw [h6]; exact hn)
      rw [Nat.zero_add, bufAddr_congr h5, hcur, htx, getD_headD_tail] at h
      rw [respond_mem, x3]
      exact h

end Sys2Proof.Machine
end

section
/-! What no command reads (R16, R24, R30): two runs from states that agree but for a hidden part stay in agreement. Each
operation is shown to keep the agreement, in the order of the definitions. -/

namespace Sys2Proof.Machine

/-! ### The line primitives (R43 to R49) -/

/-- Another cause, buffer, byte being moved and bit position. -/
def paint (c : Cause) (m : Memory) (a : Byte) (b : BitVec 4) (s : State) : State :=
  { s with cause := c, mem := m, shreg := a, bitcnt := b }

/-- The operation neither reads nor writes what `paint` changes. -/
def Ignores {α : Type} (f : State → State × α) : Prop :=
  ∀ c m a b s, f (paint c m a b s) = (paint c m a b (f s).1, (f s).2)

theorem emit_ignores (slot : Slot) (poll : Bool) : Ignores (emit slot poll) := by
  rintro c m a b ⟨st, err, cause, dir, busy, scl, sda, ptr, len, rsp, shreg, bitcnt, att, mem, wire, rst, host, reads, env,
    draws, asked⟩
  match env with
  | .script [] => rfl
  | .script (_ :: _) => rfl
  | .ideal _ => rfl

theorem driveSda_ignores (slot : Slot) (d : Bool) : Ignores (driveSda slot d) :=
  fun c m a b s => emit_ignores slot false c m a b { s with sdaDrv := d }

theorem pullScl_ignores (slot : Slot) : Ignores (pullScl slot) :=
  fun c m a b s => emit_ignores slot false c m a b { s with sclDrv := false }

theorem pollScl_ignores (lim : Nat) (slot : Slot) (fuel : Nat) : Ignores (pollScl lim slot fuel) := by
  intro c m a b s
  induction fuel generalizing s with
  | zero => rfl
  | succ n ih =>
    rw [pollScl, pollScl, emit_ignores]
    obtain ⟨u, smp⟩ := emit slot true s
    by_cases h : smp.scl = true
    · simp only [h, if_true]
    by_cases hl : u.att + 1 = lim
    · simp [h, hl, paint]
    · have := ih { u with att := u.att + 1 }
      simp only [paint] at this ⊢
      simp only [h, hl, if_false, this]
      rfl

theorem releaseScl_ignores (lim : Nat) (slot : Slot) : Ignores (releaseScl lim slot) :=
  fun c m a b s => pollScl_ignores lim slot (lim - s.att) c m a b { s with sclDrv := true }

/-! ### Agreement of two runs -/

/-- The part of the state in which two runs may differ. -/
inductive Hidden where
  | cause | mem | regs

/-- The two states agree but for the hidden part. -/
structure Alike (k : Hidden) (s t : State) : Prop where
  rest : t = { s with cause := t.cause, mem := t.mem, shreg := t.shreg, bitcnt := t.bitcnt, att := t.att }
  cause : k ≠ .cause → t.cause = s.cause
  mem : k ≠ .mem → t.mem = s.mem
  regs : k ≠ .regs → t.shreg = s.shreg ∧ t.bitcnt = s.bitcnt ∧ t.att = s.att

/-- Inside a command `att` has been cleared and counts the same polls in both runs. -/
structure AlikeInside (k : Hidden) (s t : State) : Prop extends Alike k s t where
  att : t.att = s.att

/-- The two results agree but for the hidden part of their states. -/
def AlikeResult {α : Type} (k : Hidden) (r q : State × α) : Prop := Alike k r.1 q.1 ∧ q.2 = r.2

section
variable {k : Hidden} {s t : State}

theorem Alike.st (h : Alike k s t) : t.st = s.st := by rw [h.rest]
theorem Alike.dir (h : Alike k s t) : t.dir = s.dir := by rw [h.rest]
theorem Alike.err (h : Alike k s t) : t.err = s.err := by rw [h.rest]
theorem Alike.ptr (h : Alike k s t) : t.ptr = s.ptr := by rw [h.rest]
theorem Alike.len (h : Alike k s t) : t.len = s.len := by rw [h.rest]
theorem Alike.draws (h : Alike k s t) : t.draws = s.draws := by rw [h.rest]

/-- Every primitive command begins with this (R46, R112). -/
theorem Alike.clearAtt (h : Alike k s t) : AlikeInside k { s with att := 0 } { t with att := 0 } where
  rest := congrArg (fun u : State => { u with att := 0 }) h.rest
  cause := h.cause
  mem := h.mem
  regs := fun hk => ⟨(h.regs hk).1, (h.regs hk).2.1, rfl⟩
  att := rfl

theorem Alike.setSt (h : Alike k s t) (st : St) : Alike k { s with st := st } { t with st := st } where
  rest := congrArg (fun u : State => { u with st := st }) h.rest
  cause := h.cause
  mem := h.mem
  regs := h.regs

theorem Alike.setDir (h : Alike k s t) (d : Dir) : Alike k { s with dir := d } { t with dir := d } where
  rest := congrArg (fun u : State => { u with dir := d }) h.rest
  cause := h.cause
  mem := h.mem
  regs := h.regs

theorem Alike.accept (h : Alike k s t) : Alike k (accept s) (accept t) where
  rest := congrArg Machine.accept h.rest
  cause := h.cause
  mem := h.mem
  regs := h.regs

theorem Alike.respond (h : Alike k s t) (ok : Bool) (data : Byte) (ill : Bool) (n : Int) :
    Alike k (respond ok data ill n s) (respond ok data ill n t) where
  rest := congrArg (Machine.respond ok data ill n) h.rest
  cause := h.cause
  mem := h.mem
  regs := h.regs

/-- An operation that ignores the hidden part keeps the agreement. -/
theorem AlikeInside.step {α : Type} {f : State → State × α} (hf : Ignores f) (h : AlikeInside k s t) :
    AlikeInside k (f s).1 (f t).1 ∧ (f t).2 = (f s).2 := by
  have hs := hf s.cause s.mem s.shreg s.bitcnt s
  have ht : f t = _ := (congrArg f (show t = paint t.cause t.mem t.shreg t.bitcnt s by
    rw [paint, ← h.att]; exact h.rest)).trans (hf t.cause t.mem t.shreg t.bitcnt s)
  have hs' : (f s).1 = paint s.cause s.mem s.shreg s.bitcnt (f s).1 := congrArg Prod.fst hs
  rw [ht]
  refine ⟨⟨⟨rfl, fun hk => ?_, fun hk => ?_, fun hk => ?_⟩, rfl⟩, rfl⟩ <;> rw [hs']
  · exact h.cause hk
  · exact h.mem hk
  · exact ⟨(h.regs hk).1, (h.regs hk).2.1, rfl⟩

/-- Results that agree are pairs with one value. -/
theorem exists_pair {α : Type} {R : State → State → Prop} {r q : State × α} (h : R r.1 q.1 ∧ q.2 = r.2) :
    ∃ u v w, r = (u, w) ∧ q = (v, w) ∧ R u v :=
  ⟨r.1, q.1, r.2, rfl, by rw [← h.2], h.1⟩

theorem AlikeInside.setSt (h : AlikeInside k s t) (st : St) : AlikeInside k { s with st := st } { t with st := st } :=
  ⟨h.toAlike.setSt st, h.att⟩

/-- An operation that neither reads nor writes the cause and the buffer, and writes `shreg` and `bitcnt` before it reads
them, makes them agree. -/
theorem Alike.frame {α : Type} {f : State → State × α} (hf : ∀ o s, f (overlay o s) = overlayed o (f s))
    (hregs : ∀ s a b, f { s with shreg := a, bitcnt := b } = f s) (h : Alike k s t) :
    AlikeInside k (f { s with att := 0 }).1 (f { t with att := 0 }).1 ∧
      (f { t with att := 0 }).2 = (f { s with att := 0 }).2 := by
  have e : { t with att := 0 } = { tint t.cause t.mem { s with att := 0 } with shreg := t.shreg, bitcnt := t.bitcnt } :=
    congrArg (fun u : State => { u with att := 0 }) h.rest
  have ht : f { t with att := 0 } = tinted t.cause t.mem (f { s with att := 0 }) := by
    rw [e, hregs, blind_tint f hf]
  have hs : (f { s with att := 0 }).1 = tint s.cause s.mem (f { s with att := 0 }).1 :=
    congrArg Prod.fst (blind_tint f hf s.cause s.mem { s with att := 0 })
  rw [ht]
  refine ⟨⟨⟨rfl, fun hk => ?_, fun hk => ?_, fun _ => ⟨rfl, rfl, rfl⟩⟩, rfl⟩, rfl⟩ <;> rw [hs]
  · exact h.cause hk
  · exact h.mem hk

/-! ### The fault entry and the primitive commands (R81 to R83, R92, R93, R124) -/

/-- Two runs that take the same branch are related if the branches are. -/
theorem ite_related {α : Type} {R : α → α → Prop} {p q : Prop} [Decidable p] [Decidable q] {a b a' b' : α} (hpq : q ↔ p)
    (h1 : p → R a a') (h2 : ¬ p → R b b') : R (if p then a else b) (if q then a' else b') := by
  by_cases hp : p
  · rw [if_pos hp, if_pos (hpq.2 hp)]
    exact h1 hp
  · rw [if_neg hp, if_neg (hp ∘ hpq.1)]
    exact h2 hp

theorem abortRelease_alike (lim before : Nat) (h : Alike k s t) :
    Alike k (abortRelease lim before s) (abortRelease lim before t) := by
  have hscl : t.sclDrv = s.sclDrv := by rw [h.rest]
  have hsda : t.sdaDrv = s.sdaDrv := by rw [h.rest]
  have h0 := h.clearAtt
  have h1 := (h0.step (driveSda_ignores (.release before) false)).1
  have h2 := (h1.step (releaseScl_ignores lim (.release before))).1
  refine ite_related (by rw [hscl]) (fun _ => ?_) (fun _ => ite_related (by rw [hsda]) (fun _ => ?_) (fun _ => ?_))
  · exact (h2.step (driveSda_ignores (.release before) true)).1.toAlike
  · exact (h0.step (driveSda_ignores (.release before) true)).1.toAlike
  · exact h0.toAlike

/-- The fault entry records `att` as it is at entry, but for a protocol violation. -/
theorem enterError_alike (lim : Nat) {c : Cause} (h : Alike k s t) (ha : c = .proto ∨ t.att = s.att) :
    Alike k (enterError lim c s) (enterError lim c t) := by
  have hbefore : (if c = .proto then 0 else t.att) = if c = .proto then 0 else s.att := by
    split
    · rfl
    · exact ha.resolve_left ‹_›
  have hset : Alike k { s with err := true, cause := c, st := .error } { t with err := true, cause := c, st := .error } :=
    ⟨congrArg (fun u : State => { u with err := true, cause := c, st := .error }) h.rest, fun _ => rfl, h.mem, h.regs⟩
  unfold enterError
  rw [hbefore]
  exact abortRelease_alike lim _ hset

theorem doStart_alike (lim : Nat) (h : Alike k s t) : AlikeResult k (doStart lim s) (doStart lim t) := by
  unfold doStart
  refine ite_related (by rw [h.st]) (fun _ => ⟨h, rfl⟩) (fun _ => ite_related (by rw [h.st])
    (fun _ => ⟨enterError_alike lim h (.inl rfl), rfl⟩) (fun _ => ?_))
  have h1 := (h.clearAtt.step (emit_ignores .idleBus false)).1
  have h2 := (h1.step (driveSda_ignores .framing false)).1
  have h3 := (h2.step (pullScl_ignores .framing)).1
  exact ⟨h3.toAlike.setSt .start, rfl⟩

theorem doStop_alike (lim : Nat) (h : Alike k s t) : AlikeResult k (doStop lim s) (doStop lim t) := by
  unfold doStop
  refine ite_related (by rw [h.st]) (fun _ => ⟨h, rfl⟩) (fun _ => ite_related (by rw [h.st])
    (fun _ => ⟨enterError_alike lim h (.inl rfl), rfl⟩) (fun _ => ?_))
  have h1 := ((h.clearAtt.setSt .stop).step (driveSda_ignores .framing false)).1
  obtain ⟨u, v, w, hr, hq, h2⟩ := exists_pair (R := AlikeInside k) (h1.step (releaseScl_ignores lim .framing))
  dsimp only
  rw [hr, hq]
  cases w with
  | stall => exact ⟨enterError_alike lim h2.toAlike (.inr h2.att), rfl⟩
  | ok _ => exact ⟨((h2.step (driveSda_ignores .framing true)).1.toAlike.setSt .idle).setDir .write, rfl⟩

theorem doRstart_alike (lim : Nat) (h : Alike k s t) : AlikeResult k (doRstart lim s) (doRstart lim t) := by
  unfold doRstart
  refine ite_related (by rw [h.st]) (fun _ => ⟨h, rfl⟩) (fun _ => ite_related (by rw [h.st])
    (fun _ => ⟨enterError_alike lim h (.inl rfl), rfl⟩) (fun _ => ?_))
  have h1 := (h.clearAtt.step (driveSda_ignores .framing true)).1
  obtain ⟨u, v, w, hr, hq, h2⟩ := exists_pair (R := AlikeInside k) (h1.step (releaseScl_ignores lim .framing))
  dsimp only
  rw [hr, hq]
  cases w with
  | stall => exact ⟨enterError_alike lim h2.toAlike (.inr h2.att), rfl⟩
  | ok _ =>
    have h3 := (h2.step (driveSda_ignores .framing false)).1
    exact ⟨(h3.step (pullScl_ignores .framing)).1.toAlike.setSt .rstart, rfl⟩

theorem transfer_alike (lim : Nat) (b : Byte) (h : Alike k s t) : AlikeResult k (transfer lim b s) (transfer lim b t) := by
  obtain ⟨u, v, w, hr, hq, h1⟩ := exists_pair (R := AlikeInside k) (h.frame (txByte_blind lim b) (fun _ _ _ => rfl))
  unfold transfer
  rw [hr, hq]
  cases w with
  | stall => exact ⟨enterError_alike lim h1.toAlike (.inr h1.att), rfl⟩
  | nack => exact ⟨enterError_alike lim h1.toAlike (.inr h1.att), rfl⟩
  | ack => exact ⟨h1.toAlike.setSt .data, rfl⟩

theorem doPut_alike (lim : Nat) (b : Byte) (h : Alike k s t) : AlikeResult k (doPut lim b s) (doPut lim b t) := by
  unfold doPut
  refine ite_related (by rw [h.st]) (fun _ => ⟨h, rfl⟩) (fun _ => ite_related (by rw [h.st]) (fun _ => ?_)
    (fun _ => ite_related (by rw [h.st, h.dir]) (fun _ => ?_) (fun _ => ⟨enterError_alike lim h (.inl rfl), rfl⟩)))
  · exact transfer_alike lim b ((h.setSt .address).setDir (dirOf b))
  · exact transfer_alike lim b h

theorem doGet_alike (lim : Nat) (nak : Bool) (h : Alike k s t) : AlikeResult k (doGet lim nak s) (doGet lim nak t) := by
  unfold doGet
  refine ite_related (by rw [h.st]) (fun _ => ⟨h, rfl⟩) (fun _ => ite_related (by rw [h.st, h.dir]) (fun _ => ?_)
    (fun _ => ⟨enterError_alike lim h (.inl rfl), rfl⟩))
  obtain ⟨u, v, w, hr, hq, h1⟩ := exists_pair (R := AlikeInside k) (h.frame (rxByte_blind lim nak) (fun _ _ _ => rfl))
  rw [hr, hq]
  cases w with
  | none => exact ⟨enterError_alike lim h1.toAlike (.inr h1.att), rfl⟩
  | some _ => exact ⟨h1.toAlike, rfl⟩

/-! ### RESUME and the block transfers (R101, R110, R111) -/

theorem leaveError_alike (lim : Nat) (h : Alike k s t) : Alike k (leaveError lim s) (leaveError lim t) := by
  have h1 := abortRelease_alike lim 0 h
  exact ⟨congrArg (fun u : State => { u with
    err := false, cause := .none, dir := .write, shreg := 0#8, bitcnt := 0#4, att := 0, st := .idle }) h1.rest,
    fun _ => rfl, h1.mem, fun _ => ⟨rfl, rfl, rfl⟩⟩

theorem respondOk_alike {r q : State × Bool} (h : AlikeResult k r q) : Alike k (respondOk r) (respondOk q) := by
  obtain ⟨h1, hw⟩ := h
  rw [respondOk, respondOk, hw]
  exact h1.respond r.2 0#8 false 0

theorem respondByte_alike {r q : State × Option Byte} (h : AlikeResult k r q) : Alike k (respondByte r) (respondByte q) := by
  obtain ⟨u, v, w, rfl, rfl, h1⟩ := exists_pair (R := Alike k) h
  cases w with
  | none => exact h1.respond false 0#8 false 0
  | some b => exact h1.respond true b false 0

/-- The results of the two loops agree but for the hidden part of their states. -/
def AlikeLoop (k : Hidden) (r q : LoopResult) : Prop :=
  Alike k r.s q.s ∧ q.n = r.n ∧ q.last = r.last ∧ q.done = r.done

/-- Where the buffer is not hidden the same byte is read, and where it holds none the same free value is drawn. -/
theorem memRead_alike (hk : k ≠ .mem) (a : BufAddr) (h : Alike k s t) : AlikeResult k (memRead a s) (memRead a t) := by
  unfold memRead
  rcases loadByte_cases a.toNat s with ⟨b, hb, e⟩ | ⟨hb, e⟩ <;> rw [← h.mem hk] at hb
  · rw [e, loadByte_of_read hb]
    exact ⟨h, rfl⟩
  · have e' : loadByte a.toNat t = ({ t with draws := s.draws + 1 }, Config.freeByte s.draws) := by
      rw [loadByte, hb, h.draws]
    rw [e, e']
    exact ⟨⟨congrArg (fun u : State => { u with draws := s.draws + 1 }) h.rest, h.cause, h.mem, h.regs⟩, rfl⟩

theorem memWrite_alike (hk : k ≠ .mem) (a : BufAddr) (v : Byte) (h : Alike k s t) :
    Alike k (memWrite a v s) (memWrite a v t) := by
  have hm := h.mem hk
  refine ⟨?_, h.cause, fun _ => by rw [memWrite_mem, memWrite_mem, hm], h.regs⟩
  exact congrArg (fun u : State => { u with mem := Memory.write t.mem a.toNat v }) h.rest

end

theorem writeLoop_alike {k : Hidden} (hk : k ≠ .mem) (lim j n : Nat) {s t : State} (h : Alike k s t) :
    AlikeLoop k (writeLoop lim j n s) (writeLoop lim j n t) := by
  induction j generalizing n s t with
  | zero => exact ⟨h, rfl, rfl, rfl⟩
  | succ j ih =>
    obtain ⟨u, v, b, hr, hq, h1⟩ := exists_pair (R := Alike k) (memRead_alike hk (bufAddr s n) h)
    obtain ⟨u', v', ok, hr', hq', h2⟩ := exists_pair (R := Alike k) (doPut_alike lim b h1)
    rw [writeLoop, writeLoop, bufAddr_congr h.ptr, hr, hq]
    dsimp only
    rw [hr', hq']
    cases ok with
    | true => exact ih (n + 1) h2
    | false => exact ⟨h2, rfl, rfl, rfl⟩

theorem readLoop_alike {k : Hidden} (hk : k ≠ .mem) (lim j n : Nat) (last : Byte) {s t : State} (h : Alike k s t) :
    AlikeLoop k (readLoop lim j n last s) (readLoop lim j n last t) := by
  induction j generalizing n last s t with
  | zero => exact ⟨h, rfl, rfl, rfl⟩
  | succ j ih =>
    obtain ⟨u, v, b, hr, hq, h1⟩ := exists_pair (R := Alike k) (doGet_alike lim (j == 0) h)
    rw [readLoop, readLoop, hr, hq]
    cases b with
    | none => exact ⟨h1, rfl, rfl, rfl⟩
    | some b =>
      dsimp only
      rw [bufAddr_congr h1.ptr]
      exact ih (n + 1) b (memWrite_alike hk (bufAddr u n) b h1)

theorem finish_alike {k : Hidden} (lim : Nat) {r q : LoopResult} (h : AlikeLoop k r q) :
    Alike k (finish lim r) (finish lim q) := by
  obtain ⟨s, n, last, done⟩ := r
  obtain ⟨t, n', last', done'⟩ := q
  obtain ⟨h1, hn, hlast, hdone⟩ := h
  dsimp only at h1 hn hlast hdone
  subst hn hlast hdone
  cases done' with
  | false => exact h1.respond false 0#8 false n'
  | true =>
    obtain ⟨u, v, ok, hr, hq, h2⟩ := exists_pair (R := Alike k) (doStop_alike lim h1)
    rw [finish, finish, if_pos rfl, if_pos rfl, hr, hq]
    exact h2.respond ok last' false n'

theorem blockTransfer_alike {k : Hidden} (lim : Nat) (b : Byte) {loop : State → LoopResult}
    (hloop : ∀ {s t : State}, Alike k s t → AlikeLoop k (loop s) (loop t)) {s t : State} (h : Alike k s t) :
    Alike k (blockTransfer lim b loop s) (blockTransfer lim b loop t) := by
  unfold blockTransfer
  refine ite_related (by rw [h.st]) (fun _ => h.respond false 0#8 false Config.errIndicator)
    (fun _ => ite_related (by rw [h.st])
      (fun _ => (enterError_alike lim h (.inl rfl)).respond false 0#8 false Config.errIndicator) (fun _ => ?_))
  obtain ⟨u, v, ok, hr, hq, h1⟩ := exists_pair (R := Alike k) (doPut_alike lim b (doStart_alike lim h).1)
  dsimp only
  rw [hr, hq]
  cases ok with
  | false => exact h1.respond false 0#8 false Config.errIndicator
  | true => exact finish_alike lim (hloop h1)

/-! ### Commands -/

/-- A command keeps the agreement: whatever is hidden if it is the cause or the registers of R24, and if it is the buffer,
for all commands but the block transfers. -/
theorem exec_alike {k : Hidden} {i : Instr} {s t : State} (hk : k ≠ .mem ∨ (∀ a, i ≠ .writeb a) ∧ ∀ a, i ≠ .readb a)
    (h : Alike k s t) : ∃ u v, exec i s = .next u ∧ exec i t = .next v ∧ Alike k u v := by
  have ha := h.accept
  cases i with
  | start => exact ⟨_, _, rfl, rfl, respondOk_alike (doStart_alike _ ha)⟩
  | stop => exact ⟨_, _, rfl, rfl, respondOk_alike (doStop_alike _ ha)⟩
  | rstart => exact ⟨_, _, rfl, rfl, respondOk_alike (doRstart_alike _ ha)⟩
  | put b => exact ⟨_, _, rfl, rfl, respondOk_alike (doPut_alike _ b ha)⟩
  | get nak => exact ⟨_, _, rfl, rfl, respondByte_alike (doGet_alike _ nak ha)⟩
  | chkerr =>
    refine ⟨_, _, rfl, rfl, ?_⟩
    rw [h.err]
    exact ha.respond true (errByte s.err) false 0
  | resume => exact ⟨_, _, rfl, rfl, (leaveError_alike _ ha).respond true 0#8 false 0⟩
  | writeb a =>
    have hk' : k ≠ .mem := hk.resolve_right (fun h => h.1 a rfl)
    refine ⟨_, _, exec_writeb a s, exec_writeb a t, blockTransfer_alike _ _ (fun {u v} h => ?_) ha⟩
    rw [h.len]
    exact writeLoop_alike hk' _ _ 0 h
  | readb a =>
    have hk' : k ≠ .mem := hk.resolve_right (fun h => h.2 a rfl)
    refine ⟨_, _, exec_readb a s, exec_readb a t, blockTransfer_alike _ _ (fun {u v} h => ?_) ha⟩
    rw [h.len]
    exact readLoop_alike hk' _ _ 0 0#8 h

/-- Settles O54: the states agree but for the cause. -/
theorem causeNeverRead : Obligations.CauseNeverRead := by
  intro i s c
  have h : Alike .cause s { s with cause := c } := ⟨rfl, fun hk => absurd rfl hk, fun _ => rfl, fun _ => ⟨rfl, rfl, rfl⟩⟩
  obtain ⟨u, v, hu, hv, huv⟩ := exec_alike (k := .cause) (i := i) (.inl nofun) h
  obtain ⟨hshreg, hbitcnt, hatt⟩ := huv.regs nofun
  have hrest := huv.rest
  rw [huv.mem nofun, hshreg, hbitcnt, hatt] at hrest
  exact ⟨u, v, hu, hv, hrest⟩

/-- Settles O55: the states agree but for the three registers. -/
theorem internalRegistersNeverRead : Obligations.InternalRegistersNeverRead := by
  intro i s a b c
  have h : Alike .regs s { s with shreg := a, bitcnt := b, att := c } :=
    ⟨rfl, fun _ => rfl, fun _ => rfl, fun hk => absurd rfl hk⟩
  obtain ⟨u, v, hu, hv, huv⟩ := exec_alike (k := .regs) (i := i) (.inl nofun) h
  have hrest := huv.rest
  rw [huv.cause nofun, huv.mem nofun] at hrest
  exact ⟨u, v, hu, hv, hrest⟩

/-- What does the same with another buffer, but for it, leaves the buffer alone. -/
theorem mem_of_tint {α : Type} {f : State → State × α} {s : State}
    (h : ∃ c, f (tint s.cause s.mem s) = tinted c s.mem (f s)) : (f s).1.mem = s.mem := by
  obtain ⟨c, h⟩ := h
  exact congrArg (fun r : State × α => r.1.mem) h

/-- No command but WRITEB and READB writes the buffer, in any state (R30). -/
theorem exec_mem {i : Instr} {s t : State} (hw : ∀ a, i ≠ .writeb a) (hr : ∀ a, i ≠ .readb a) (h : exec i s = .next t) :
    t.mem = s.mem := by
  cases i with
  | start => cases h; exact mem_of_tint (doStart_tint Config.attemptLimit _ _ (accept s))
  | stop => cases h; exact mem_of_tint (doStop_tint Config.attemptLimit _ _ (accept s))
  | rstart => cases h; exact mem_of_tint (doRstart_tint Config.attemptLimit _ _ (accept s))
  | put b => cases h; exact mem_of_tint (doPut_tint Config.attemptLimit b _ _ (accept s))
  | get nak =>
    cases h
    rw [respondByte_mem]
    exact mem_of_tint (doGet_tint Config.attemptLimit nak _ _ (accept s))
  | chkerr => cases h; rfl
  | resume =>
    cases h
    obtain ⟨l, k, r, -⟩ := abortRelease_runs Config.attemptLimit 0 (accept s) attemptLimit_pos
    exact r.kept.mem
  | writeb a => exact absurd rfl (hw a)
  | readb a => exact absurd rfl (hr a)

/-- Settles O53: the states agree but for the buffer, and the command leaves either buffer alone. -/
theorem bufferReachedOnlyByBlocks : Obligations.BufferReachedOnlyByBlocks := by
  intro i s m hw hr
  have h : Alike .mem s { s with mem := m } := ⟨rfl, fun _ => rfl, fun hk => absurd rfl hk, fun _ => ⟨rfl, rfl, rfl⟩⟩
  obtain ⟨u, v, hu, hv, huv⟩ := exec_alike (k := .mem) (i := i) (.inr ⟨hw, hr⟩) h
  obtain ⟨hshreg, hbitcnt, hatt⟩ := huv.regs nofun
  have hrest := huv.rest
  rw [huv.cause nofun, exec_mem hw hr hv, hshreg, hbitcnt, hatt] at hrest
  exact ⟨u, hu, hv.trans (congrArg _ hrest)⟩

end Sys2Proof.Machine
end
